-- ==== Sys2Proof/Word.lean ====
section
/-! DEFINITION. The three data sizes of the TR3200 (00_scope.md R8) as bit vectors. A "word" of this machine
has 16 bits, a register has a dword of 32. -/

namespace Sys2Proof

/-- 8 bits, the smallest addressable unit (R6, R8). -/
abbrev Byte := BitVec 8

/-- 16 bits: the source's "WORD" (R8). -/
abbrev Word := BitVec 16

/-- 32 bits: the source's "DWORD" (R8), the width of a register, of an address and of an instruction unit (R6). -/
abbrev Dword := BitVec 32

end Sys2Proof
end

