-- ==== Sys2Proof/Config.lean ====
section
/-! DEFINITION. What the platform fixes and the CPU's specification leaves open (00_scope.md R7): the kinds of
region a memory map may give an address, the names of the accesses a step can make, and the free values. -/

namespace Sys2Proof

/-- The three sources of an interrupt (60_exceptions.md R221). -/
inductive Source where
  /-- the `_INT` line, with a message on the data bus (R225) -/
  | hardware
  /-- the INT instruction (R207) -/
  | software
  /-- the single-step trap (R230) -/
  | singleStep
deriving DecidableEq, Repr

/-- Why the CPU reads memory. One step makes at most one access of each kind to one address, so together with the
state's counter the kind tells the reads of one address apart. -/
inductive Access where
  /-- the first dword of an instruction (R91) -/
  | fetch
  /-- the literal dword of a long instruction (R89, R91) -/
  | literal
  /-- the first dword of an instruction that a failed test skips (R171) -/
  | skip
  /-- a load (R110 to R112, R116 to R118) -/
  | data
  /-- a pop (R202) -/
  | stack
  /-- an entry of the interrupt vector table (R227) -/
  | vector (source : Source)
deriving DecidableEq, Repr

/-- What the platform's `MEMMAP` puts at an address (R7, R61). -/
inductive RegionKind where
  /-- read and written -/
  | ram
  /-- read, and a write has no effect (R61, D24) -/
  | rom
  /-- a memory-mapped device: the value read is the device's, the value written goes to the device (R60, U18) -/
  | device
  /-- nothing: a read returns any value, a write has no effect (R61, D24, U16, U17) -/
  | absent
deriving DecidableEq, Repr

/-- Whether bytes of this kind are held in the state's memory: RAM and ROM answer what is stored there (R53). -/
def RegionKind.stored : RegionKind → Bool
  | .ram => true
  | .rom => true
  | .device => false
  | .absent => false

/-- Whether a store changes bytes of this kind (R54, R61). -/
def RegionKind.writable : RegionKind → Bool
  | .ram => true
  | .rom => false
  | .device => false
  | .absent => false

/-- One piece of a memory map: `size` addresses from `base` on. -/
structure Region where
  base : Nat
  size : Nat
  kind : RegionKind
deriving DecidableEq, Repr

/-- FREE VALUE (log entry 2). The byte the bus delivers for a read of an address that holds no RAM or ROM: "whatever
the device answers" (R53), "any value" where there is nothing (R61, U16, U18). It depends on the step (the state's
counter), on which read of the step it is and on the address. It has no body: no proof can know it. -/
opaque Config.freeByte : Nat → Access → Dword → Byte

/-- FREE VALUE (log entry 17). The extra cycles a literal dword costs, which the source does not give (R270, U48). -/
opaque Config.literalCycles : Nat

/-- FREE VALUE (log entry 17). The figure SLEEP's "+1" is added to, which the source does not give (R270, U48). -/
opaque Config.sleepBaseCycles : Nat

end Sys2Proof
end

