-- ==== Sys2Proof/Syntax.lean ====
section
/-! DEFINITION. The instructions of the TR3200 as syntax: one constructor for each row of spec/opcode_table.json
(30_encoding.md R92 to R95). NOP is the MOV whose operands are both `%r0` (R104) and has no constructor. -/

namespace Sys2Proof

/-- The sixteen registers of the one register file, by the names of R21; every 4-bit register field names one. -/
inductive Reg where
  | r0 | r1 | r2 | r3 | r4 | r5 | r6 | r7 | r8 | r9 | r10
  /-- `%r11`, high half of a product, remainder of a division (R23) -/
  | y
  /-- `%r12`, base pointer (R24) -/
  | bp
  /-- `%r13`, stack pointer (R25) -/
  | sp
  /-- `%r14`, base of the interrupt vector table (R26) -/
  | ia
  /-- `%r15`, flags and enable bits (R27, R30) -/
  | flags
deriving DecidableEq, Repr

/-- The Rn operand (R87 to R90). -/
inductive Operand where
  /-- M = 0: a register (R87) -/
  | reg (r : Reg)
  /-- M = 1, short: the field's number, sign-extended to 32 bits (R88) -/
  | imm (v : Dword)
  /-- M = 1, long: the dword that follows the instruction (R89) -/
  | lit (v : Dword)
deriving DecidableEq, Repr

/-- The instructions. The operands stand in the order Rd, Rs, Rn whatever the assembler's order is (R102). -/
inductive Instr where
  /-- `AND Rd, Rs, Rn`, form P3, opcode byte 0x80 (R141) -/
  | and (rd rs : Reg) (rn : Operand)
  /-- `OR Rd, Rs, Rn`, form P3, opcode byte 0x81 (R142) -/
  | or (rd rs : Reg) (rn : Operand)
  /-- `XOR Rd, Rs, Rn`, form P3, opcode byte 0x82 (R143) -/
  | xor (rd rs : Reg) (rn : Operand)
  /-- `BITC Rd, Rs, Rn`, form P3, opcode byte 0x83 (R144) -/
  | bitc (rd rs : Reg) (rn : Operand)
  /-- `ADD Rd, Rs, Rn`, form P3, opcode byte 0x84 (R150) -/
  | add (rd rs : Reg) (rn : Operand)
  /-- `ADDC Rd, Rs, Rn`, form P3, opcode byte 0x85 (R151) -/
  | addc (rd rs : Reg) (rn : Operand)
  /-- `SUB Rd, Rs, Rn`, form P3, opcode byte 0x86 (R152) -/
  | sub (rd rs : Reg) (rn : Operand)
  /-- `SUBB Rd, Rs, Rn`, form P3, opcode byte 0x87 (R153) -/
  | subb (rd rs : Reg) (rn : Operand)
  /-- `RSB Rd, Rs, Rn`, form P3, opcode byte 0x88 (R154) -/
  | rsb (rd rs : Reg) (rn : Operand)
  /-- `RSBB Rd, Rs, Rn`, form P3, opcode byte 0x89 (R155) -/
  | rsbb (rd rs : Reg) (rn : Operand)
  /-- `LLS Rd, Rs, Rn`, form P3, opcode byte 0x8A (R145) -/
  | lls (rd rs : Reg) (rn : Operand)
  /-- `LRS Rd, Rs, Rn`, form P3, opcode byte 0x8B (R146) -/
  | lrs (rd rs : Reg) (rn : Operand)
  /-- `ARS Rd, Rs, Rn`, form P3, opcode byte 0x8C (R147) -/
  | ars (rd rs : Reg) (rn : Operand)
  /-- `ROTL Rd, Rs, Rn`, form P3, opcode byte 0x8D (R148) -/
  | rotl (rd rs : Reg) (rn : Operand)
  /-- `ROTR Rd, Rs, Rn`, form P3, opcode byte 0x8E (R149) -/
  | rotr (rd rs : Reg) (rn : Operand)
  /-- `MUL Rd, Rs, Rn`, form P3, opcode byte 0x8F (R160) -/
  | mul (rd rs : Reg) (rn : Operand)
  /-- `SMUL Rd, Rs, Rn`, form P3, opcode byte 0x90 (R161) -/
  | smul (rd rs : Reg) (rn : Operand)
  /-- `DIV Rd, Rs, Rn`, form P3, opcode byte 0x91 (R162) -/
  | div (rd rs : Reg) (rn : Operand)
  /-- `SDIV Rd, Rs, Rn`, form P3, opcode byte 0x92 (R163) -/
  | sdiv (rd rs : Reg) (rn : Operand)
  /-- `LOAD Rd, Rs + Rn`, form P3, opcode byte 0x93 (R110) -/
  | loadP3 (rd rs : Reg) (rn : Operand)
  /-- `LOADW Rd, Rs + Rn`, form P3, opcode byte 0x94 (R111) -/
  | loadwP3 (rd rs : Reg) (rn : Operand)
  /-- `LOADB Rd, Rs + Rn`, form P3, opcode byte 0x95 (R112) -/
  | loadbP3 (rd rs : Reg) (rn : Operand)
  /-- `STORE Rs + Rn, Rd`, form P3, opcode byte 0x96 (R113) -/
  | storeP3 (rd rs : Reg) (rn : Operand)
  /-- `STOREW Rs + Rn, Rd`, form P3, opcode byte 0x97 (R114) -/
  | storewP3 (rd rs : Reg) (rn : Operand)
  /-- `STOREB Rs + Rn, Rd`, form P3, opcode byte 0x98 (R115) -/
  | storebP3 (rd rs : Reg) (rn : Operand)
  /-- `MOV Rd, Rn`, form P2, opcode byte 0x40 (R130) -/
  | mov (rd : Reg) (rn : Operand)
  /-- `SWP Rd, Rn`, form P2, opcode byte 0x41 (R131) -/
  | swp (rd rn : Reg)
  /-- `NOT Rd, Rn`, form P2, opcode byte 0x42 (R140) -/
  | not (rd : Reg) (rn : Operand)
  /-- `SIGXB Rd, Rn`, form P2, opcode byte 0x43 (R132) -/
  | sigxb (rd : Reg) (rn : Operand)
  /-- `SIGXW Rd, Rn`, form P2, opcode byte 0x44 (R133) -/
  | sigxw (rd : Reg) (rn : Operand)
  /-- `LOAD Rd, Rn`, form P2, opcode byte 0x45 (R116) -/
  | loadP2 (rd : Reg) (rn : Operand)
  /-- `LOADW Rd, Rn`, form P2, opcode byte 0x46 (R117) -/
  | loadwP2 (rd : Reg) (rn : Operand)
  /-- `LOADB Rd, Rn`, form P2, opcode byte 0x47 (R118) -/
  | loadbP2 (rd : Reg) (rn : Operand)
  /-- `STORE Rn, Rd`, form P2, opcode byte 0x48 (R119) -/
  | storeP2 (rd : Reg) (rn : Operand)
  /-- `STOREW Rn, Rd`, form P2, opcode byte 0x49 (R120) -/
  | storewP2 (rd : Reg) (rn : Operand)
  /-- `STOREB Rn, Rd`, form P2, opcode byte 0x4A (R121) -/
  | storebP2 (rd : Reg) (rn : Operand)
  /-- `IFEQ Rd, Rn`, form P2, opcode byte 0x4B (R172) -/
  | ifeq (rd : Reg) (rn : Operand)
  /-- `IFNEQ Rd, Rn`, form P2, opcode byte 0x4C (R173) -/
  | ifneq (rd : Reg) (rn : Operand)
  /-- `IFL Rd, Rn`, form P2, opcode byte 0x4D (R174) -/
  | ifl (rd : Reg) (rn : Operand)
  /-- `IFSL Rd, Rn`, form P2, opcode byte 0x4E (R175) -/
  | ifsl (rd : Reg) (rn : Operand)
  /-- `IFLE Rd, Rn`, form P2, opcode byte 0x4F (R176) -/
  | ifle (rd : Reg) (rn : Operand)
  /-- `IFSLE Rd, Rn`, form P2, opcode byte 0x50 (R177) -/
  | ifsle (rd : Reg) (rn : Operand)
  /-- `IFBITS Rd, Rn`, form P2, opcode byte 0x51 (R178) -/
  | ifbits (rd : Reg) (rn : Operand)
  /-- `IFCLEAR Rd, Rn`, form P2, opcode byte 0x52 (R179) -/
  | ifclear (rd : Reg) (rn : Operand)
  /-- `JMP Rd + Rn`, form P2, opcode byte 0x53 (R185) -/
  | jmpP2 (rd : Reg) (rn : Operand)
  /-- `CALL Rd + Rn`, form P2, opcode byte 0x54 (R186) -/
  | callP2 (rd : Reg) (rn : Operand)
  /-- `XCHGB Rn`, form P1, opcode byte 0x20 (R135) -/
  | xchgb (rn : Reg)
  /-- `XCHGW Rn`, form P1, opcode byte 0x21 (R134) -/
  | xchgw (rn : Reg)
  /-- `GETPC Rn`, form P1, opcode byte 0x22 (R137) -/
  | getpc (rn : Reg)
  /-- `POP Rn`, form P1, opcode byte 0x23 (R201) -/
  | pop (rn : Reg)
  /-- `PUSH Rn`, form P1, opcode byte 0x24 (R200) -/
  | push (rn : Reg)
  /-- `JMP Rn`, form P1, opcode byte 0x25 (R187) -/
  | jmpP1 (rn : Operand)
  /-- `CALL Rn`, form P1, opcode byte 0x26 (R188) -/
  | callP1 (rn : Operand)
  /-- `RJMP Rn`, form P1, opcode byte 0x27 (R189) -/
  | rjmp (rn : Operand)
  /-- `RCALL Rn`, form P1, opcode byte 0x28 (R190) -/
  | rcall (rn : Operand)
  /-- `INT Rn`, form P1, opcode byte 0x29 (R207) -/
  | int (rn : Operand)
  /-- `SLEEP`, form NP, opcode byte 0x00 (R206) -/
  | sleep
  /-- `RET`, form NP, opcode byte 0x01 (R191) -/
  | ret
  /-- `RFI`, form NP, opcode byte 0x02 (R208) -/
  | rfi
deriving DecidableEq, Repr

/-- The pseudo-instruction NOP, "Same that MOV %r0, %r0" (R104, R205). -/
def Instr.nop : Instr := .mov .r0 (.reg .r0)

end Sys2Proof
end

