-- ==== Sys2Proof/WellFormed.lean ====
section
/-! DEFINITION. Which terms of `Instr` an encoding exists for: a short immediate must be a number its format's field
can hold, and must not be the marker value of R89, which stands for the long form. Everything else the types
already say. -/

namespace Sys2Proof

/-- Whether `v` is a short immediate of a `bits`-bit field (R88): the sign extension of the field's number, and not
the most negative value, which is the marker (R89). For 15, 19 and 23 bits these are -16383..16383,
-262143..262143 and -4194303..4194303. -/
def immFits (bits : Nat) (v : Dword) : Bool :=
  (v.setWidth bits).signExtend 32 == v && v.setWidth bits != BitVec.twoPow bits (bits - 1)

/-- Whether an encoding exists for the operand in a field of `bits` bits: a register and a literal always fit. -/
def Operand.wf (bits : Nat) : Operand → Bool
  | .reg _ => true
  | .imm v => immFits bits v
  | .lit _ => true

/-- Whether an encoding exists for the instruction (R88, R89, R106). -/
def Instr.wf : Instr → Bool
  | .and _ _ rn => rn.wf 15
  | .or _ _ rn => rn.wf 15
  | .xor _ _ rn => rn.wf 15
  | .bitc _ _ rn => rn.wf 15
  | .add _ _ rn => rn.wf 15
  | .addc _ _ rn => rn.wf 15
  | .sub _ _ rn => rn.wf 15
  | .subb _ _ rn => rn.wf 15
  | .rsb _ _ rn => rn.wf 15
  | .rsbb _ _ rn => rn.wf 15
  | .lls _ _ rn => rn.wf 15
  | .lrs _ _ rn => rn.wf 15
  | .ars _ _ rn => rn.wf 15
  | .rotl _ _ rn => rn.wf 15
  | .rotr _ _ rn => rn.wf 15
  | .mul _ _ rn => rn.wf 15
  | .smul _ _ rn => rn.wf 15
  | .div _ _ rn => rn.wf 15
  | .sdiv _ _ rn => rn.wf 15
  | .loadP3 _ _ rn => rn.wf 15
  | .loadwP3 _ _ rn => rn.wf 15
  | .loadbP3 _ _ rn => rn.wf 15
  | .storeP3 _ _ rn => rn.wf 15
  | .storewP3 _ _ rn => rn.wf 15
  | .storebP3 _ _ rn => rn.wf 15
  | .mov _ rn => rn.wf 19
  | .swp _ _ => true
  | .not _ rn => rn.wf 19
  | .sigxb _ rn => rn.wf 19
  | .sigxw _ rn => rn.wf 19
  | .loadP2 _ rn => rn.wf 19
  | .loadwP2 _ rn => rn.wf 19
  | .loadbP2 _ rn => rn.wf 19
  | .storeP2 _ rn => rn.wf 19
  | .storewP2 _ rn => rn.wf 19
  | .storebP2 _ rn => rn.wf 19
  | .ifeq _ rn => rn.wf 19
  | .ifneq _ rn => rn.wf 19
  | .ifl _ rn => rn.wf 19
  | .ifsl _ rn => rn.wf 19
  | .ifle _ rn => rn.wf 19
  | .ifsle _ rn => rn.wf 19
  | .ifbits _ rn => rn.wf 19
  | .ifclear _ rn => rn.wf 19
  | .jmpP2 _ rn => rn.wf 19
  | .callP2 _ rn => rn.wf 19
  | .xchgb _ => true
  | .xchgw _ => true
  | .getpc _ => true
  | .pop _ => true
  | .push _ => true
  | .jmpP1 rn => rn.wf 23
  | .callP1 rn => rn.wf 23
  | .rjmp rn => rn.wf 23
  | .rcall rn => rn.wf 23
  | .int rn => rn.wf 23
  | .sleep => true
  | .ret => true
  | .rfi => true

end Sys2Proof
end

