-- ==== Sys2Proof/Decode.lean ====
section
/-! DEFINITION. Instruction words: the fields of the four formats (30_encoding.md R81 to R85), the operand forms
(R87 to R90), the opcode map (R92 to R95), what is no instruction (R96 to R98), and the encoder (R106). -/

namespace Sys2Proof

/-- The register a 4-bit field names (R20, R21). -/
def Reg.ofBits (b : BitVec 4) : Reg :=
  match b.toNat with
  | 0 => .r0
  | 1 => .r1
  | 2 => .r2
  | 3 => .r3
  | 4 => .r4
  | 5 => .r5
  | 6 => .r6
  | 7 => .r7
  | 8 => .r8
  | 9 => .r9
  | 10 => .r10
  | 11 => .y
  | 12 => .bp
  | 13 => .sp
  | 14 => .ia
  | _ => .flags

/-- The number of a register (R21). -/
def Reg.toBits : Reg → BitVec 4
  | .r0 => 0
  | .r1 => 1
  | .r2 => 2
  | .r3 => 3
  | .r4 => 4
  | .r5 => 5
  | .r6 => 6
  | .r7 => 7
  | .r8 => 8
  | .r9 => 9
  | .r10 => 10
  | .y => 11
  | .bp => 12
  | .sp => 13
  | .ia => 14
  | .flags => 15

/-- The four instruction formats (R81). -/
inductive Format where
  | p3 | p2 | p1 | np
deriving DecidableEq, Repr

/-- The format, found from bits 31:29 (R81, C3). -/
def formatOf (ins : Dword) : Format :=
  if ins.getLsbD 31 then .p3
  else if ins.getLsbD 30 then .p2
  else if ins.getLsbD 29 then .p1
  else .np

/-- `ins[31:24]`, the opcode byte of the source's tables in all four formats (R81). -/
def opcodeOf (ins : Dword) : BitVec 8 := ins.extractLsb' 24 8

/-- `ins[23]`, the M bit of P3, P2 and P1 (R82 to R84). -/
def mBit (ins : Dword) : Bool := ins.getLsbD 23

/-- `ins[22:8]`, the Rn field of P3 (R82). -/
def fieldP3 (ins : Dword) : BitVec 15 := ins.extractLsb' 8 15

/-- `ins[22:4]`, the Rn field of P2 (R83). -/
def fieldP2 (ins : Dword) : BitVec 19 := ins.extractLsb' 4 19

/-- `ins[22:0]`, the Rn field of P1 (R84). -/
def fieldP1 (ins : Dword) : BitVec 23 := ins.extractLsb' 0 23

/-- `ins[7:4]`, Rs of P3 (R82). -/
def rsOf (ins : Dword) : Reg := .ofBits (ins.extractLsb' 4 4)

/-- `ins[3:0]`, Rd of P3 and P2 (R82, R83). -/
def rdOf (ins : Dword) : Reg := .ofBits (ins.extractLsb' 0 4)

/-- The marker of the long form: the most negative value of a field of `w` bits, 0x4000, 0x40000 or 0x400000 (R89). -/
def marker (w : Nat) : BitVec w := BitVec.twoPow w (w - 1)

/-- `HasLiteral(ins)` of R91: it looks at the format, M and the Rn field only, never at the opcode, so the length of
every dword taken as an instruction is defined. -/
def hasLiteral (ins : Dword) : Bool :=
  mBit ins &&
    match formatOf ins with
    | .p3 => fieldP3 ins == marker 15
    | .p2 => fieldP2 ins == marker 19
    | .p1 => fieldP1 ins == marker 23
    | .np => false

/-- `IsConditional(w)` of R171: one of the eight IFxx opcode bytes, 0x4B to 0x52. -/
def isConditional (ins : Dword) : Bool :=
  0x4B ≤ (opcodeOf ins).toNat && (opcodeOf ins).toNat ≤ 0x52

/-- The Rn operand of an M bit, a field and the dword that follows (R87 to R90): of a register form only the low four
bits of the field count (R99). -/
def operandOf {w : Nat} (m : Bool) (field : BitVec w) (literal : Dword) : Operand :=
  if m then
    if field == marker w then .lit literal else .imm (field.signExtend 32)
  else .reg (.ofBits (field.setWidth 4))

/-- Why bits are no instruction; each is the model fault `UnrecognisedInstruction` when executed (R96 to R98). -/
inductive DecodeError where
  /-- an opcode byte the tables do not assign (R96) -/
  | unassignedOpcode
  /-- M = 1 on SWP, XCHGB, XCHGW, GETPC, POP or PUSH (R97) -/
  | immediateForbidden
  /-- an NP dword of an assigned opcode with a bit of 23:0 set (R98) -/
  | reservedBits
  /-- fewer bytes than the instruction has; a fetch from memory never meets this -/
  | truncated
deriving DecidableEq, Repr

/-- An instruction whose Rn must be a register, M = 0 (R97). -/
def needReg (rn : Operand) (f : Reg → Instr) : Except DecodeError Instr :=
  match rn with
  | .reg r => .ok (f r)
  | .imm _ => .error .immediateForbidden
  | .lit _ => .error .immediateForbidden

/-- The opcode map of form P3 (R92). -/
def decodeP3 (opcode : BitVec 8) (rd rs : Reg) (rn : Operand) : Except DecodeError Instr :=
  match opcode.toNat with
  | 0x80 => .ok (.and rd rs rn)
  | 0x81 => .ok (.or rd rs rn)
  | 0x82 => .ok (.xor rd rs rn)
  | 0x83 => .ok (.bitc rd rs rn)
  | 0x84 => .ok (.add rd rs rn)
  | 0x85 => .ok (.addc rd rs rn)
  | 0x86 => .ok (.sub rd rs rn)
  | 0x87 => .ok (.subb rd rs rn)
  | 0x88 => .ok (.rsb rd rs rn)
  | 0x89 => .ok (.rsbb rd rs rn)
  | 0x8A => .ok (.lls rd rs rn)
  | 0x8B => .ok (.lrs rd rs rn)
  | 0x8C => .ok (.ars rd rs rn)
  | 0x8D => .ok (.rotl rd rs rn)
  | 0x8E => .ok (.rotr rd rs rn)
  | 0x8F => .ok (.mul rd rs rn)
  | 0x90 => .ok (.smul rd rs rn)
  | 0x91 => .ok (.div rd rs rn)
  | 0x92 => .ok (.sdiv rd rs rn)
  | 0x93 => .ok (.loadP3 rd rs rn)
  | 0x94 => .ok (.loadwP3 rd rs rn)
  | 0x95 => .ok (.loadbP3 rd rs rn)
  | 0x96 => .ok (.storeP3 rd rs rn)
  | 0x97 => .ok (.storewP3 rd rs rn)
  | 0x98 => .ok (.storebP3 rd rs rn)
  | _ => .error .unassignedOpcode

/-- The opcode map of form P2 (R93). -/
def decodeP2 (opcode : BitVec 8) (rd : Reg) (rn : Operand) : Except DecodeError Instr :=
  match opcode.toNat with
  | 0x40 => .ok (.mov rd rn)
  | 0x41 => needReg rn (.swp rd ·)
  | 0x42 => .ok (.not rd rn)
  | 0x43 => .ok (.sigxb rd rn)
  | 0x44 => .ok (.sigxw rd rn)
  | 0x45 => .ok (.loadP2 rd rn)
  | 0x46 => .ok (.loadwP2 rd rn)
  | 0x47 => .ok (.loadbP2 rd rn)
  | 0x48 => .ok (.storeP2 rd rn)
  | 0x49 => .ok (.storewP2 rd rn)
  | 0x4A => .ok (.storebP2 rd rn)
  | 0x4B => .ok (.ifeq rd rn)
  | 0x4C => .ok (.ifneq rd rn)
  | 0x4D => .ok (.ifl rd rn)
  | 0x4E => .ok (.ifsl rd rn)
  | 0x4F => .ok (.ifle rd rn)
  | 0x50 => .ok (.ifsle rd rn)
  | 0x51 => .ok (.ifbits rd rn)
  | 0x52 => .ok (.ifclear rd rn)
  | 0x53 => .ok (.jmpP2 rd rn)
  | 0x54 => .ok (.callP2 rd rn)
  | _ => .error .unassignedOpcode

/-- The opcode map of form P1 (R94). -/
def decodeP1 (opcode : BitVec 8) (rn : Operand) : Except DecodeError Instr :=
  match opcode.toNat with
  | 0x20 => needReg rn .xchgb
  | 0x21 => needReg rn .xchgw
  | 0x22 => needReg rn .getpc
  | 0x23 => needReg rn .pop
  | 0x24 => needReg rn .push
  | 0x25 => .ok (.jmpP1 rn)
  | 0x26 => .ok (.callP1 rn)
  | 0x27 => .ok (.rjmp rn)
  | 0x28 => .ok (.rcall rn)
  | 0x29 => .ok (.int rn)
  | _ => .error .unassignedOpcode

/-- The opcode map of form NP, whose bits 23:0 must be zero (R95, R98). -/
def decodeNP (opcode : BitVec 8) (reserved : BitVec 24) : Except DecodeError Instr :=
  match opcode.toNat with
  | 0x00 => if reserved == 0 then .ok .sleep else .error .reservedBits
  | 0x01 => if reserved == 0 then .ok .ret else .error .reservedBits
  | 0x02 => if reserved == 0 then .ok .rfi else .error .reservedBits
  | _ => .error .unassignedOpcode

/-- The instruction of a first dword and the dword after it (R91 steps 2 to 5). The second is looked at only where
`hasLiteral ins` holds. -/
def decodeDwords (ins literal : Dword) : Except DecodeError Instr :=
  match formatOf ins with
  | .p3 => decodeP3 (opcodeOf ins) (rdOf ins) (rsOf ins) (operandOf (mBit ins) (fieldP3 ins) literal)
  | .p2 => decodeP2 (opcodeOf ins) (rdOf ins) (operandOf (mBit ins) (fieldP2 ins) literal)
  | .p1 => decodeP1 (opcodeOf ins) (operandOf (mBit ins) (fieldP1 ins) literal)
  | .np => decodeNP (opcodeOf ins) (ins.extractLsb' 0 24)

/-- A dword from its bytes, the least significant at the lowest address (R51, D1). -/
def dwordOfBytes (b0 b1 b2 b3 : Byte) : Dword := b3 ++ b2 ++ b1 ++ b0

/-- The bytes of a dword at ascending addresses (R51, R54). -/
def bytesOfDword (v : Dword) : List Byte :=
  [v.extractLsb' 0 8, v.extractLsb' 8 8, v.extractLsb' 16 8, v.extractLsb' 24 8]

/-- Decoding of any bytes: the instruction they begin with and the bytes after it, or why there is none. -/
def decode : List Byte → Except DecodeError (Instr × List Byte)
  | b0 :: b1 :: b2 :: b3 :: rest =>
    let ins := dwordOfBytes b0 b1 b2 b3
    if hasLiteral ins then
      match rest with
      | c0 :: c1 :: c2 :: c3 :: rest' =>
        match decodeDwords ins (dwordOfBytes c0 c1 c2 c3) with
        | .ok i => .ok (i, rest')
        | .error e => .error e
      | _ => .error .truncated
    else
      match decodeDwords ins 0 with
      | .ok i => .ok (i, rest)
      | .error e => .error e
  | _ => .error .truncated

/-- The decoder on one table row's bits: bit 0 of `w` is bit 0 of the first dword, bits from 32 on are the dword that
follows, and every bit from `nbits` on is 0. The dwords are laid out as bytes (R51) and decoded. -/
def decodeTableWord (nbits w : Nat) : Option Instr :=
  let bits := w % 2 ^ nbits
  match decode (bytesOfDword (BitVec.ofNat 32 bits) ++ bytesOfDword (BitVec.ofNat 32 (bits / 2 ^ 32))) with
  | .ok (i, _) => some i
  | .error _ => none

/-! ### The encoder (R106) -/

/-- The M bit of an operand (R87, R88). -/
def Operand.mBit : Operand → BitVec 1
  | .reg _ => 0
  | .imm _ => 1
  | .lit _ => 1

/-- The Rn field of an operand: the register number with upper bits zero, the truncated number, or the marker (R106). -/
def Operand.field (w : Nat) : Operand → BitVec w
  | .reg r => r.toBits.setWidth w
  | .imm v => v.setWidth w
  | .lit _ => marker w

/-- The literal dword, where the operand has one (R89). -/
def Operand.literal : Operand → List Dword
  | .reg _ => []
  | .imm _ => []
  | .lit v => [v]

/-- The dwords of a P3 instruction (R82, R106). -/
def encodeP3 (opcode : BitVec 8) (rd rs : Reg) (rn : Operand) : List Dword :=
  (opcode ++ rn.mBit ++ rn.field 15 ++ rs.toBits ++ rd.toBits) :: rn.literal

/-- The dwords of a P2 instruction (R83, R106). -/
def encodeP2 (opcode : BitVec 8) (rd : Reg) (rn : Operand) : List Dword :=
  (opcode ++ rn.mBit ++ rn.field 19 ++ rd.toBits) :: rn.literal

/-- The dwords of a P1 instruction (R84, R106). -/
def encodeP1 (opcode : BitVec 8) (rn : Operand) : List Dword :=
  (opcode ++ rn.mBit ++ rn.field 23) :: rn.literal

/-- The dword of an NP instruction (R85, R106). -/
def encodeNP (opcode : BitVec 8) : List Dword := [opcode ++ (0 : BitVec 24)]

/-- The dwords of an instruction (R106); of a term that is not well-formed the immediate is truncated. -/
def encode : Instr → List Dword
  | .and rd rs rn => encodeP3 0x80 rd rs rn
  | .or rd rs rn => encodeP3 0x81 rd rs rn
  | .xor rd rs rn => encodeP3 0x82 rd rs rn
  | .bitc rd rs rn => encodeP3 0x83 rd rs rn
  | .add rd rs rn => encodeP3 0x84 rd rs rn
  | .addc rd rs rn => encodeP3 0x85 rd rs rn
  | .sub rd rs rn => encodeP3 0x86 rd rs rn
  | .subb rd rs rn => encodeP3 0x87 rd rs rn
  | .rsb rd rs rn => encodeP3 0x88 rd rs rn
  | .rsbb rd rs rn => encodeP3 0x89 rd rs rn
  | .lls rd rs rn => encodeP3 0x8A rd rs rn
  | .lrs rd rs rn => encodeP3 0x8B rd rs rn
  | .ars rd rs rn => encodeP3 0x8C rd rs rn
  | .rotl rd rs rn => encodeP3 0x8D rd rs rn
  | .rotr rd rs rn => encodeP3 0x8E rd rs rn
  | .mul rd rs rn => encodeP3 0x8F rd rs rn
  | .smul rd rs rn => encodeP3 0x90 rd rs rn
  | .div rd rs rn => encodeP3 0x91 rd rs rn
  | .sdiv rd rs rn => encodeP3 0x92 rd rs rn
  | .loadP3 rd rs rn => encodeP3 0x93 rd rs rn
  | .loadwP3 rd rs rn => encodeP3 0x94 rd rs rn
  | .loadbP3 rd rs rn => encodeP3 0x95 rd rs rn
  | .storeP3 rd rs rn => encodeP3 0x96 rd rs rn
  | .storewP3 rd rs rn => encodeP3 0x97 rd rs rn
  | .storebP3 rd rs rn => encodeP3 0x98 rd rs rn
  | .mov rd rn => encodeP2 0x40 rd rn
  | .swp rd rn => encodeP2 0x41 rd (.reg rn)
  | .not rd rn => encodeP2 0x42 rd rn
  | .sigxb rd rn => encodeP2 0x43 rd rn
  | .sigxw rd rn => encodeP2 0x44 rd rn
  | .loadP2 rd rn => encodeP2 0x45 rd rn
  | .loadwP2 rd rn => encodeP2 0x46 rd rn
  | .loadbP2 rd rn => encodeP2 0x47 rd rn
  | .storeP2 rd rn => encodeP2 0x48 rd rn
  | .storewP2 rd rn => encodeP2 0x49 rd rn
  | .storebP2 rd rn => encodeP2 0x4A rd rn
  | .ifeq rd rn => encodeP2 0x4B rd rn
  | .ifneq rd rn => encodeP2 0x4C rd rn
  | .ifl rd rn => encodeP2 0x4D rd rn
  | .ifsl rd rn => encodeP2 0x4E rd rn
  | .ifle rd rn => encodeP2 0x4F rd rn
  | .ifsle rd rn => encodeP2 0x50 rd rn
  | .ifbits rd rn => encodeP2 0x51 rd rn
  | .ifclear rd rn => encodeP2 0x52 rd rn
  | .jmpP2 rd rn => encodeP2 0x53 rd rn
  | .callP2 rd rn => encodeP2 0x54 rd rn
  | .xchgb rn => encodeP1 0x20 (.reg rn)
  | .xchgw rn => encodeP1 0x21 (.reg rn)
  | .getpc rn => encodeP1 0x22 (.reg rn)
  | .pop rn => encodeP1 0x23 (.reg rn)
  | .push rn => encodeP1 0x24 (.reg rn)
  | .jmpP1 rn => encodeP1 0x25 rn
  | .callP1 rn => encodeP1 0x26 rn
  | .rjmp rn => encodeP1 0x27 rn
  | .rcall rn => encodeP1 0x28 rn
  | .int rn => encodeP1 0x29 rn
  | .sleep => encodeNP 0x00
  | .ret => encodeNP 0x01
  | .rfi => encodeNP 0x02

/-- The bytes of an instruction at ascending addresses (R51, R52). -/
def encodeBytes (i : Instr) : List Byte := (encode i).flatMap bytesOfDword

/-- The operand of a number in a field of `bits` bits as an assembler chooses its form: short where it fits, else long
(R105). -/
def Operand.ofNumber (bits : Nat) (v : Dword) : Operand := if immFits bits v then .imm v else .lit v

end Sys2Proof
end

