-- ==== Sys2Proof/Machine/State.lean ====
section
/-! DEFINITION. The state of the machine as plain data (10_state.md), the environment's moves (60_exceptions.md R246),
the reasons a step can stop, and the state after reset (R43). -/

namespace Sys2Proof.Machine

/-- The sixteen 32-bit registers (R20, R21). -/
structure RegFile where
  r0 : Dword
  r1 : Dword
  r2 : Dword
  r3 : Dword
  r4 : Dword
  r5 : Dword
  r6 : Dword
  r7 : Dword
  r8 : Dword
  r9 : Dword
  r10 : Dword
  y : Dword
  bp : Dword
  sp : Dword
  ia : Dword
  flags : Dword
deriving DecidableEq, Repr

/-- "All registers are set to 0 when the TR3200 boot-up or does a reset" (R43). -/
def RegFile.zero : RegFile :=
  { r0 := 0, r1 := 0, r2 := 0, r3 := 0, r4 := 0, r5 := 0, r6 := 0, r7 := 0, r8 := 0, r9 := 0, r10 := 0,
    y := 0, bp := 0, sp := 0, ia := 0, flags := 0 }

/-- The bytes of memory that differ from what an unlisted address reads as, addresses strictly rising. -/
abbrev Memory := List Host.Cell

/-- One byte that something other than an instruction's completed store puts at an address. -/
abbrev ByteWrite := Dword × Byte

/-- One move of the environment (R246). The state lists the moves to come, one for each step; after the last one the
environment does nothing. -/
inductive EnvMove where
  /-- one `Step(hw)` of R245: at this boundary the devices offer a message, or none (R225) -/
  | boundary (hw : Option Dword)
  /-- the falling edge of `_RESET`, replacing `Step(hw)` (R245, R260): of the bytes that step was going to write, those
  that `landed` names hold what it says, which may be any value (U46), and the others hold what they held -/
  | reset (hw : Option Dword) (landed : List ByteWrite)
  /-- `_Wait` holds the CPU: nothing changes (R72, R273) -/
  | wait
  /-- other bus masters write bytes of memory, in this order (R67, R246 e); only a platform that has such masters makes
  this move (`OTHER_MASTERS`, R7) -/
  | masters (writes : List ByteWrite)
deriving DecidableEq, Repr

/-- What a device on the bus can observe of a step, one entry an access (R58, R60, R72, R225). -/
inductive BusEvent where
  /-- a read of `bytes` bytes from `addr` on (R53) -/
  | read (why : Access) (addr : Dword) (bytes : Nat)
  /-- a write of the low `bytes` bytes of `value` from `addr` on (R54) -/
  | write (addr : Dword) (bytes : Nat) (value : Dword)
  /-- IACQ goes high and the CPU reads a hardware interrupt's message from the data bus (R225) -/
  | message (value : Dword)
  /-- IACQ goes low again at once: the interrupt was aborted (R228) -/
  | handshakeAborted
deriving DecidableEq, Repr

/-- The state of the machine. `regs`, `pc` and `sleeping` are the CPU's (R20, R28, R40); `mem`, `memMap` and
`otherMasters` are the platform's (R7, R53, R61); `env` is what the environment will do (R246); `tick` and `bus` are the
model's own. -/
structure State where
  /-- the register file (R20) -/
  regs : RegFile
  /-- the address of the next dword to be fetched (R28) -/
  pc : Dword
  /-- SLEEP has been executed and no interrupt has been taken since (R40) -/
  sleeping : Bool
  /-- the bytes of RAM and ROM (R53) -/
  mem : Memory
  /-- `MEMMAP` and the extent of `DEVICES` (R7); at an address in no region the platform has nothing (R61, D24); of two
  regions the first counts -/
  memMap : List Region
  /-- `OTHER_MASTERS`: whether agents other than this CPU write memory (R7) -/
  otherMasters : Bool
  /-- the environment's moves to come (R246) -/
  env : List EnvMove
  /-- the model's own: counts steps, so that the free bytes of one step say nothing about those of another -/
  tick : Nat
  /-- the model's own: what the last step did on the bus, in order; no step reads it -/
  bus : List BusEvent
deriving DecidableEq, Repr

/-- Why the machine stops. None of these is an architectural event (R220): no handler can observe one. -/
inductive Fault where
  /-- Raised by a step whose dword `ins` at `iaddr` is no instruction (R96, R97, R98, D4, D5). Safe: the source defines
  no continuation, the model gives none. -/
  | unrecognisedInstruction (iaddr ins : Dword)
  /-- Raised by a step whose `pc` is no multiple of 4 (R46, R56, D16). Safe: the source does not define such a fetch. -/
  | misalignedFetch (pc : Dword)
  /-- Raised by a failed IFxx at `iaddr` whose skip never ends, since its chain runs round the address space over
  conditional instructions only (R171, U15). Safe: the hardware is stuck inside that instruction for ever. -/
  | skipNeverEnds (iaddr : Dword)
deriving DecidableEq, Repr

/-- Why the model has no meaning for an instruction. -/
inductive Refusal where
  /-- Answered by `exec` for an instruction that has no meaning yet; no instruction of this model is left so. Safe. -/
  | notModelled (mnemonic : String)
deriving DecidableEq, Repr

/-- A `MEMMAP` that gives every address of the 32-bit space (R50) to RAM, address 0 among them as R64 asks. -/
def wholeSpaceRam : List Region := [{ base := 0, size := 2 ^ 32, kind := .ram }]

/-- Right after reset (R43, R260, R261): every register and `pc` 0, not sleeping. There are no other masters, the default
of R7. Memory lists nothing, the map gives every address to RAM, the environment is quiet, and the model's own fields are
0 and empty (log entries 1, 3, 4, 5, 6). -/
def State.reset : State :=
  { regs := RegFile.zero, pc := 0, sleeping := false, mem := [], memMap := wholeSpaceRam, otherMasters := false,
    env := [], tick := 0, bus := [] }

end Sys2Proof.Machine
end

