-- ==== Sys2Proof/Machine/Ops.lean ====
section
/-! DEFINITION. The named operations over registers, flags and memory: the one place where a register is read or
written, where the byte order is decided, where the memory map acts, where an interrupt is entered and left, and
where a skip runs. -/

namespace Sys2Proof.Machine

/-! ### Registers and flags -/

/-- `x[r]` (R11). No register is hard-wired (R22). -/
def RegFile.get (f : RegFile) : Reg → Dword
  | .r0 => f.r0
  | .r1 => f.r1
  | .r2 => f.r2
  | .r3 => f.r3
  | .r4 => f.r4
  | .r5 => f.r5
  | .r6 => f.r6
  | .r7 => f.r7
  | .r8 => f.r8
  | .r9 => f.r9
  | .r10 => f.r10
  | .y => f.y
  | .bp => f.bp
  | .sp => f.sp
  | .ia => f.ia
  | .flags => f.flags

/-- `x[r] <- v` (R11). -/
def RegFile.set (f : RegFile) (r : Reg) (v : Dword) : RegFile :=
  match r with
  | .r0 => { f with r0 := v }
  | .r1 => { f with r1 := v }
  | .r2 => { f with r2 := v }
  | .r3 => { f with r3 := v }
  | .r4 => { f with r4 := v }
  | .r5 => { f with r5 := v }
  | .r6 => { f with r6 := v }
  | .r7 => { f with r7 := v }
  | .r8 => { f with r8 := v }
  | .r9 => { f with r9 := v }
  | .r10 => { f with r10 := v }
  | .y => { f with y := v }
  | .bp => { f with bp := v }
  | .sp => { f with sp := v }
  | .ia => { f with ia := v }
  | .flags => { f with flags := v }

/-- The value of a register. -/
def State.reg (s : State) (r : Reg) : Dword := s.regs.get r

/-- A write of a register. Register 15 is plain storage like the others: all 32 bits are stored (R37, R38, D18). -/
def State.setReg (s : State) (r : Reg) (v : Dword) : State := { s with regs := s.regs.set r v }

/-- `pc <- t`. -/
def State.setPc (s : State) (t : Dword) : State := { s with pc := t }

/-- `sleeping <- b` (R40). -/
def State.setSleeping (s : State) (b : Bool) : State := { s with sleeping := b }

/-- One more entry of the bus record. -/
def State.log (s : State) (e : BusEvent) : State := { s with bus := s.bus ++ [e] }

/-- The fields of `%flags` (R30). -/
inductive Flag where
  /-- CF (R31) -/
  | carry
  /-- OF (R32) -/
  | overflow
  /-- DE (R33) -/
  | divError
  /-- IF, which is also the level of the IACQ output (R34, R39) -/
  | interrupt
  /-- EI (R35) -/
  | enable
  /-- ESS (R36) -/
  | singleStep
deriving DecidableEq, Repr

/-- The place of a field in `%flags` (R30). -/
def Flag.bit : Flag → Nat
  | .carry => 0
  | .overflow => 1
  | .divError => 2
  | .interrupt => 3
  | .enable => 8
  | .singleStep => 9

/-- `v` with bit `i` made `b` and every other bit kept. -/
def setBit (v : Dword) (i : Nat) (b : Bool) : Dword :=
  if b then v ||| BitVec.twoPow 32 i else v &&& ~~~(BitVec.twoPow 32 i)

/-- One named bit of `x[15]` (R11). -/
def State.flag (s : State) (f : Flag) : Bool := (s.reg .flags).getLsbD f.bit

/-- Write one named bit of `x[15]`, leaving its other bits (R11). -/
def State.setFlag (s : State) (f : Flag) (b : Bool) : State := s.setReg .flags (setBit (s.reg .flags) f.bit b)

/-- The level of the IACQ output between steps: high exactly when IF is 1 (R39, D18). -/
def State.iacq (s : State) : Bool := s.flag .interrupt

/-! ### Memory -/

/-- What an unlisted address reads as: the power-up contents, which the spec leaves to the platform (R43, U22).
DESIGN CHOICE, unsafe (log entry 1). -/
def Memory.unlisted : Byte := 0

/-- The byte stored at an address. -/
def Memory.read : Memory → Nat → Byte
  | [], _ => Memory.unlisted
  | c :: m, a => if c.1 = a then c.2 else Memory.read m a

/-- Put an entry where its address belongs. -/
def Memory.insert : Memory → Nat → Byte → Memory
  | [], a, b => [(a, b)]
  | c :: m, a, b => if a < c.1 then (a, b) :: c :: m else c :: Memory.insert m a b

/-- Store a byte, keeping the canonical form: a byte equal to what an unlisted address reads as is not listed. -/
def Memory.write (m : Memory) (a : Nat) (b : Byte) : Memory :=
  let others := m.filter (fun c => c.1 != a)
  if b = Memory.unlisted then others else Memory.insert others a b

/-- The canonical form: addresses strictly rising and inside the 32-bit space (R50), no entry that an unlisted address
would read as. -/
abbrev Memory.wf (m : Memory) : Prop :=
  m.Pairwise (fun c d => c.1 < d.1) ∧ ∀ c ∈ m, c.2 ≠ Memory.unlisted ∧ c.1 < 2 ^ 32

/-- What a memory map puts at an address: what the first region that holds it says; where the map is silent, nothing
(R61, D24). -/
def regionAt : List Region → Nat → RegionKind
  | [], _ => .absent
  | r :: rs, a => if r.base ≤ a ∧ a < r.base + r.size then r.kind else regionAt rs a

/-- What the platform has at an address (R61). -/
def State.kindAt (s : State) (a : Dword) : RegionKind := regionAt s.memMap a.toNat

/-- `B[i]` of R53: the stored byte of RAM or ROM; of a device or of nothing, any value (R61, U16, U18). -/
def State.readByte (s : State) (why : Access) (a : Dword) : Byte :=
  if (s.kindAt a).stored then s.mem.read a.toNat else Config.freeByte s.tick why a

/-- `MemRead(a, 2)`, little-endian at any alignment, addresses modulo 2^32 (R51, R53, R55, R57). -/
def State.readWord (s : State) (why : Access) (a : Dword) : Word :=
  s.readByte why (a + 1) ++ s.readByte why a

/-- `MemRead(a, 4)`, little-endian at any alignment, addresses modulo 2^32 (R51, R53, R55, R57). -/
def State.readDword (s : State) (why : Access) (a : Dword) : Dword :=
  dwordOfBytes (s.readByte why a) (s.readByte why (a + 1)) (s.readByte why (a + 2)) (s.readByte why (a + 3))

/-- The store of one byte: in RAM it is stored; to ROM, a device or nothing it changes no memory (R54, R61, U17, U18). -/
def State.writeByte (s : State) (a : Dword) (b : Byte) : State :=
  if (s.kindAt a).writable then { s with mem := s.mem.write a.toNat b } else s

/-- The store of bytes at ascending addresses modulo 2^32 (R54, R57). -/
def State.writeBytes (s : State) (a : Dword) : List Byte → State
  | [] => s
  | b :: bs => (s.writeByte a b).writeBytes (a + 1) bs

/-- Single bytes stored one after the other, each where RAM holds it. -/
def State.writeCells (s : State) : List ByteWrite → State
  | [] => s
  | c :: cs => (s.writeByte c.1 c.2).writeCells cs

/-- `MemWrite(a, 1, v)` as one access on the bus (R54, R60). -/
def State.storeByte (s : State) (a v : Dword) : State :=
  (s.writeBytes a ((bytesOfDword v).take 1)).log (.write a 1 v)

/-- `MemWrite(a, 2, v)` as one access on the bus (R54, R60). -/
def State.storeWord (s : State) (a v : Dword) : State :=
  (s.writeBytes a ((bytesOfDword v).take 2)).log (.write a 2 v)

/-- `MemWrite(a, 4, v)` as one access on the bus (R54, R60). -/
def State.storeDword (s : State) (a v : Dword) : State :=
  (s.writeBytes a (bytesOfDword v)).log (.write a 4 v)

/-! ### The stack -/

/-- `Push(v)`: `%sp` goes down by 4, then the dword is written at the new `%sp` (R11, R202, D2). -/
def State.push (s : State) (v : Dword) : State :=
  (s.setReg .sp (s.reg .sp - 4)).storeDword (s.reg .sp - 4) v

/-- The value `Pop()` results in: the dword at `%sp` (R202). -/
def State.popped (s : State) : Dword := s.readDword .stack (s.reg .sp)

/-- The rest of `Pop()`: the dword at `%sp` is read, then `%sp` goes up by 4 (R202, D2). -/
def State.pop (s : State) : State :=
  (s.log (.read .stack (s.reg .sp) 4)).setReg .sp (s.reg .sp + 4)

/-! ### Interrupts: entry and return -/

/-- The acceptance condition for an interrupt of any source: EI = 1 and IF = 0 (R223). -/
def State.acceptsInterrupt (s : State) : Bool := s.flag .enable && !s.flag .interrupt

/-- The address of a message's vector-table entry: `%ia + 4 * msg[7:0]` modulo 2^32 (R222, R227, D26). -/
def State.vectorAddress (s : State) (msg : Dword) : Dword := s.reg .ia + 4 * (msg.extractLsb' 0 8).setWidth 32

/-- The handler's address: the vector-table entry, read anew at each interrupt (R227). -/
def State.handler (s : State) (source : Source) (msg : Dword) : Dword :=
  s.readDword (.vector source) (s.vectorAddress msg)

/-- The bus record of an entry up to the vector read: a hardware message is read from the data bus first (R225). -/
def State.readVector (s : State) (source : Source) (msg : Dword) : State :=
  match source with
  | .hardware => (s.log (.message msg)).log (.read (.vector .hardware) (s.vectorAddress msg) 4)
  | .software => s.log (.read (.vector .software) (s.vectorAddress msg) 4)
  | .singleStep => s.log (.read (.vector .singleStep) (s.vectorAddress msg) 4)

/-- An aborted entry: nothing more happens, but that a hardware handshake ends at once (R228, D20). -/
def State.abortInterrupt (s : State) (source : Source) : State :=
  match source with
  | .hardware => s.log .handshakeAborted
  | .software => s
  | .singleStep => s

/-- Enter the handler at `vec`: push `%r0`, push `pc`, `%r0 <- msg`, `pc <- vec`, IF <- 1, wake (R226). The other bits of
`%flags` are neither changed nor saved; IACQ goes high with IF (R39). -/
def State.enterHandler (s : State) (msg vec : Dword) : State :=
  (((((s.push (s.reg .r0)).push s.pc).setReg .r0 msg).setPc vec).setFlag .interrupt true).setSleeping false

/-- `TakeInterrupt(msg)`, the one entry sequence of all three sources (R226), with `pc` already the address of the next
instruction to execute. Nothing happens unless the interrupt is accepted (R223); a zero entry aborts it (R228). -/
def State.takeInterrupt (s : State) (source : Source) (msg : Dword) : State :=
  if s.acceptsInterrupt then
    if s.handler source msg = 0 then (s.readVector source msg).abortInterrupt source
    else (s.readVector source msg).enterHandler msg (s.handler source msg)
  else s

/-- The return from an interrupt: pop `pc`, pop `%r0`, IF <- 0, and IACQ goes low with it (R208, R235). -/
def State.returnFromInterrupt (s : State) : State :=
  (((s.pop.pop).setPc s.popped).setReg .r0 s.pop.popped).setFlag .interrupt false

/-! ### The skip -/

/-- How many dwords a skip looks at before it has visited some address twice: the addresses move in steps of 4 through
2^32 bytes, so a skip that has not ended after 2^30 never ends. -/
def skipFuel : Nat := 2 ^ 30

/-- The first dword of an instruction that a skip passes over (R171). -/
def State.skippedWord (s : State) (a : Dword) : Dword := s.readDword .skip a

/-- Where the instruction after the one at `a` stands, by that one's first dword alone (R91, R171). -/
def State.skipOne (s : State) (a : Dword) : Dword := if hasLiteral (s.skippedWord a) then a + 8 else a + 4

/-- The skip of R171 from address `a` on: the addresses of the dwords it reads and the address it ends at, or nothing
where `fuel` instructions were all conditional. -/
def State.skipFrom (s : State) : Nat → Dword → Option (List Dword × Dword)
  | 0, _ => none
  | fuel + 1, a =>
    if isConditional (s.skippedWord a) then
      match State.skipFrom s fuel (s.skipOne a) with
      | some (visited, target) => some (a :: visited, target)
      | none => none
    else some ([a], s.skipOne a)

/-- The reads of a skip on the bus: each skipped instruction's first dword once, in order (R60, R171). -/
def State.logSkipped (s : State) (visited : List Dword) : State :=
  { s with bus := s.bus ++ visited.map (fun a => .read .skip a 4) }

end Sys2Proof.Machine
end

