-- ==== Sys2Proof/Machine/Operands.lean ====
section
/-! DEFINITION. The operand forms: the value of Rn (30_encoding.md R90), the address of the next instruction (10_state.md
R29), and the effective addresses (40_ram.md R122). A meaning receives the state with `pc` still at `iaddr`, the address
the instruction was fetched from; the address after the whole instruction, `npc`, is computed here. -/

namespace Sys2Proof.Machine

/-- `opn`: the register's value, the sign-extended number, or the literal (R90). -/
def State.opn (s : State) (rn : Operand) : Dword :=
  match rn with
  | .reg r => s.reg r
  | .imm v => v
  | .lit v => v

/-- How many bytes an instruction with this Rn occupies: 8 with a literal, else 4 (R80). -/
def operandSize : Operand → Dword
  | .reg _ => 4
  | .imm _ => 4
  | .lit _ => 8

/-- `npc` of an instruction with this Rn fetched at the state's `pc` (R29). -/
def State.npc (s : State) (rn : Operand) : Dword := s.pc + operandSize rn

/-- `pc <- npc`. -/
def State.advance (s : State) (rn : Operand) : State := s.setPc (s.npc rn)

/-- `pc <- npc` of an instruction that never has a literal. -/
def State.advance4 (s : State) : State := s.setPc (s.pc + 4)

/-- The effective address of the indexed form, `x[rs] + opn` modulo 2^32 (R122). -/
def State.indexed (s : State) (rs : Reg) (rn : Operand) : Dword := s.reg rs + s.opn rn

/-- The effective address of the direct form, `opn` (R122). -/
def State.direct (s : State) (rn : Operand) : Dword := s.opn rn

/-- A target with its two low bits cleared (R192). -/
def alignTarget (t : Dword) : Dword := t &&& 0xFFFFFFFC

end Sys2Proof.Machine
end

