-- ==== Sys2Proof/Machine/Flags.lean ====
section
/-! DEFINITION. Every flag computation the spec gives: CF and OF of additions (42_alu.md R158) and subtractions (R159), CF of
the three shifts (R145 to R147, R164), DE of divisions (R33, R166). Operands are read as integers, the exact result is
computed, and the flag compares it with what 32 bits hold. -/

namespace Sys2Proof.Machine

/-- A carry or borrow as the number it adds. -/
def carryIn (c : Bool) : Nat := if c then 1 else 0

/-- The sign bit. -/
def signBit (v : Dword) : Bool := v.getLsbD 31

/-- `(a + b + cin) mod 2^32` (R158). -/
def addResult (a b : Dword) (cin : Bool) : Dword := BitVec.ofNat 32 (a.toNat + b.toNat + carryIn cin)

/-- CF of an addition: the sum as an integer does not fit 32 bits (R158). -/
def addCarry (a b : Dword) (cin : Bool) : Bool := decide (2 ^ 32 ≤ a.toNat + b.toNat + carryIn cin)

/-- OF of an addition: equal operand signs and another sign of the result (R32, R158). -/
def addOverflow (a b r : Dword) : Bool := signBit a == signBit b && signBit r != signBit a

/-- `(m - t - bin) mod 2^32` for minuend `m` and subtrahend `t` (R159). -/
def subResult (m t : Dword) (bin : Bool) : Dword := BitVec.ofInt 32 ((m.toNat : Int) - t.toNat - carryIn bin)

/-- CF of a subtraction: it borrowed (R159). -/
def subBorrow (m t : Dword) (bin : Bool) : Bool := decide (m.toNat < t.toNat + carryIn bin)

/-- OF of a subtraction: different operand signs and a result whose sign is not the minuend's (R32, R159). -/
def subOverflow (m t r : Dword) : Bool := signBit m != signBit t && signBit r != signBit m

/-- Write CF and OF, leaving the other bits of `%flags`. -/
def State.setCarryOverflow (s : State) (c o : Bool) : State := (s.setFlag .carry c).setFlag .overflow o

/-- The result of LLS by `n` (R145). -/
def llsResult (a : Dword) (n : Nat) : Dword := if n ≤ 32 then a <<< n else 0

/-- CF of LLS by `n`: the last bit shifted out, 0 where there is none (R145, R164). -/
def llsCarry (a : Dword) (n : Nat) : Bool := if 1 ≤ n ∧ n ≤ 32 then a.getLsbD (32 - n) else false

/-- The result of LRS by `n` (R146). -/
def lrsResult (a : Dword) (n : Nat) : Dword := if n ≤ 32 then a >>> n else 0

/-- CF of LRS by `n` (R146, R164). -/
def lrsCarry (a : Dword) (n : Nat) : Bool := if 1 ≤ n ∧ n ≤ 32 then a.getLsbD (n - 1) else false

/-- The result of ARS by `n`: copies of the sign enter at the top; 32 or more leave 32 copies (R147). -/
def arsResult (a : Dword) (n : Nat) : Dword :=
  if n ≤ 31 then a.sshiftRight n else if signBit a then BitVec.allOnes 32 else 0

/-- CF of ARS by `n`: the last bit shifted out, the sign from 32 on, 0 for 0 (R147, R164). -/
def arsCarry (a : Dword) (n : Nat) : Bool :=
  if n = 0 then false else if n ≤ 31 then a.getLsbD (n - 1) else signBit a

end Sys2Proof.Machine
end

