-- ==== Sys2Proof/Machine/Ram.lean ====
section
/-! DEFINITION. The twelve RAM encodings (40_ram.md): indexed form P3 with address `Rs + Rn`, direct form P2 with address
`Rn`. Narrow loads zero-extend (R123, D6); narrow stores write their 1 or 2 bytes only (R124). No flag is read or
written (R125). -/

namespace Sys2Proof.Machine

/-- What a meaning answers. -/
abbrev Result := Host.Outcome State Fault Refusal

/-- `x[rd] <- MemRead(ea, 4); pc <- npc`. -/
def State.load (s : State) (rd : Reg) (ea : Dword) (rn : Operand) : State :=
  ((s.log (.read .data ea 4)).setReg rd (s.readDword .data ea)).advance rn

/-- `x[rd] <- zext_16(MemRead(ea, 2)); pc <- npc`. -/
def State.loadw (s : State) (rd : Reg) (ea : Dword) (rn : Operand) : State :=
  ((s.log (.read .data ea 2)).setReg rd ((s.readWord .data ea).setWidth 32)).advance rn

/-- `x[rd] <- zext_8(MemRead(ea, 1)); pc <- npc`. -/
def State.loadb (s : State) (rd : Reg) (ea : Dword) (rn : Operand) : State :=
  ((s.log (.read .data ea 1)).setReg rd ((s.readByte .data ea).setWidth 32)).advance rn

/-- LOAD, indexed (R110). -/
def execLoadP3 (rd rs : Reg) (rn : Operand) (s : State) : Result := .next (s.load rd (s.indexed rs rn) rn)

/-- LOADW, indexed (R111). -/
def execLoadwP3 (rd rs : Reg) (rn : Operand) (s : State) : Result := .next (s.loadw rd (s.indexed rs rn) rn)

/-- LOADB, indexed (R112). -/
def execLoadbP3 (rd rs : Reg) (rn : Operand) (s : State) : Result := .next (s.loadb rd (s.indexed rs rn) rn)

/-- STORE, indexed (R113). -/
def execStoreP3 (rd rs : Reg) (rn : Operand) (s : State) : Result :=
  .next ((s.storeDword (s.indexed rs rn) (s.reg rd)).advance rn)

/-- STOREW, indexed (R114). -/
def execStorewP3 (rd rs : Reg) (rn : Operand) (s : State) : Result :=
  .next ((s.storeWord (s.indexed rs rn) (s.reg rd)).advance rn)

/-- STOREB, indexed (R115). -/
def execStorebP3 (rd rs : Reg) (rn : Operand) (s : State) : Result :=
  .next ((s.storeByte (s.indexed rs rn) (s.reg rd)).advance rn)

/-- LOAD, direct (R116). -/
def execLoadP2 (rd : Reg) (rn : Operand) (s : State) : Result := .next (s.load rd (s.direct rn) rn)

/-- LOADW, direct (R117). -/
def execLoadwP2 (rd : Reg) (rn : Operand) (s : State) : Result := .next (s.loadw rd (s.direct rn) rn)

/-- LOADB, direct (R118). -/
def execLoadbP2 (rd : Reg) (rn : Operand) (s : State) : Result := .next (s.loadb rd (s.direct rn) rn)

/-- STORE, direct (R119). -/
def execStoreP2 (rd : Reg) (rn : Operand) (s : State) : Result :=
  .next ((s.storeDword (s.direct rn) (s.reg rd)).advance rn)

/-- STOREW, direct (R120). -/
def execStorewP2 (rd : Reg) (rn : Operand) (s : State) : Result :=
  .next ((s.storeWord (s.direct rn) (s.reg rd)).advance rn)

/-- STOREB, direct (R121). -/
def execStorebP2 (rd : Reg) (rn : Operand) (s : State) : Result :=
  .next ((s.storeByte (s.direct rn) (s.reg rd)).advance rn)

end Sys2Proof.Machine
end

