-- ==== Sys2Proof/Machine/Register.lean ====
section
/-! DEFINITION. Register manipulation (41_register.md): MOV, SWP, SIGXB, SIGXW, XCHGW, XCHGB, GETPC. No memory, no flag. -/

namespace Sys2Proof.Machine

/-- `x[rd] <- v; pc <- npc`: the shape of every instruction that computes one register. -/
def State.retire (s : State) (rd : Reg) (v : Dword) (rn : Operand) : State := (s.setReg rd v).advance rn

/-- MOV (R130); with both operands `%r0` it is NOP (R205). -/
def execMov (rd : Reg) (rn : Operand) (s : State) : Result := .next (s.retire rd (s.opn rn) rn)

/-- SWP (R131): both registers are read before either is written. -/
def execSwp (rd rn : Reg) (s : State) : Result :=
  .next (((s.setReg rd (s.reg rn)).setReg rn (s.reg rd)).advance4)

/-- SIGXB (R132, D14). -/
def execSigxb (rd : Reg) (rn : Operand) (s : State) : Result :=
  .next (s.retire rd (((s.opn rn).extractLsb' 0 8).signExtend 32) rn)

/-- SIGXW (R133, D14). -/
def execSigxw (rd : Reg) (rn : Operand) (s : State) : Result :=
  .next (s.retire rd (((s.opn rn).extractLsb' 0 16).signExtend 32) rn)

/-- `v[15:0] ++ v[31:16]` (R134). -/
def swapWords (v : Dword) : Dword := v.extractLsb' 0 16 ++ v.extractLsb' 16 16

/-- `v[31:16] ++ v[7:0] ++ v[15:8]` (R135). -/
def swapLowBytes (v : Dword) : Dword := v.extractLsb' 16 16 ++ v.extractLsb' 0 8 ++ v.extractLsb' 8 8

/-- XCHGW (R134). -/
def execXchgw (rn : Reg) (s : State) : Result := .next ((s.setReg rn (swapWords (s.reg rn))).advance4)

/-- XCHGB (R135). -/
def execXchgb (rn : Reg) (s : State) : Result := .next ((s.setReg rn (swapLowBytes (s.reg rn))).advance4)

/-- GETPC (R137, D15): `iaddr + 4`. -/
def execGetpc (rn : Reg) (s : State) : Result := .next ((s.setReg rn (s.pc + 4)).advance4)

end Sys2Proof.Machine
end

