-- ==== Sys2Proof/Machine/Alu.lean ====
section
/-! DEFINITION. The twenty ALU instructions (42_alu.md). `a = x[rs]` and `b = opn` are read before anything is written; a
flag is written before the result (R38, R165, D17); the `%y` write of a product or a division comes last (R165). -/

namespace Sys2Proof.Machine

/-- NOT (R140). -/
def execNot (rd : Reg) (rn : Operand) (s : State) : Result := .next (s.retire rd (~~~(s.opn rn)) rn)

/-- AND (R141). -/
def execAnd (rd rs : Reg) (rn : Operand) (s : State) : Result :=
  .next (s.retire rd (s.reg rs &&& s.opn rn) rn)

/-- OR (R142). -/
def execOr (rd rs : Reg) (rn : Operand) (s : State) : Result :=
  .next (s.retire rd (s.reg rs ||| s.opn rn) rn)

/-- XOR (R143). -/
def execXor (rd rs : Reg) (rn : Operand) (s : State) : Result :=
  .next (s.retire rd (s.reg rs ^^^ s.opn rn) rn)

/-- BITC (R144). -/
def execBitc (rd rs : Reg) (rn : Operand) (s : State) : Result :=
  .next (s.retire rd (s.reg rs &&& ~~~(s.opn rn)) rn)

/-- CF written, then `x[rd] <- r`, then `pc <- npc`: the three shifts. -/
def State.retireShift (s : State) (rd : Reg) (r : Dword) (c : Bool) (rn : Operand) : State :=
  (s.setFlag .carry c).retire rd r rn

/-- LLS (R145, R164, D10). -/
def execLls (rd rs : Reg) (rn : Operand) (s : State) : Result :=
  .next (s.retireShift rd (llsResult (s.reg rs) (s.opn rn).toNat)
    (llsCarry (s.reg rs) (s.opn rn).toNat) rn)

/-- LRS (R146, R164, D10). -/
def execLrs (rd rs : Reg) (rn : Operand) (s : State) : Result :=
  .next (s.retireShift rd (lrsResult (s.reg rs) (s.opn rn).toNat)
    (lrsCarry (s.reg rs) (s.opn rn).toNat) rn)

/-- ARS (R147, R164, D10). -/
def execArs (rd rs : Reg) (rn : Operand) (s : State) : Result :=
  .next (s.retireShift rd (arsResult (s.reg rs) (s.opn rn).toNat)
    (arsCarry (s.reg rs) (s.opn rn).toNat) rn)

/-- ROTL (R148): by the amount modulo 32, no flag. -/
def execRotl (rd rs : Reg) (rn : Operand) (s : State) : Result :=
  .next (s.retire rd ((s.reg rs).rotateLeft ((s.opn rn).toNat % 32)) rn)

/-- ROTR (R149): by the amount modulo 32, no flag. -/
def execRotr (rd rs : Reg) (rn : Operand) (s : State) : Result :=
  .next (s.retire rd ((s.reg rs).rotateRight ((s.opn rn).toNat % 32)) rn)

/-- `a + b + cin` with CF and OF by R158, then `x[rd]`, then `pc`. -/
def State.retireAdd (s : State) (rd : Reg) (a b : Dword) (cin : Bool) (rn : Operand) : State :=
  (s.setCarryOverflow (addCarry a b cin) (addOverflow a b (addResult a b cin))).retire rd (addResult a b cin) rn

/-- `m - t - bin` with CF and OF by R159, then `x[rd]`, then `pc`. -/
def State.retireSub (s : State) (rd : Reg) (m t : Dword) (bin : Bool) (rn : Operand) : State :=
  (s.setCarryOverflow (subBorrow m t bin) (subOverflow m t (subResult m t bin))).retire rd (subResult m t bin) rn

/-- ADD (R150). -/
def execAdd (rd rs : Reg) (rn : Operand) (s : State) : Result :=
  .next (s.retireAdd rd (s.reg rs) (s.opn rn) false rn)

/-- ADDC (R151): the old CF is added. -/
def execAddc (rd rs : Reg) (rn : Operand) (s : State) : Result :=
  .next (s.retireAdd rd (s.reg rs) (s.opn rn) (s.flag .carry) rn)

/-- SUB (R152): Rs is the minuend. -/
def execSub (rd rs : Reg) (rn : Operand) (s : State) : Result :=
  .next (s.retireSub rd (s.reg rs) (s.opn rn) false rn)

/-- SUBB (R153): the old CF is the incoming borrow. -/
def execSubb (rd rs : Reg) (rn : Operand) (s : State) : Result :=
  .next (s.retireSub rd (s.reg rs) (s.opn rn) (s.flag .carry) rn)

/-- RSB (R154): Rn is the minuend. -/
def execRsb (rd rs : Reg) (rn : Operand) (s : State) : Result :=
  .next (s.retireSub rd (s.opn rn) (s.reg rs) false rn)

/-- RSBB (R155): Rn is the minuend, the old CF the incoming borrow. -/
def execRsbb (rd rs : Reg) (rn : Operand) (s : State) : Result :=
  .next (s.retireSub rd (s.opn rn) (s.reg rs) (s.flag .carry) rn)

/-- The 64-bit product of the operands read as unsigned integers (R160). -/
def unsignedProduct (a b : Dword) : BitVec 64 := BitVec.ofNat 64 (a.toNat * b.toNat)

/-- The 64-bit product of the operands read as signed integers (R161). -/
def signedProduct (a b : Dword) : BitVec 64 := BitVec.ofInt 64 (a.toInt * b.toInt)

/-- `x[rd] <- p[31:0]; x[11] <- p[63:32]; pc <- npc`: the high half last (R165). -/
def State.retireProduct (s : State) (rd : Reg) (p : BitVec 64) (rn : Operand) : State :=
  ((s.setReg rd (p.extractLsb' 0 32)).setReg .y (p.extractLsb' 32 32)).advance rn

/-- MUL (R160): no flag. -/
def execMul (rd rs : Reg) (rn : Operand) (s : State) : Result :=
  .next (s.retireProduct rd (unsignedProduct (s.reg rs) (s.opn rn)) rn)

/-- SMUL (R161): no flag. -/
def execSmul (rd rs : Reg) (rn : Operand) (s : State) : Result :=
  .next (s.retireProduct rd (signedProduct (s.reg rs) (s.opn rn)) rn)

/-- The unsigned quotient (R162). -/
def unsignedQuotient (a b : Dword) : Dword := BitVec.ofNat 32 (a.toNat / b.toNat)

/-- The unsigned remainder (R162). -/
def unsignedRemainder (a b : Dword) : Dword := BitVec.ofNat 32 (a.toNat % b.toNat)

/-- The signed quotient, rounded toward zero and wrapped to 32 bits (R163, R166, D13). -/
def signedQuotient (a b : Dword) : Dword := BitVec.ofInt 32 (a.toInt.tdiv b.toInt)

/-- The signed remainder, with the sign of the dividend (R163, R166, D13). -/
def signedRemainder (a b : Dword) : Dword := BitVec.ofInt 32 (a.toInt - a.toInt.tdiv b.toInt * b.toInt)

/-- A division: by zero, DE <- 1 and nothing else is written; else DE <- 0, `x[rd] <- q`, `x[11] <- rem`, the remainder
last (R162, R163, R165, R166). -/
def State.retireDivision (s : State) (rd : Reg) (b q rem : Dword) (rn : Operand) : State :=
  if b = 0 then (s.setFlag .divError true).advance rn
  else (((s.setFlag .divError false).setReg rd q).setReg .y rem).advance rn

/-- DIV (R162). -/
def execDiv (rd rs : Reg) (rn : Operand) (s : State) : Result :=
  .next (s.retireDivision rd (s.opn rn) (unsignedQuotient (s.reg rs) (s.opn rn))
    (unsignedRemainder (s.reg rs) (s.opn rn)) rn)

/-- SDIV (R163). -/
def execSdiv (rd rs : Reg) (rn : Operand) (s : State) : Result :=
  .next (s.retireDivision rd (s.opn rn) (signedQuotient (s.reg rs) (s.opn rn))
    (signedRemainder (s.reg rs) (s.opn rn)) rn)

end Sys2Proof.Machine
end

