-- ==== Sys2Proof/Machine/Skip.lean ====
section
/-! DEFINITION. The eight IFxx instructions (43_skip.md): the test on `x[rd]` and `opn`, and the skip of R171 where it
fails, all of it inside the instruction. No flag, no register, no data memory (R170, R181). -/

namespace Sys2Proof.Machine

/-- `if holds then pc <- npc else Skip` (R170, R171). A skip that never ends leaves no next state: the machine is stuck
inside the instruction (log entry 7). -/
def State.executeIf (s : State) (holds : Bool) (rn : Operand) : Result :=
  if holds then .next (s.advance rn)
  else
    match s.skipFrom skipFuel (s.npc rn) with
    | some (visited, target) => .next ((s.logSkipped visited).setPc target)
    | none => .fault (.skipNeverEnds s.pc)

/-- IFEQ (R172). -/
def execIfeq (rd : Reg) (rn : Operand) (s : State) : Result := s.executeIf (s.reg rd == s.opn rn) rn

/-- IFNEQ (R173). -/
def execIfneq (rd : Reg) (rn : Operand) (s : State) : Result := s.executeIf (s.reg rd != s.opn rn) rn

/-- IFL, unsigned (R174). -/
def execIfl (rd : Reg) (rn : Operand) (s : State) : Result :=
  s.executeIf (decide ((s.reg rd).toNat < (s.opn rn).toNat)) rn

/-- IFSL, signed (R175). -/
def execIfsl (rd : Reg) (rn : Operand) (s : State) : Result :=
  s.executeIf (decide ((s.reg rd).toInt < (s.opn rn).toInt)) rn

/-- IFLE, unsigned (R176). -/
def execIfle (rd : Reg) (rn : Operand) (s : State) : Result :=
  s.executeIf (decide ((s.reg rd).toNat ≤ (s.opn rn).toNat)) rn

/-- IFSLE, signed (R177). -/
def execIfsle (rd : Reg) (rn : Operand) (s : State) : Result :=
  s.executeIf (decide ((s.reg rd).toInt ≤ (s.opn rn).toInt)) rn

/-- IFBITS (R178). -/
def execIfbits (rd : Reg) (rn : Operand) (s : State) : Result :=
  s.executeIf ((s.reg rd &&& s.opn rn) != 0) rn

/-- IFCLEAR (R179). -/
def execIfclear (rd : Reg) (rn : Operand) (s : State) : Result :=
  s.executeIf ((s.reg rd &&& s.opn rn) == 0) rn

end Sys2Proof.Machine
end

