-- ==== Sys2Proof/Machine/Jump.lean ====
section
/-! DEFINITION. Jumps, calls and return (44_jump_call.md). A target is computed from the operands as they are before
anything is pushed (R194) and its two low bits are cleared (R192); a call pushes `npc` (R193, D15); RET loads what it
pops unmasked (R191, D16). -/

namespace Sys2Proof.Machine

/-- `Push(npc); pc <- t` (R193, R194). -/
def State.call (s : State) (target : Dword) (rn : Operand) : State := (s.push (s.npc rn)).setPc target

/-- JMP, two operands (R185). -/
def execJmpP2 (rd : Reg) (rn : Operand) (s : State) : Result :=
  .next (s.setPc (alignTarget (s.reg rd + s.opn rn)))

/-- CALL, two operands (R186). -/
def execCallP2 (rd : Reg) (rn : Operand) (s : State) : Result :=
  .next (s.call (alignTarget (s.reg rd + s.opn rn)) rn)

/-- JMP, one operand, absolute (R187, C11). -/
def execJmpP1 (rn : Operand) (s : State) : Result := .next (s.setPc (alignTarget (s.opn rn)))

/-- CALL, one operand, absolute (R188). -/
def execCallP1 (rn : Operand) (s : State) : Result := .next (s.call (alignTarget (s.opn rn)) rn)

/-- RJMP, relative to `npc` (R189, D15). -/
def execRjmp (rn : Operand) (s : State) : Result :=
  .next (s.setPc (alignTarget (s.npc rn + s.opn rn)))

/-- RCALL, relative to `npc` (R190, D15). -/
def execRcall (rn : Operand) (s : State) : Result :=
  .next (s.call (alignTarget (s.npc rn + s.opn rn)) rn)

/-- RET (R191). -/
def execRet (s : State) : Result := .next (s.pop.setPc s.popped)

end Sys2Proof.Machine
end

