-- ==== Sys2Proof/Machine/Stack.lean ====
section
/-! DEFINITION. PUSH and POP (45_stack.md). -/

namespace Sys2Proof.Machine

/-- PUSH (R200): the register is read before `%sp` moves, so `PUSH %sp` stores the old `%sp` (D17). -/
def execPush (rn : Reg) (s : State) : Result := .next ((s.push (s.reg rn)).advance4)

/-- POP (R201): the register is written after `%sp` has moved, so `POP %sp` ends with the value read (D17). -/
def execPop (rn : Reg) (s : State) : Result := .next ((s.pop.setReg rn s.popped).advance4)

end Sys2Proof.Machine
end

