-- ==== Sys2Proof/Machine/Special.lean ====
section
/-! DEFINITION. SLEEP, INT and RFI (46_special_interrupt.md). -/

namespace Sys2Proof.Machine

/-- SLEEP (R206): `pc <- npc; sleeping <- 1`. -/
def execSleep (s : State) : Result := .next (s.advance4.setSleeping true)

/-- INT (R207): `pc <- npc`, then the entry sequence with the operand as the message; where it is not accepted, or its
vector entry is zero, nothing more happens (R228, R229). -/
def execInt (rn : Operand) (s : State) : Result :=
  .next ((s.advance rn).takeInterrupt .software (s.opn rn))

/-- RFI (R208, R235, D25). -/
def execRfi (s : State) : Result := .next s.returnFromInterrupt

end Sys2Proof.Machine
end

