-- ==== Sys2Proof/Machine/Dispatch.lean ====
section
/-! DEFINITION. The dispatch of every instruction to its meaning. -/

namespace Sys2Proof.Machine

-- One arm for each row of spec/opcode_table.json.
def exec (i : Instr) (s : State) : Host.Outcome State Fault Refusal :=
  match i with
  | .and rd rs rn => Sys2Proof.Machine.execAnd rd rs rn s
  | .or rd rs rn => Sys2Proof.Machine.execOr rd rs rn s
  | .xor rd rs rn => Sys2Proof.Machine.execXor rd rs rn s
  | .bitc rd rs rn => Sys2Proof.Machine.execBitc rd rs rn s
  | .add rd rs rn => Sys2Proof.Machine.execAdd rd rs rn s
  | .addc rd rs rn => Sys2Proof.Machine.execAddc rd rs rn s
  | .sub rd rs rn => Sys2Proof.Machine.execSub rd rs rn s
  | .subb rd rs rn => Sys2Proof.Machine.execSubb rd rs rn s
  | .rsb rd rs rn => Sys2Proof.Machine.execRsb rd rs rn s
  | .rsbb rd rs rn => Sys2Proof.Machine.execRsbb rd rs rn s
  | .lls rd rs rn => Sys2Proof.Machine.execLls rd rs rn s
  | .lrs rd rs rn => Sys2Proof.Machine.execLrs rd rs rn s
  | .ars rd rs rn => Sys2Proof.Machine.execArs rd rs rn s
  | .rotl rd rs rn => Sys2Proof.Machine.execRotl rd rs rn s
  | .rotr rd rs rn => Sys2Proof.Machine.execRotr rd rs rn s
  | .mul rd rs rn => Sys2Proof.Machine.execMul rd rs rn s
  | .smul rd rs rn => Sys2Proof.Machine.execSmul rd rs rn s
  | .div rd rs rn => Sys2Proof.Machine.execDiv rd rs rn s
  | .sdiv rd rs rn => Sys2Proof.Machine.execSdiv rd rs rn s
  | .loadP3 rd rs rn => Sys2Proof.Machine.execLoadP3 rd rs rn s
  | .loadwP3 rd rs rn => Sys2Proof.Machine.execLoadwP3 rd rs rn s
  | .loadbP3 rd rs rn => Sys2Proof.Machine.execLoadbP3 rd rs rn s
  | .storeP3 rd rs rn => Sys2Proof.Machine.execStoreP3 rd rs rn s
  | .storewP3 rd rs rn => Sys2Proof.Machine.execStorewP3 rd rs rn s
  | .storebP3 rd rs rn => Sys2Proof.Machine.execStorebP3 rd rs rn s
  | .mov rd rn => Sys2Proof.Machine.execMov rd rn s
  | .swp rd rn => Sys2Proof.Machine.execSwp rd rn s
  | .not rd rn => Sys2Proof.Machine.execNot rd rn s
  | .sigxb rd rn => Sys2Proof.Machine.execSigxb rd rn s
  | .sigxw rd rn => Sys2Proof.Machine.execSigxw rd rn s
  | .loadP2 rd rn => Sys2Proof.Machine.execLoadP2 rd rn s
  | .loadwP2 rd rn => Sys2Proof.Machine.execLoadwP2 rd rn s
  | .loadbP2 rd rn => Sys2Proof.Machine.execLoadbP2 rd rn s
  | .storeP2 rd rn => Sys2Proof.Machine.execStoreP2 rd rn s
  | .storewP2 rd rn => Sys2Proof.Machine.execStorewP2 rd rn s
  | .storebP2 rd rn => Sys2Proof.Machine.execStorebP2 rd rn s
  | .ifeq rd rn => Sys2Proof.Machine.execIfeq rd rn s
  | .ifneq rd rn => Sys2Proof.Machine.execIfneq rd rn s
  | .ifl rd rn => Sys2Proof.Machine.execIfl rd rn s
  | .ifsl rd rn => Sys2Proof.Machine.execIfsl rd rn s
  | .ifle rd rn => Sys2Proof.Machine.execIfle rd rn s
  | .ifsle rd rn => Sys2Proof.Machine.execIfsle rd rn s
  | .ifbits rd rn => Sys2Proof.Machine.execIfbits rd rn s
  | .ifclear rd rn => Sys2Proof.Machine.execIfclear rd rn s
  | .jmpP2 rd rn => Sys2Proof.Machine.execJmpP2 rd rn s
  | .callP2 rd rn => Sys2Proof.Machine.execCallP2 rd rn s
  | .xchgb rn => Sys2Proof.Machine.execXchgb rn s
  | .xchgw rn => Sys2Proof.Machine.execXchgw rn s
  | .getpc rn => Sys2Proof.Machine.execGetpc rn s
  | .pop rn => Sys2Proof.Machine.execPop rn s
  | .push rn => Sys2Proof.Machine.execPush rn s
  | .jmpP1 rn => Sys2Proof.Machine.execJmpP1 rn s
  | .callP1 rn => Sys2Proof.Machine.execCallP1 rn s
  | .rjmp rn => Sys2Proof.Machine.execRjmp rn s
  | .rcall rn => Sys2Proof.Machine.execRcall rn s
  | .int rn => Sys2Proof.Machine.execInt rn s
  | .sleep => Sys2Proof.Machine.execSleep s
  | .ret => Sys2Proof.Machine.execRet s
  | .rfi => Sys2Proof.Machine.execRfi s

end Sys2Proof.Machine
end

