-- ==== Sys2Proof/Machine/Cycle.lean ====
section
/-! DEFINITION. One step of the CPU around `exec` (60_exceptions.md R245): the boundary where a hardware interrupt may be
accepted, the fetch, the single-step trap, the reset edge, and the writes of other bus masters. -/

namespace Sys2Proof.Machine

/-- `ins`: the dword at `pc` (R91 step 1). -/
def State.fetchedWord (s : State) : Dword := s.readDword .fetch s.pc

/-- `lit`: the dword after it, read only where the instruction has a literal (R91 step 4). -/
def State.fetchedLiteral (s : State) : Dword :=
  if hasLiteral s.fetchedWord then s.readDword .literal (s.pc + 4) else 0

/-- The bus record of a fetch: one read, or two (R58, R60, R91). -/
def State.logFetch (s : State) : State :=
  if hasLiteral s.fetchedWord then (s.log (.read .fetch s.pc 4)).log (.read .literal (s.pc + 4) 4)
  else s.log (.read .fetch s.pc 4)

/-- Whether the single-step trap is armed for the instruction about to execute: ESS = 1 and IF = 0, sampled before it
(R231, D19). -/
def State.trapArmed (s : State) : Bool := s.flag .singleStep && !s.flag .interrupt

/-- After an instruction: the single-step trap where it was armed, an interrupt with message 0 that passes the ordinary
acceptance test on the flags the instruction left (R230, R231). -/
def State.afterInstruction (t : State) (armed : Bool) : State :=
  if armed then t.takeInterrupt .singleStep 0 else t

/-- A boundary at which no hardware interrupt is accepted (R245 steps 2 to 6): a sleeping CPU does nothing; else one
instruction is fetched, decoded and executed, and the trap armed for it is raised. -/
def State.executeNext (s : State) : Result :=
  if s.sleeping then .next s
  else if s.pc.extractLsb' 0 2 ≠ 0 then .fault (.misalignedFetch s.pc)
  else
    match decodeDwords s.fetchedWord s.fetchedLiteral with
    | .error _ => .fault (.unrecognisedInstruction s.pc s.fetchedWord)
    | .ok i =>
      match exec i s.logFetch with
      | .next t => .next (t.afterInstruction s.trapArmed)
      | .fault r => .fault r
      | .refused r => .refused r

/-- `Step(hw)` (R245): an offered message is accepted where EI = 1 and IF = 0, and that is the whole step; an offer that
is not accepted changes nothing (R223 to R225, R232). -/
def State.boundary (s : State) (hw : Option Dword) : Result :=
  match hw with
  | none => s.executeNext
  | some msg => if s.acceptsInterrupt then .next (s.takeInterrupt .hardware msg) else s.executeNext

/-- The addresses of the bytes an access writes (R54, R57). -/
def BusEvent.written : BusEvent → List Dword
  | .read _ _ _ => []
  | .write a bytes _ => (List.range bytes).map (fun i => a + BitVec.ofNat 32 i)
  | .message _ => []
  | .handshakeAborted => []

/-- The addresses of the bytes that `Step(hw)` writes, from its record on the bus: none where the step stops, since every
stop comes before the first write. The record of the step before must have been dropped. -/
def State.stepWrites (s : State) (hw : Option Dword) : List Dword :=
  match s.boundary hw with
  | .next t => t.bus.flatMap BusEvent.written
  | .fault _ => []
  | .refused _ => []

/-- The falling edge of `_RESET` in place of `Step(hw)` (R260): the CPU's state is that of R43. A byte that the step was
going to write may hold any value (U46): the one `landed` gives it, else the old one; every other byte and the platform
are untouched. -/
def State.resetEdge (s : State) (hw : Option Dword) (landed : List ByteWrite) : State :=
  { s.writeCells (landed.filter (fun c => (s.stepWrites hw).contains c.1)) with
    regs := RegFile.zero, pc := 0, sleeping := false }

/-- Other bus masters write memory (R67, R246 e), where the platform has such masters (`OTHER_MASTERS`, R7). -/
def State.mastersWrite (s : State) (writes : List ByteWrite) : State :=
  if s.otherMasters then s.writeCells writes else s

/-- The step begins: its move leaves the environment's list, the bus record of the step before is dropped. -/
def State.beginStep (s : State) : State := { s with env := s.env.tail, bus := [] }

/-- The step ends: the counter behind the free values advances. -/
def State.endStep (s : State) : State := { s with tick := s.tick + 1 }

/-- A step answers the next state with the counter advanced. -/
def finishStep : Result → Result
  | .next t => .next t.endStep
  | .fault r => .fault r
  | .refused r => .refused r

/-- One step under one move of the environment (R245, R246). -/
def State.move (s : State) (m : EnvMove) : Result :=
  match m with
  | .boundary hw => s.boundary hw
  | .reset hw landed => .next (s.resetEdge hw landed)
  | .wait => .next s
  | .masters writes => .next (s.mastersWrite writes)

/-- Store a dword where a fetch finds it, whatever the map says of its address: the bytes are put into memory, and where
the address holds no RAM or ROM a region of RAM is put there. -/
def State.placeDword (s : State) (a v : Dword) : State :=
  let bytes := bytesOfDword v
  let memory := (((s.mem.write a.toNat (bytes.getD 0 0)).write (a + 1).toNat (bytes.getD 1 0)).write
    (a + 2).toNat (bytes.getD 2 0)).write (a + 3).toNat (bytes.getD 3 0)
  let backed := [a, a + 1, a + 2, a + 3].all (fun x => (s.kindAt x).stored)
  { s with mem := memory, memMap := if backed then s.memMap else { base := a.toNat, size := 4, kind := .ram } :: s.memMap }

end Sys2Proof.Machine
end

