-- ==== Sys2Proof/Machine/Step.lean ====
section
/-! DEFINITION. The step of the machine, and the host's way to place an instruction where the next step fetches. -/

namespace Sys2Proof.Machine

/-- One step: the environment's next move, or a quiet boundary where it has none listed (R245, R246). -/
def step (s : State) : Host.Outcome State Fault Refusal :=
  finishStep (s.beginStep.move (s.env.headD (.boundary none)))

/-- The state with the instruction of bits `w` placed at `pc`, so that the very next step fetches and runs it: its two
dwords in memory, the CPU awake, and a quiet boundary as the environment's next move where it has another one listed. -/
def State.withFetchWord (s : State) (nbits w : Nat) : State :=
  let bits := w % 2 ^ nbits
  let placed := (s.placeDword s.pc (BitVec.ofNat 32 bits)).placeDword (s.pc + 4) (BitVec.ofNat 32 (bits / 2 ^ 32))
  { placed with
    sleeping := false
    env := if s.env.headD (.boundary none) = .boundary none then s.env else .boundary none :: s.env }

end Sys2Proof.Machine
end

