-- ==== Sys2Proof/Asm.lean ====
section
/-! DEFINITION. The assembly text of an instruction (30_encoding.md R101 to R103): register names, operands and the order in
which the source writes them. No step reads it. -/

namespace Sys2Proof

/-- The name of a register, the alias where it has one (R101). -/
def Reg.name : Reg → String
  | .r0 => "%r0"
  | .r1 => "%r1"
  | .r2 => "%r2"
  | .r3 => "%r3"
  | .r4 => "%r4"
  | .r5 => "%r5"
  | .r6 => "%r6"
  | .r7 => "%r7"
  | .r8 => "%r8"
  | .r9 => "%r9"
  | .r10 => "%r10"
  | .y => "%y"
  | .bp => "%bp"
  | .sp => "%sp"
  | .ia => "%ia"
  | .flags => "%flags"

/-- A dword as a hexadecimal number with the prefix of R103. -/
def hexText (v : Dword) : String := "0x" ++ String.ofList (Nat.toDigits 16 v.toNat)

/-- An Rn operand: a register, a short number in decimal, a literal in hexadecimal (R103). -/
def Operand.text : Operand → String
  | .reg r => r.name
  | .imm v => toString v.toInt
  | .lit v => hexText v

/-- `instr Rd, Rs, Rn` (R102). -/
def textP3 (mnemonic : String) (rd rs : Reg) (rn : Operand) : String :=
  mnemonic ++ " " ++ rd.name ++ ", " ++ rs.name ++ ", " ++ rn.text

/-- `instr Rd, Rn` (R102). -/
def textP2 (mnemonic : String) (rd : Reg) (rn : Operand) : String := mnemonic ++ " " ++ rd.name ++ ", " ++ rn.text

/-- `instr Rn` (R102). -/
def textP1 (mnemonic : String) (rn : Operand) : String := mnemonic ++ " " ++ rn.text

/-- `LOAD Rd, Rs + Rn` (R102). -/
def textLoad (mnemonic : String) (rd rs : Reg) (rn : Operand) : String :=
  mnemonic ++ " " ++ rd.name ++ ", " ++ rs.name ++ " + " ++ rn.text

/-- `STORE Rs + Rn, Rd`: the address first, the stored register last (R102). -/
def textStoreP3 (mnemonic : String) (rd rs : Reg) (rn : Operand) : String :=
  mnemonic ++ " " ++ rs.name ++ " + " ++ rn.text ++ ", " ++ rd.name

/-- `STORE Rn, Rd` (R102). -/
def textStoreP2 (mnemonic : String) (rd : Reg) (rn : Operand) : String := mnemonic ++ " " ++ rn.text ++ ", " ++ rd.name

/-- `JMP Rd + Rn`, `CALL Rd + Rn` (R102). -/
def textJump (mnemonic : String) (rd : Reg) (rn : Operand) : String := mnemonic ++ " " ++ rd.name ++ " + " ++ rn.text

/-- The assembly text of an instruction (R102). -/
def Instr.text : Instr → String
  | .and rd rs rn => textP3 "AND" rd rs rn
  | .or rd rs rn => textP3 "OR" rd rs rn
  | .xor rd rs rn => textP3 "XOR" rd rs rn
  | .bitc rd rs rn => textP3 "BITC" rd rs rn
  | .add rd rs rn => textP3 "ADD" rd rs rn
  | .addc rd rs rn => textP3 "ADDC" rd rs rn
  | .sub rd rs rn => textP3 "SUB" rd rs rn
  | .subb rd rs rn => textP3 "SUBB" rd rs rn
  | .rsb rd rs rn => textP3 "RSB" rd rs rn
  | .rsbb rd rs rn => textP3 "RSBB" rd rs rn
  | .lls rd rs rn => textP3 "LLS" rd rs rn
  | .lrs rd rs rn => textP3 "LRS" rd rs rn
  | .ars rd rs rn => textP3 "ARS" rd rs rn
  | .rotl rd rs rn => textP3 "ROTL" rd rs rn
  | .rotr rd rs rn => textP3 "ROTR" rd rs rn
  | .mul rd rs rn => textP3 "MUL" rd rs rn
  | .smul rd rs rn => textP3 "SMUL" rd rs rn
  | .div rd rs rn => textP3 "DIV" rd rs rn
  | .sdiv rd rs rn => textP3 "SDIV" rd rs rn
  | .loadP3 rd rs rn => textLoad "LOAD" rd rs rn
  | .loadwP3 rd rs rn => textLoad "LOADW" rd rs rn
  | .loadbP3 rd rs rn => textLoad "LOADB" rd rs rn
  | .storeP3 rd rs rn => textStoreP3 "STORE" rd rs rn
  | .storewP3 rd rs rn => textStoreP3 "STOREW" rd rs rn
  | .storebP3 rd rs rn => textStoreP3 "STOREB" rd rs rn
  | .mov rd rn => textP2 "MOV" rd rn
  | .swp rd rn => textP2 "SWP" rd (.reg rn)
  | .not rd rn => textP2 "NOT" rd rn
  | .sigxb rd rn => textP2 "SIGXB" rd rn
  | .sigxw rd rn => textP2 "SIGXW" rd rn
  | .loadP2 rd rn => textP2 "LOAD" rd rn
  | .loadwP2 rd rn => textP2 "LOADW" rd rn
  | .loadbP2 rd rn => textP2 "LOADB" rd rn
  | .storeP2 rd rn => textStoreP2 "STORE" rd rn
  | .storewP2 rd rn => textStoreP2 "STOREW" rd rn
  | .storebP2 rd rn => textStoreP2 "STOREB" rd rn
  | .ifeq rd rn => textP2 "IFEQ" rd rn
  | .ifneq rd rn => textP2 "IFNEQ" rd rn
  | .ifl rd rn => textP2 "IFL" rd rn
  | .ifsl rd rn => textP2 "IFSL" rd rn
  | .ifle rd rn => textP2 "IFLE" rd rn
  | .ifsle rd rn => textP2 "IFSLE" rd rn
  | .ifbits rd rn => textP2 "IFBITS" rd rn
  | .ifclear rd rn => textP2 "IFCLEAR" rd rn
  | .jmpP2 rd rn => textJump "JMP" rd rn
  | .callP2 rd rn => textJump "CALL" rd rn
  | .xchgb rn => textP1 "XCHGB" (.reg rn)
  | .xchgw rn => textP1 "XCHGW" (.reg rn)
  | .getpc rn => textP1 "GETPC" (.reg rn)
  | .pop rn => textP1 "POP" (.reg rn)
  | .push rn => textP1 "PUSH" (.reg rn)
  | .jmpP1 rn => textP1 "JMP" rn
  | .callP1 rn => textP1 "CALL" rn
  | .rjmp rn => textP1 "RJMP" rn
  | .rcall rn => textP1 "RCALL" rn
  | .int rn => textP1 "INT" rn
  | .sleep => "SLEEP"
  | .ret => "RET"
  | .rfi => "RFI"

end Sys2Proof
end

