-- ==== Sys2Proof/Machine/Timing.lean ====
section
/-! DEFINITION. The source's cycle counts (70_reset_and_hazards.md R270 to R272), as a function of an instruction and of the
bus record of its execution. They are non-normative: no state counts cycles (R44, R240) and no step reads this file
(log entry 17). -/

namespace Sys2Proof.Machine

/-- The figure of R270's table; for the tests, of one that holds (R271). -/
def baseCycles : Instr → Nat
  | .and _ _ _ => 3
  | .or _ _ _ => 3
  | .xor _ _ _ => 3
  | .bitc _ _ _ => 3
  | .add _ _ _ => 3
  | .addc _ _ _ => 3
  | .sub _ _ _ => 3
  | .subb _ _ _ => 3
  | .rsb _ _ _ => 3
  | .rsbb _ _ _ => 3
  | .lls _ _ _ => 3
  | .lrs _ _ _ => 3
  | .ars _ _ _ => 3
  | .rotl _ _ _ => 3
  | .rotr _ _ _ => 3
  | .mul _ _ _ => 20
  | .smul _ _ _ => 30
  | .div _ _ _ => 25
  | .sdiv _ _ _ => 35
  | .loadP3 _ _ _ => 3
  | .loadwP3 _ _ _ => 3
  | .loadbP3 _ _ _ => 3
  | .storeP3 _ _ _ => 3
  | .storewP3 _ _ _ => 3
  | .storebP3 _ _ _ => 3
  | .mov _ _ => 3
  | .swp _ _ => 3
  | .not _ _ => 3
  | .sigxb _ _ => 3
  | .sigxw _ _ => 3
  | .loadP2 _ _ => 3
  | .loadwP2 _ _ => 3
  | .loadbP2 _ _ => 3
  | .storeP2 _ _ => 3
  | .storewP2 _ _ => 3
  | .storebP2 _ _ => 3
  | .ifeq _ _ => 3
  | .ifneq _ _ => 3
  | .ifl _ _ => 3
  | .ifsl _ _ => 3
  | .ifle _ _ => 3
  | .ifsle _ _ => 3
  | .ifbits _ _ => 3
  | .ifclear _ _ => 3
  | .jmpP2 _ _ => 3
  | .callP2 _ _ => 4
  | .xchgb _ => 3
  | .xchgw _ => 3
  | .getpc _ => 3
  | .pop _ => 3
  | .push _ => 3
  | .jmpP1 _ => 3
  | .callP1 _ => 4
  | .rjmp _ => 3
  | .rcall _ => 4
  | .int _ => 6
  | .sleep => Config.sleepBaseCycles + 1
  | .ret => 4
  | .rfi => 6

/-- The cycles one access adds: one for each instruction a failed test skips (R271), one for a data access (load, store,
push, pop, vector read) at an address that is no multiple of 4 (R272), and for a literal what the source does not say
(U48). -/
def accessCycles : BusEvent → Nat
  | .read .fetch _ _ => 0
  | .read .literal _ _ => Config.literalCycles
  | .read .skip _ _ => 1
  | .read .data a _ => if a.toNat % 4 = 0 then 0 else 1
  | .read .stack a _ => if a.toNat % 4 = 0 then 0 else 1
  | .read (.vector _) a _ => if a.toNat % 4 = 0 then 0 else 1
  | .write a _ _ => if a.toNat % 4 = 0 then 0 else 1
  | .message _ => 0
  | .handshakeAborted => 0

/-- The cycles of one execution of `i`, its own accesses being `bus` (R270 to R272). -/
def cycles (i : Instr) (bus : List BusEvent) : Nat := baseCycles i + (bus.map accessCycles).sum

end Sys2Proof.Machine
end

