-- ==== Sys2Proof/Safety.lean ====
section
/-! DEFINITION. The terms in which claims speak of the machine: the invariant, a state ready to run an instruction, the
end of a run, which register and flag an instruction may write, frames (what stays as it was between two states), and
what a family's instructions leave behind. -/

namespace Sys2Proof.Machine

/-! ### States -/

/-- The invariant of the machine: memory keeps its canonical form. Registers and flags have no illegal value (R22, R37). -/
def State.Inv (s : State) : Prop := s.mem.wf

/-- The environment's next move is an instruction boundary at which no hardware interrupt is offered. -/
def State.Quiet (s : State) : Prop := s.env.headD (.boundary none) = .boundary none

/-- The environment's next move is an instruction boundary at which the message `msg` is offered (R225). -/
def State.Offers (s : State) (msg : Dword) : Prop := s.env.headD (.boundary none) = .boundary (some msg)

/-- The next step runs the instruction at `pc`: nothing offered, awake, `pc` a multiple of 4 (R245). -/
def State.Ready (s : State) : Prop := s.Quiet ∧ s.sleeping = false ∧ s.pc.extractLsb' 0 2 = 0

/-- The acceptance condition in the rule's words: EI = 1 and IF = 0 (R223). -/
def State.Accepts (s : State) : Prop := s.flag .enable = true ∧ s.flag .interrupt = false

/-- The end of a run as R246 (D32) defines it: asleep, and the environment offers no further hardware interrupt. -/
def State.Ended (s : State) : Prop := s.sleeping = true ∧ ∀ msg, .boundary (some msg) ∉ s.env

/-- The `n` bytes from `a` on (modulo 2^32) are RAM. -/
def RamAt (s : State) (a : Dword) (n : Nat) : Prop := ∀ b : Dword, (b - a).toNat < n → s.kindAt b = .ram

/-! ### Frames -/

/-- Every register outside `rs` is as before. -/
def RegsExcept (rs : List Reg) (s t : State) : Prop := ∀ r, r ∉ rs → t.reg r = s.reg r

/-- Every bit of `%flags` outside the fields `fs` is as before. -/
def FlagBitsExcept (fs : List Flag) (s t : State) : Prop :=
  ∀ k, (∀ f ∈ fs, k ≠ f.bit) → (t.reg .flags).getLsbD k = (s.reg .flags).getLsbD k

/-- Every byte of the address space reads as before. -/
def MemorySame (s t : State) : Prop := ∀ why a, t.readByte why a = s.readByte why a

/-- Every byte outside the `n` bytes from `a` on (modulo 2^32) reads as before. -/
def MemoryOutside (a : Dword) (n : Nat) (s t : State) : Prop :=
  ∀ why b, n ≤ (b - a).toNat → t.readByte why b = s.readByte why b

/-- Each of the `n` bytes from `a` on (modulo 2^32) that is RAM reads as the byte of `v` at its place (R54). -/
def MemoryHolds (a : Dword) (n : Nat) (v : Dword) (t : State) : Prop :=
  ∀ why b, (b - a).toNat < n → t.kindAt b = .ram → t.readByte why b = v.extractLsb' (8 * (b - a).toNat) 8

/-- What no instruction changes: the platform's parameters, the environment's moves, the counter of the free values. -/
def PlatformSame (s t : State) : Prop :=
  t.memMap = s.memMap ∧ t.otherMasters = s.otherMasters ∧ t.env = s.env ∧ t.tick = s.tick

/-- What no step changes, under any move of the environment: the platform's parameters (log entry 3). -/
def ParametersSame (s t : State) : Prop := t.memMap = s.memMap ∧ t.otherMasters = s.otherMasters

/-- No access to memory, nothing on the bus, `sleeping` and the platform as before, and `pc` is `pc`. -/
def NoAccess (pc : Dword) (s t : State) : Prop :=
  MemorySame s t ∧ t.bus = s.bus ∧ t.sleeping = s.sleeping ∧ PlatformSame s t ∧ t.pc = pc

/-- `v` is written into `rd`, `pc` becomes `pc`, and nothing else changes. -/
def WritesOnly (rd : Reg) (v pc : Dword) (s t : State) : Prop :=
  t.reg rd = v ∧ RegsExcept [rd] s t ∧ NoAccess pc s t

/-! ### Encodings: what the decoder makes of every dword with one opcode byte -/

/-- Opcode byte `op` of form P3, both values of M (R82, R92). -/
def OpcodeP3 (op : BitVec 8) (f : Reg → Reg → Operand → Instr) : Prop :=
  ∀ ins literal : Dword, ins.extractLsb' 24 8 = op → decodeDwords ins literal =
    .ok (f (.ofBits (ins.extractLsb' 0 4)) (.ofBits (ins.extractLsb' 4 4))
      (operandOf (ins.getLsbD 23) (ins.extractLsb' 8 15) literal))

/-- Opcode byte `op` of form P2, both values of M (R83, R93). -/
def OpcodeP2 (op : BitVec 8) (f : Reg → Operand → Instr) : Prop :=
  ∀ ins literal : Dword, ins.extractLsb' 24 8 = op → decodeDwords ins literal =
    .ok (f (.ofBits (ins.extractLsb' 0 4)) (operandOf (ins.getLsbD 23) (ins.extractLsb' 4 19) literal))

/-- Opcode byte `op` of form P1, both values of M (R84, R94). -/
def OpcodeP1 (op : BitVec 8) (f : Operand → Instr) : Prop :=
  ∀ ins literal : Dword, ins.extractLsb' 24 8 = op → decodeDwords ins literal =
    .ok (f (operandOf (ins.getLsbD 23) (ins.extractLsb' 0 23) literal))

/-- Opcode byte `op` of form P2 with M = 0 only (R93, R97). -/
def OpcodeP2Reg (op : BitVec 8) (f : Reg → Reg → Instr) : Prop :=
  ∀ ins literal : Dword, ins.extractLsb' 24 8 = op → decodeDwords ins literal =
    if ins.getLsbD 23 then .error .immediateForbidden
    else .ok (f (.ofBits (ins.extractLsb' 0 4)) (.ofBits (ins.extractLsb' 4 4)))

/-- Opcode byte `op` of form P1 with M = 0 only (R94, R97). -/
def OpcodeP1Reg (op : BitVec 8) (f : Reg → Instr) : Prop :=
  ∀ ins literal : Dword, ins.extractLsb' 24 8 = op → decodeDwords ins literal =
    if ins.getLsbD 23 then .error .immediateForbidden else .ok (f (.ofBits (ins.extractLsb' 0 4)))

/-- The dwords that are no instruction, in the words of R96, R97 and R98. -/
def NotRecognised (ins : Dword) : Prop :=
  let op := (ins.extractLsb' 24 8).toNat
  (0x99 ≤ op ∨ (0x55 ≤ op ∧ op ≤ 0x7F) ∨ (0x2A ≤ op ∧ op ≤ 0x3F) ∨ (0x03 ≤ op ∧ op ≤ 0x1F)) ∨
    (op ∈ [0x41, 0x20, 0x21, 0x22, 0x23, 0x24] ∧ ins.getLsbD 23 = true) ∨
    (op ≤ 0x02 ∧ ins.extractLsb' 0 24 ≠ 0)

/-! ### What an instruction leaves behind -/

/-- An addition `a + b + cin` into `rd` (R158): the result, CF and OF unless `rd` is `%flags` itself, where the result
wins (R38, R165, D17). -/
def SumWritten (rd : Reg) (a b : Dword) (cin : Bool) (pc : Dword) (s t : State) : Prop :=
  (t.reg rd).toNat = (a.toNat + b.toNat + cin.toNat) % 2 ^ 32 ∧
    (rd ≠ .flags →
      (t.flag .carry = true ↔ 2 ^ 32 ≤ a.toNat + b.toNat + cin.toNat) ∧
      (t.flag .overflow = true ↔ a.msb = b.msb ∧ (t.reg rd).msb ≠ a.msb) ∧
      FlagBitsExcept [.carry, .overflow] s t) ∧
    RegsExcept [rd, .flags] s t ∧ NoAccess pc s t

/-- A subtraction `m - q - bin` into `rd` (R159), minuend `m`, subtrahend `q`: the result, CF (the borrow) and OF unless
`rd` is `%flags` itself, where the result wins (R38, R165, D17). -/
def DifferenceWritten (rd : Reg) (m q : Dword) (bin : Bool) (pc : Dword) (s t : State) : Prop :=
  ((t.reg rd).toNat : Int) = ((m.toNat : Int) - q.toNat - bin.toNat) % 2 ^ 32 ∧
    (rd ≠ .flags →
      (t.flag .carry = true ↔ m.toNat < q.toNat + bin.toNat) ∧
      (t.flag .overflow = true ↔ m.msb ≠ q.msb ∧ (t.reg rd).msb ≠ m.msb) ∧
      FlagBitsExcept [.carry, .overflow] s t) ∧
    RegsExcept [rd, .flags] s t ∧ NoAccess pc s t

/-- One field of `%flags` written with `b` unless `rd` is `%flags` itself, where the result wins (R38, R165, D17); no other
register but `rd` and those of `others` changes. -/
def FlagWritten (f : Flag) (b : Bool) (rd : Reg) (others : List Reg) (pc : Dword) (s t : State) : Prop :=
  (rd ≠ .flags → t.flag f = b ∧ FlagBitsExcept [f] s t) ∧
    RegsExcept (rd :: .flags :: others) s t ∧ NoAccess pc s t

/-- A load of `n` bytes at `ea`: `v` in `rd`, one read on the bus, nothing else (R60, R122, R125). -/
def Loaded (rd : Reg) (v ea : Dword) (n : Nat) (pc : Dword) (s t : State) : Prop :=
  t.reg rd = v ∧ RegsExcept [rd] s t ∧ MemorySame s t ∧ t.bus = s.bus ++ [.read .data ea n] ∧
    t.sleeping = s.sleeping ∧ PlatformSame s t ∧ t.pc = pc

/-- A store of the low `n` bytes of `v` at `ea`: those bytes where they are RAM, no other byte, one write on the bus, no
register (R54, R60, R124). -/
def Stored (ea : Dword) (n : Nat) (v pc : Dword) (s t : State) : Prop :=
  RegsExcept [] s t ∧ MemoryHolds ea n v t ∧ MemoryOutside ea n s t ∧ t.bus = s.bus ++ [.write ea n v] ∧
    t.sleeping = s.sleeping ∧ PlatformSame s t ∧ t.pc = pc

/-- A push of `v` (R202): `%sp` is 4 lower, the dword stands at the new `%sp`. -/
def Pushed (v pc : Dword) (s t : State) : Prop :=
  t.reg .sp = s.reg .sp - 4 ∧ RegsExcept [.sp] s t ∧ MemoryHolds (s.reg .sp - 4) 4 v t ∧
    MemoryOutside (s.reg .sp - 4) 4 s t ∧ t.bus = s.bus ++ [.write (s.reg .sp - 4) 4 v] ∧
    t.sleeping = s.sleeping ∧ PlatformSame s t ∧ t.pc = pc

/-- A skip from `a` ends at `target`, having read the dwords at `visited` (R171). -/
def SkipEnds (s : State) (a : Dword) (visited : List Dword) (target : Dword) : Prop :=
  s.skipFrom skipFuel a = some (visited, target)

/-- A skip from `a` never ends: the loop of R171 goes on for ever. -/
def SkipNeverEnds (s : State) (a : Dword) : Prop := ∀ visited target, ¬SkipEnds s a visited target

/-- A test with the outcome `holds` answers `o` (R170, R171): `pc <- npc` where it holds; else the skip from `npc` where
that ends, its reads on the bus; and the stop by name where it never ends. No register, no flag, no byte changes. -/
def TestDecides (holds : Prop) (rn : Operand) (o : Result) (s : State) : Prop :=
  (holds → ∃ t, o = .next t ∧ RegsExcept [] s t ∧ NoAccess (s.npc rn) s t) ∧
    (¬holds → ∀ visited target, SkipEnds s (s.npc rn) visited target →
      ∃ t, o = .next t ∧ RegsExcept [] s t ∧ MemorySame s t ∧
        t.bus = s.bus ++ visited.map (fun a => .read .skip a 4) ∧ t.sleeping = s.sleeping ∧ PlatformSame s t ∧
        t.pc = target) ∧
    (¬holds → SkipNeverEnds s (s.npc rn) → o = .fault (.skipNeverEnds s.pc))

/-- `i`, with the operand `rn`, is a test that fails in the state `s` (R172 to R179). -/
def FailedTest (i : Instr) (rn : Operand) (s : State) : Prop :=
  ∃ rd, (i = .ifeq rd rn ∧ s.reg rd ≠ s.opn rn) ∨ (i = .ifneq rd rn ∧ s.reg rd = s.opn rn) ∨
    (i = .ifl rd rn ∧ (s.opn rn).toNat ≤ (s.reg rd).toNat) ∨ (i = .ifsl rd rn ∧ (s.opn rn).toInt ≤ (s.reg rd).toInt) ∨
    (i = .ifle rd rn ∧ (s.opn rn).toNat < (s.reg rd).toNat) ∨ (i = .ifsle rd rn ∧ (s.opn rn).toInt < (s.reg rd).toInt) ∨
    (i = .ifbits rd rn ∧ s.reg rd &&& s.opn rn = 0) ∨ (i = .ifclear rd rn ∧ s.reg rd &&& s.opn rn ≠ 0)

/-- A handler was entered with message `msg`, the vector entry `vec` and the return address `ret` (R226): the two pushes,
`%r0`, `pc`, IF and `sleeping`; every other bit of `%flags`, register and byte as before. -/
def HandlerEntered (msg vec ret : Dword) (s t : State) : Prop :=
  t.reg .sp = s.reg .sp - 8 ∧ t.reg .r0 = msg ∧ t.pc = vec ∧ t.flag .interrupt = true ∧ t.sleeping = false ∧
    FlagBitsExcept [.interrupt] s t ∧ RegsExcept [.r0, .sp, .flags] s t ∧
    MemoryHolds (s.reg .sp - 4) 4 (s.reg .r0) t ∧ MemoryHolds (s.reg .sp - 8) 4 ret t ∧
    MemoryOutside (s.reg .sp - 8) 8 s t

/-- The accesses of an entry in their order: the vector, then `%r0`, then the return address (R58, R226). -/
def entryAccesses (source : Source) (msg ret : Dword) (s : State) : List BusEvent :=
  [.read (.vector source) (s.reg .ia + 4 * (msg.extractLsb' 0 8).setWidth 32) 4,
    .write (s.reg .sp - 4) 4 (s.reg .r0), .write (s.reg .sp - 8) 4 ret]

/-! ### Which register and which flag an instruction may write -/

/-- The registers an instruction names as destination (R86, R90). -/
def destinations : Instr → List Reg
  | .and rd _ _ => [rd]
  | .or rd _ _ => [rd]
  | .xor rd _ _ => [rd]
  | .bitc rd _ _ => [rd]
  | .add rd _ _ => [rd]
  | .addc rd _ _ => [rd]
  | .sub rd _ _ => [rd]
  | .subb rd _ _ => [rd]
  | .rsb rd _ _ => [rd]
  | .rsbb rd _ _ => [rd]
  | .lls rd _ _ => [rd]
  | .lrs rd _ _ => [rd]
  | .ars rd _ _ => [rd]
  | .rotl rd _ _ => [rd]
  | .rotr rd _ _ => [rd]
  | .mul rd _ _ => [rd]
  | .smul rd _ _ => [rd]
  | .div rd _ _ => [rd]
  | .sdiv rd _ _ => [rd]
  | .loadP3 rd _ _ => [rd]
  | .loadwP3 rd _ _ => [rd]
  | .loadbP3 rd _ _ => [rd]
  | .storeP3 _ _ _ => []
  | .storewP3 _ _ _ => []
  | .storebP3 _ _ _ => []
  | .mov rd _ => [rd]
  | .swp rd rn => [rd, rn]
  | .not rd _ => [rd]
  | .sigxb rd _ => [rd]
  | .sigxw rd _ => [rd]
  | .loadP2 rd _ => [rd]
  | .loadwP2 rd _ => [rd]
  | .loadbP2 rd _ => [rd]
  | .storeP2 _ _ => []
  | .storewP2 _ _ => []
  | .storebP2 _ _ => []
  | .ifeq _ _ => []
  | .ifneq _ _ => []
  | .ifl _ _ => []
  | .ifsl _ _ => []
  | .ifle _ _ => []
  | .ifsle _ _ => []
  | .ifbits _ _ => []
  | .ifclear _ _ => []
  | .jmpP2 _ _ => []
  | .callP2 _ _ => []
  | .xchgb rn => [rn]
  | .xchgw rn => [rn]
  | .getpc rn => [rn]
  | .pop rn => [rn]
  | .push _ => []
  | .jmpP1 _ => []
  | .callP1 _ => []
  | .rjmp _ => []
  | .rcall _ => []
  | .int _ => []
  | .sleep => []
  | .ret => []
  | .rfi => []

/-- The registers other than `%flags` that an instruction may write without naming them (R22 to R26). -/
def implicitRegs : Instr → List Reg
  | .and _ _ _ => []
  | .or _ _ _ => []
  | .xor _ _ _ => []
  | .bitc _ _ _ => []
  | .add _ _ _ => []
  | .addc _ _ _ => []
  | .sub _ _ _ => []
  | .subb _ _ _ => []
  | .rsb _ _ _ => []
  | .rsbb _ _ _ => []
  | .lls _ _ _ => []
  | .lrs _ _ _ => []
  | .ars _ _ _ => []
  | .rotl _ _ _ => []
  | .rotr _ _ _ => []
  | .mul _ _ _ => [.y]
  | .smul _ _ _ => [.y]
  | .div _ _ _ => [.y]
  | .sdiv _ _ _ => [.y]
  | .loadP3 _ _ _ => []
  | .loadwP3 _ _ _ => []
  | .loadbP3 _ _ _ => []
  | .storeP3 _ _ _ => []
  | .storewP3 _ _ _ => []
  | .storebP3 _ _ _ => []
  | .mov _ _ => []
  | .swp _ _ => []
  | .not _ _ => []
  | .sigxb _ _ => []
  | .sigxw _ _ => []
  | .loadP2 _ _ => []
  | .loadwP2 _ _ => []
  | .loadbP2 _ _ => []
  | .storeP2 _ _ => []
  | .storewP2 _ _ => []
  | .storebP2 _ _ => []
  | .ifeq _ _ => []
  | .ifneq _ _ => []
  | .ifl _ _ => []
  | .ifsl _ _ => []
  | .ifle _ _ => []
  | .ifsle _ _ => []
  | .ifbits _ _ => []
  | .ifclear _ _ => []
  | .jmpP2 _ _ => []
  | .callP2 _ _ => [.sp]
  | .xchgb _ => []
  | .xchgw _ => []
  | .getpc _ => []
  | .pop _ => [.sp]
  | .push _ => [.sp]
  | .jmpP1 _ => []
  | .callP1 _ => [.sp]
  | .rjmp _ => []
  | .rcall _ => [.sp]
  | .int _ => [.r0, .sp]
  | .sleep => []
  | .ret => [.sp]
  | .rfi => [.r0, .sp]

/-- The fields of `%flags` that an instruction may write without naming it (R31 to R36, R157). -/
def implicitFlags : Instr → List Flag
  | .and _ _ _ => []
  | .or _ _ _ => []
  | .xor _ _ _ => []
  | .bitc _ _ _ => []
  | .add _ _ _ => [.carry, .overflow]
  | .addc _ _ _ => [.carry, .overflow]
  | .sub _ _ _ => [.carry, .overflow]
  | .subb _ _ _ => [.carry, .overflow]
  | .rsb _ _ _ => [.carry, .overflow]
  | .rsbb _ _ _ => [.carry, .overflow]
  | .lls _ _ _ => [.carry]
  | .lrs _ _ _ => [.carry]
  | .ars _ _ _ => [.carry]
  | .rotl _ _ _ => []
  | .rotr _ _ _ => []
  | .mul _ _ _ => []
  | .smul _ _ _ => []
  | .div _ _ _ => [.divError]
  | .sdiv _ _ _ => [.divError]
  | .loadP3 _ _ _ => []
  | .loadwP3 _ _ _ => []
  | .loadbP3 _ _ _ => []
  | .storeP3 _ _ _ => []
  | .storewP3 _ _ _ => []
  | .storebP3 _ _ _ => []
  | .mov _ _ => []
  | .swp _ _ => []
  | .not _ _ => []
  | .sigxb _ _ => []
  | .sigxw _ _ => []
  | .loadP2 _ _ => []
  | .loadwP2 _ _ => []
  | .loadbP2 _ _ => []
  | .storeP2 _ _ => []
  | .storewP2 _ _ => []
  | .storebP2 _ _ => []
  | .ifeq _ _ => []
  | .ifneq _ _ => []
  | .ifl _ _ => []
  | .ifsl _ _ => []
  | .ifle _ _ => []
  | .ifsle _ _ => []
  | .ifbits _ _ => []
  | .ifclear _ _ => []
  | .jmpP2 _ _ => []
  | .callP2 _ _ => []
  | .xchgb _ => []
  | .xchgw _ => []
  | .getpc _ => []
  | .pop _ => []
  | .push _ => []
  | .jmpP1 _ => []
  | .callP1 _ => []
  | .rjmp _ => []
  | .rcall _ => []
  | .int _ => [.interrupt]
  | .sleep => []
  | .ret => []
  | .rfi => [.interrupt]

/-- The eight IFxx instructions. -/
def isTest : Instr → Bool
  | .and _ _ _ => false
  | .or _ _ _ => false
  | .xor _ _ _ => false
  | .bitc _ _ _ => false
  | .add _ _ _ => false
  | .addc _ _ _ => false
  | .sub _ _ _ => false
  | .subb _ _ _ => false
  | .rsb _ _ _ => false
  | .rsbb _ _ _ => false
  | .lls _ _ _ => false
  | .lrs _ _ _ => false
  | .ars _ _ _ => false
  | .rotl _ _ _ => false
  | .rotr _ _ _ => false
  | .mul _ _ _ => false
  | .smul _ _ _ => false
  | .div _ _ _ => false
  | .sdiv _ _ _ => false
  | .loadP3 _ _ _ => false
  | .loadwP3 _ _ _ => false
  | .loadbP3 _ _ _ => false
  | .storeP3 _ _ _ => false
  | .storewP3 _ _ _ => false
  | .storebP3 _ _ _ => false
  | .mov _ _ => false
  | .swp _ _ => false
  | .not _ _ => false
  | .sigxb _ _ => false
  | .sigxw _ _ => false
  | .loadP2 _ _ => false
  | .loadwP2 _ _ => false
  | .loadbP2 _ _ => false
  | .storeP2 _ _ => false
  | .storewP2 _ _ => false
  | .storebP2 _ _ => false
  | .ifeq _ _ => true
  | .ifneq _ _ => true
  | .ifl _ _ => true
  | .ifsl _ _ => true
  | .ifle _ _ => true
  | .ifsle _ _ => true
  | .ifbits _ _ => true
  | .ifclear _ _ => true
  | .jmpP2 _ _ => false
  | .callP2 _ _ => false
  | .xchgb _ => false
  | .xchgw _ => false
  | .getpc _ => false
  | .pop _ => false
  | .push _ => false
  | .jmpP1 _ => false
  | .callP1 _ => false
  | .rjmp _ => false
  | .rcall _ => false
  | .int _ => false
  | .sleep => false
  | .ret => false
  | .rfi => false

end Sys2Proof.Machine
end

