-- ==== Sys2Proof/Certificates/Slice0/Obligations.lean ====
section
/-! DEFINITION. The statements for the provers. Each docstring names the rule of spec/ it formalises; where the rule is marked
as the spec's own decision (D<n>) or inference, the statement says so and cites no rule for it. -/

open Sys2Proof Sys2Proof.Machine

/-! ### Encoding -/

/-- Decoding the bytes of a well-formed instruction, whatever follows them, gives the instruction back (R106, an inference
the spec marks as its own, from R82 to R89). -/
def Obligations.DecodeInvertsEncode : Prop :=
  ∀ (i : Instr) (rest : List Byte), i.wf = true → decode (encodeBytes i ++ rest) = .ok (i, rest)

/-- The source's own consistent example words, and one word of every other family, decode to what they stand for
(95_test_vectors.md section 1.1 and the examples of R110, R172, R200, R208, R206). -/
def Obligations.ExampleWordsDecode : Prop :=
  decodeTableWord 32 0x81000767 = some (.or .r7 .r6 (.reg .r7)) ∧
    decodeTableWord 32 0x400000DA = some (.mov .r10 (.reg .sp)) ∧
    decodeTableWord 32 0x29800021 = some (.int (.imm 0x21)) ∧
    decodeTableWord 64 0xBEBECAFE26C00000 = some (.callP1 (.lit 0xBEBECAFE)) ∧
    decodeTableWord 32 0x01000000 = some .ret ∧
    decodeTableWord 32 0x93840017 = some (.loadP3 .r7 .r1 (.imm 1024)) ∧
    decodeTableWord 32 0x4B800001 = some (.ifeq .r1 (.imm 0)) ∧
    decodeTableWord 32 0x24000001 = some (.push .r1) ∧
    decodeTableWord 32 0x02000000 = some .rfi ∧
    decodeTableWord 32 0x00000000 = some .sleep

/-- With M = 0 the bits of the Rn field above the low four play no part: the dword with them cleared is the same
instruction (the spec's own choice D3, "the other field bits are ignored by the CPU"). -/
def Obligations.RegisterFormIgnoresUpperBits : Prop :=
  ∀ ins literal : Dword, ins.getLsbD 23 = false →
    (formatOf ins = .p3 → decodeDwords ins literal = decodeDwords (ins &&& 0xFF800FFF) 0) ∧
    (formatOf ins = .p2 → decodeDwords ins literal = decodeDwords (ins &&& 0xFF8000FF) 0) ∧
    (formatOf ins = .p1 → decodeDwords ins literal = decodeDwords (ins &&& 0xFF80000F) 0)

/-- R88: with M = 1 and a field that is not the marker, the operand's value is the field's number, sign-extended and not
scaled, in the ranges the rule gives. -/
def Obligations.ShortImmediateIsSignExtended : Prop :=
  ∀ (ins literal : Dword) (s : State), ins.getLsbD 23 = true →
    (formatOf ins = .p3 → ins.extractLsb' 8 15 ≠ 0x4000 →
      (s.opn (operandOf (mBit ins) (fieldP3 ins) literal)).toInt = (ins.extractLsb' 8 15).toInt ∧
        -16383 ≤ (ins.extractLsb' 8 15).toInt ∧ (ins.extractLsb' 8 15).toInt ≤ 16383) ∧
    (formatOf ins = .p2 → ins.extractLsb' 4 19 ≠ 0x40000 →
      (s.opn (operandOf (mBit ins) (fieldP2 ins) literal)).toInt = (ins.extractLsb' 4 19).toInt ∧
        -262143 ≤ (ins.extractLsb' 4 19).toInt ∧ (ins.extractLsb' 4 19).toInt ≤ 262143) ∧
    (formatOf ins = .p1 → ins.extractLsb' 0 23 ≠ 0x400000 →
      (s.opn (operandOf (mBit ins) (fieldP1 ins) literal)).toInt = (ins.extractLsb' 0 23).toInt ∧
        -0x3FFFFF ≤ (ins.extractLsb' 0 23).toInt ∧ (ins.extractLsb' 0 23).toInt ≤ 0x3FFFFF)

/-- With M = 1 and the marker in the field, the dword after the instruction is fetched and is the operand, and the next
instruction stands 8 bytes on (the P3, P2 and P1 markers of 30_encoding.md section 2). -/
def Obligations.LongImmediateIsNextDword : Prop :=
  ∀ s : State, s.fetchedWord.getLsbD 23 = true →
    (formatOf s.fetchedWord = .p3 → s.fetchedWord.extractLsb' 8 15 = 0x4000 →
      s.fetchedLiteral = s.readDword .literal (s.pc + 4) ∧
        operandOf (mBit s.fetchedWord) (fieldP3 s.fetchedWord) s.fetchedLiteral = .lit s.fetchedLiteral ∧
        s.npc (.lit s.fetchedLiteral) = s.pc + 8) ∧
    (formatOf s.fetchedWord = .p2 → s.fetchedWord.extractLsb' 4 19 = 0x40000 →
      s.fetchedLiteral = s.readDword .literal (s.pc + 4) ∧
        operandOf (mBit s.fetchedWord) (fieldP2 s.fetchedWord) s.fetchedLiteral = .lit s.fetchedLiteral ∧
        s.npc (.lit s.fetchedLiteral) = s.pc + 8) ∧
    (formatOf s.fetchedWord = .p1 → s.fetchedWord.extractLsb' 0 23 = 0x400000 →
      s.fetchedLiteral = s.readDword .literal (s.pc + 4) ∧
        operandOf (mBit s.fetchedWord) (fieldP1 s.fetchedWord) s.fetchedLiteral = .lit s.fetchedLiteral ∧
        s.npc (.lit s.fetchedLiteral) = s.pc + 8)

/-- A dword is an instruction exactly where it is none of the unassigned opcodes, forbidden M bits and reserved NP bits
that R96, R97 and R98 list (what becomes of those is the spec's own choice, D4 and D5). -/
def Obligations.RecognisedExactlyAsListed : Prop :=
  ∀ ins literal : Dword, (∃ i, decodeDwords ins literal = .ok i) ↔ ¬NotRecognised ins

/-- Executing a dword that is no instruction stops with `UnrecognisedInstruction(iaddr, ins)` (the spec's own choice D5:
"the model stops with the model-level fault"). -/
def Obligations.NotRecognisedFaults : Prop :=
  ∀ s : State, s.Ready → NotRecognised s.fetchedWord →
    step s = .fault (.unrecognisedInstruction s.pc s.fetchedWord)

/-! ### Memory -/

/-- Words and dwords are read least significant byte first, at any address, addresses modulo 2^32 (20_memory.md sections 2
and 3; the byte order is the spec's choice D1, the wrap D7). -/
def Obligations.ReadsAreLittleEndian : Prop :=
  ∀ (s : State) (why : Access) (a : Dword),
    (s.readWord why a).toNat = (s.readByte why a).toNat + 2 ^ 8 * (s.readByte why (a + 1)).toNat ∧
    (s.readDword why a).toNat = (s.readByte why a).toNat + 2 ^ 8 * (s.readByte why (a + 1)).toNat +
      2 ^ 16 * (s.readByte why (a + 2)).toNat + 2 ^ 24 * (s.readByte why (a + 3)).toNat

/-- A dword stored in RAM at any address, aligned or not, is what a LOAD at that address then gives, and a fetch of it too
(20_memory.md sections 4 and 8; that a fetch sees the store at once is the spec's choice D27). -/
def Obligations.StoredDwordIsLoadedAndFetched : Prop :=
  ∀ (s : State) (rd rs qd : Reg) (rn : Operand), RamAt s (s.indexed rs rn) 4 →
    ∃ t u, exec (.storeP3 rd rs rn) s = .next t ∧ exec (.loadP3 qd rs rn) t = .next u ∧
      u.reg qd = s.reg rd ∧ RegsExcept [qd] s u ∧ t.readDword .fetch (s.indexed rs rn) = s.reg rd

/-- No step, a reset edge and other masters' writes included, changes a byte at an address that is not RAM, and none changes
the platform's parameters. That a store to ROM or to nothing has no effect on memory is the spec's choice D24; that a write
to a device leaves memory alone is the model's form of the open DEVICES (log entry 2, U18), and that the memory map never
changes the model's choice (log entry 3). -/
def Obligations.OnlyRamEverChanges : Prop :=
  ∀ s t : State, step s = .next t →
    ParametersSame s t ∧ ∀ a : Dword, s.kindAt a ≠ .ram → t.mem.read a.toNat = s.mem.read a.toNat

/-! ### RAM instructions -/

/-- R110, R116: LOAD, in both forms, with every operand (the order of the bytes of a dword in memory is the spec's choice D1,
the wrap of addresses D7). -/
def Obligations.LoadReadsDword : Prop :=
  (OpcodeP3 0x93 .loadP3 ∧ ∀ (s : State) (rd rs : Reg) (rn : Operand),
    ∃ t, exec (.loadP3 rd rs rn) s = .next t ∧
      Loaded rd (s.readDword .data (s.reg rs + s.opn rn)) (s.reg rs + s.opn rn) 4 (s.npc rn) s t) ∧
  (OpcodeP2 0x45 .loadP2 ∧ ∀ (s : State) (rd : Reg) (rn : Operand),
    ∃ t, exec (.loadP2 rd rn) s = .next t ∧
      Loaded rd (s.readDword .data (s.opn rn)) (s.opn rn) 4 (s.npc rn) s t)

/-- LOADW and LOADB put the word or byte read into Rd with zeros above it (that the upper bits become zero is the spec's
choice D6). -/
def Obligations.NarrowLoadsZeroExtend : Prop :=
  (OpcodeP3 0x94 .loadwP3 ∧ OpcodeP2 0x46 .loadwP2 ∧ OpcodeP3 0x95 .loadbP3 ∧ OpcodeP2 0x47 .loadbP2) ∧
  ∀ (s : State) (rd rs : Reg) (rn : Operand),
    (∃ t v, exec (.loadwP3 rd rs rn) s = .next t ∧
      v.toNat = (s.readWord .data (s.reg rs + s.opn rn)).toNat ∧
      Loaded rd v (s.reg rs + s.opn rn) 2 (s.npc rn) s t) ∧
    (∃ t v, exec (.loadwP2 rd rn) s = .next t ∧ v.toNat = (s.readWord .data (s.opn rn)).toNat ∧
      Loaded rd v (s.opn rn) 2 (s.npc rn) s t) ∧
    (∃ t v, exec (.loadbP3 rd rs rn) s = .next t ∧
      v.toNat = (s.readByte .data (s.reg rs + s.opn rn)).toNat ∧
      Loaded rd v (s.reg rs + s.opn rn) 1 (s.npc rn) s t) ∧
    (∃ t v, exec (.loadbP2 rd rn) s = .next t ∧ v.toNat = (s.readByte .data (s.opn rn)).toNat ∧
      Loaded rd v (s.opn rn) 1 (s.npc rn) s t)

/-- R113, R114, R115: the indexed stores (the order of the bytes is the spec's choice D1, that only RAM takes them D24). -/
def Obligations.IndexedStoresWriteMemory : Prop :=
  (OpcodeP3 0x96 .storeP3 ∧ OpcodeP3 0x97 .storewP3 ∧ OpcodeP3 0x98 .storebP3) ∧
  ∀ (s : State) (rd rs : Reg) (rn : Operand),
    (∃ t, exec (.storeP3 rd rs rn) s = .next t ∧ Stored (s.reg rs + s.opn rn) 4 (s.reg rd) (s.npc rn) s t) ∧
    (∃ t, exec (.storewP3 rd rs rn) s = .next t ∧ Stored (s.reg rs + s.opn rn) 2 (s.reg rd) (s.npc rn) s t) ∧
    (∃ t, exec (.storebP3 rd rs rn) s = .next t ∧ Stored (s.reg rs + s.opn rn) 1 (s.reg rd) (s.npc rn) s t)

/-- R119, R120, R121: the direct stores (the order of the bytes is the spec's choice D1, that only RAM takes them D24). -/
def Obligations.DirectStoresWriteMemory : Prop :=
  (OpcodeP2 0x48 .storeP2 ∧ OpcodeP2 0x49 .storewP2 ∧ OpcodeP2 0x4A .storebP2) ∧
  ∀ (s : State) (rd : Reg) (rn : Operand),
    (∃ t, exec (.storeP2 rd rn) s = .next t ∧ Stored (s.opn rn) 4 (s.reg rd) (s.npc rn) s t) ∧
    (∃ t, exec (.storewP2 rd rn) s = .next t ∧ Stored (s.opn rn) 2 (s.reg rd) (s.npc rn) s t) ∧
    (∃ t, exec (.storebP2 rd rn) s = .next t ∧ Stored (s.opn rn) 1 (s.reg rd) (s.npc rn) s t)

/-! ### Register manipulation -/

/-- R130: MOV. R140: NOT. -/
def Obligations.MovAndNotWriteRd : Prop :=
  (OpcodeP2 0x40 .mov ∧ ∀ (s : State) (rd : Reg) (rn : Operand),
    ∃ t, exec (.mov rd rn) s = .next t ∧ WritesOnly rd (s.opn rn) (s.npc rn) s t) ∧
  (OpcodeP2 0x42 .not ∧ ∀ (s : State) (rd : Reg) (rn : Operand),
    ∃ t, exec (.not rd rn) s = .next t ∧ WritesOnly rd (~~~(s.opn rn)) (s.npc rn) s t)

/-- R131: SWP. With M = 1 the word is not recognised, as R131 itself says (what becomes of it is the spec's choice D4). -/
def Obligations.SwpExchangesRegisters : Prop :=
  OpcodeP2Reg 0x41 .swp ∧ ∀ (s : State) (rd rn : Reg),
    ∃ t, exec (.swp rd rn) s = .next t ∧ t.reg rd = s.reg rn ∧ t.reg rn = s.reg rd ∧
      RegsExcept [rd, rn] s t ∧ NoAccess (s.pc + 4) s t

/-- SIGXB and SIGXW: the source's P-Code where the sign bit is set, zeros above the byte or word where it is clear (the
second case is the spec's choice D14). -/
def Obligations.SignExtensionsWriteRd : Prop :=
  (OpcodeP2 0x43 .sigxb ∧ ∀ (s : State) (rd : Reg) (rn : Operand),
    ∃ t, exec (.sigxb rd rn) s = .next t ∧
      WritesOnly rd (if (s.opn rn).getLsbD 7 then s.opn rn ||| 0xFFFFFF00 else s.opn rn &&& 0x000000FF) (s.npc rn) s t) ∧
  (OpcodeP2 0x44 .sigxw ∧ ∀ (s : State) (rd : Reg) (rn : Operand),
    ∃ t, exec (.sigxw rd rn) s = .next t ∧
      WritesOnly rd (if (s.opn rn).getLsbD 15 then s.opn rn ||| 0xFFFF0000 else s.opn rn &&& 0x0000FFFF) (s.npc rn) s t)

/-- R134: XCHGW. R135: XCHGB. Both admit M = 0 only (what becomes of M = 1 is the spec's choice D4). -/
def Obligations.ExchangesWithinRegister : Prop :=
  (OpcodeP1Reg 0x21 .xchgw ∧ ∀ (s : State) (rn : Reg),
    ∃ t v, exec (.xchgw rn) s = .next t ∧ WritesOnly rn v (s.pc + 4) s t ∧
      v.toNat = (s.reg rn).toNat % 2 ^ 16 * 2 ^ 16 + (s.reg rn).toNat / 2 ^ 16) ∧
  (OpcodeP1Reg 0x20 .xchgb ∧ ∀ (s : State) (rn : Reg),
    ∃ t v, exec (.xchgb rn) s = .next t ∧ WritesOnly rn v (s.pc + 4) s t ∧
      v.toNat = (s.reg rn).toNat / 2 ^ 16 * 2 ^ 16 + (s.reg rn).toNat % 2 ^ 8 * 2 ^ 8 +
        (s.reg rn).toNat / 2 ^ 8 % 2 ^ 8)

/-! ### ALU -/

/-- R141 to R144: AND, OR, XOR, BITC. -/
def Obligations.LogicWritesRd : Prop :=
  (OpcodeP3 0x80 .and ∧ OpcodeP3 0x81 .or ∧ OpcodeP3 0x82 .xor ∧ OpcodeP3 0x83 .bitc) ∧
  ∀ (s : State) (rd rs : Reg) (rn : Operand),
    (∃ t, exec (.and rd rs rn) s = .next t ∧ WritesOnly rd (s.reg rs &&& s.opn rn) (s.npc rn) s t) ∧
    (∃ t, exec (.or rd rs rn) s = .next t ∧ WritesOnly rd (s.reg rs ||| s.opn rn) (s.npc rn) s t) ∧
    (∃ t, exec (.xor rd rs rn) s = .next t ∧ WritesOnly rd (s.reg rs ^^^ s.opn rn) (s.npc rn) s t) ∧
    (∃ t, exec (.bitc rd rs rn) s = .next t ∧ WritesOnly rd (s.reg rs &&& ~~~(s.opn rn)) (s.npc rn) s t)

/-- R150, R151, R158: ADD and ADDC, the sum, the carry out of bit 31 and the overflow table. The clause for Rd = `%flags`
(the result wins) is the spec's choice D17. -/
def Obligations.AdditionsWriteSumAndFlags : Prop :=
  (OpcodeP3 0x84 .add ∧ OpcodeP3 0x85 .addc) ∧
  ∀ (s : State) (rd rs : Reg) (rn : Operand),
    (∃ t, exec (.add rd rs rn) s = .next t ∧ SumWritten rd (s.reg rs) (s.opn rn) false (s.npc rn) s t) ∧
    (∃ t, exec (.addc rd rs rn) s = .next t ∧
      SumWritten rd (s.reg rs) (s.opn rn) (s.flag .carry) (s.npc rn) s t)

/-- R152 to R155, R159: SUB, SUBB, RSB, RSBB, the difference, the borrow and the overflow table. The clause for Rd =
`%flags` (the result wins) is the spec's choice D17. -/
def Obligations.SubtractionsWriteDifferenceAndFlags : Prop :=
  (OpcodeP3 0x86 .sub ∧ OpcodeP3 0x87 .subb ∧ OpcodeP3 0x88 .rsb ∧ OpcodeP3 0x89 .rsbb) ∧
  ∀ (s : State) (rd rs : Reg) (rn : Operand),
    (∃ t, exec (.sub rd rs rn) s = .next t ∧ DifferenceWritten rd (s.reg rs) (s.opn rn) false (s.npc rn) s t) ∧
    (∃ t, exec (.subb rd rs rn) s = .next t ∧
      DifferenceWritten rd (s.reg rs) (s.opn rn) (s.flag .carry) (s.npc rn) s t) ∧
    (∃ t, exec (.rsb rd rs rn) s = .next t ∧ DifferenceWritten rd (s.opn rn) (s.reg rs) false (s.npc rn) s t) ∧
    (∃ t, exec (.rsbb rd rs rn) s = .next t ∧
      DifferenceWritten rd (s.opn rn) (s.reg rs) (s.flag .carry) (s.npc rn) s t)

/-- OF says exactly that the operation, done on signed integers with the incoming carry or borrow, leaves the range of 32
bits: what the truth table of 10_state.md section 3 is for. -/
def Obligations.OverflowIsSignedOverflow : Prop :=
  ∀ (s : State) (rd rs : Reg) (rn : Operand), rd ≠ .flags →
    let a := (s.reg rs).toInt
    let b := (s.opn rn).toInt
    let c : Int := (s.flag .carry).toNat
    (∃ t, exec (.add rd rs rn) s = .next t ∧ (t.flag .overflow = true ↔ a + b < -2 ^ 31 ∨ 2 ^ 31 ≤ a + b)) ∧
    (∃ t, exec (.addc rd rs rn) s = .next t ∧ (t.flag .overflow = true ↔ a + b + c < -2 ^ 31 ∨ 2 ^ 31 ≤ a + b + c)) ∧
    (∃ t, exec (.sub rd rs rn) s = .next t ∧ (t.flag .overflow = true ↔ a - b < -2 ^ 31 ∨ 2 ^ 31 ≤ a - b)) ∧
    (∃ t, exec (.subb rd rs rn) s = .next t ∧ (t.flag .overflow = true ↔ a - b - c < -2 ^ 31 ∨ 2 ^ 31 ≤ a - b - c)) ∧
    (∃ t, exec (.rsb rd rs rn) s = .next t ∧ (t.flag .overflow = true ↔ b - a < -2 ^ 31 ∨ 2 ^ 31 ≤ b - a)) ∧
    (∃ t, exec (.rsbb rd rs rn) s = .next t ∧ (t.flag .overflow = true ↔ b - a - c < -2 ^ 31 ∨ 2 ^ 31 ≤ b - a - c))

/-- ADD of the low halves then ADDC of the high halves is a 64-bit addition, and SUB then SUBB a 64-bit subtraction
(42_alu.md section 4), for registers that the first instruction does not overwrite. -/
def Obligations.CarryChainsTo64Bits : Prop :=
  ∀ (s : State) (rlo rhi alo ahi blo bhi : Reg), rlo ≠ .flags → rlo ≠ rhi →
    ahi ≠ rlo → bhi ≠ rlo → ahi ≠ .flags → bhi ≠ .flags →
    let a : BitVec 64 := s.reg ahi ++ s.reg alo
    let b : BitVec 64 := s.reg bhi ++ s.reg blo
    (∃ t u, exec (.add rlo alo (.reg blo)) s = .next t ∧ exec (.addc rhi ahi (.reg bhi)) t = .next u ∧
      (u.reg rhi ++ u.reg rlo : BitVec 64) = a + b) ∧
    (∃ t u, exec (.sub rlo alo (.reg blo)) s = .next t ∧ exec (.subb rhi ahi (.reg bhi)) t = .next u ∧
      (u.reg rhi ++ u.reg rlo : BitVec 64) = a - b)

/-- LLS, LRS and ARS are the shifts of the integers by the whole 32-bit amount, and CF is the last bit shifted out, 0
where there is none (what amounts of 0 and of 32 or more do is the spec's choice D10). -/
def Obligations.ShiftsAreIntegerShifts : Prop :=
  (OpcodeP3 0x8A .lls ∧ OpcodeP3 0x8B .lrs ∧ OpcodeP3 0x8C .ars) ∧
  ∀ (s : State) (rd rs : Reg) (rn : Operand),
    let a := s.reg rs
    let n := (s.opn rn).toNat
    (∃ t, exec (.lls rd rs rn) s = .next t ∧ (t.reg rd).toNat = a.toNat * 2 ^ n % 2 ^ 32 ∧
      FlagWritten .carry ((a.toNat * 2 ^ n).testBit 32) rd [] (s.npc rn) s t) ∧
    (∃ t, exec (.lrs rd rs rn) s = .next t ∧ (t.reg rd).toNat = a.toNat / 2 ^ n ∧
      FlagWritten .carry (decide (1 ≤ n) && a.getLsbD (n - 1)) rd [] (s.npc rn) s t) ∧
    (∃ t, exec (.ars rd rs rn) s = .next t ∧ (t.reg rd).toInt = a.toInt / 2 ^ n ∧
      FlagWritten .carry (if n = 0 then false else if n ≤ 31 then a.getLsbD (n - 1) else a.msb) rd [] (s.npc rn) s t)

/-- ROTL and ROTR move every bit by the amount modulo 32 and write no flag (that the amount counts modulo 32 is the spec's
choice D10). -/
def Obligations.RotatesMoveEveryBit : Prop :=
  (OpcodeP3 0x8D .rotl ∧ OpcodeP3 0x8E .rotr) ∧
  ∀ (s : State) (rd rs : Reg) (rn : Operand),
    (∃ t v, exec (.rotl rd rs rn) s = .next t ∧ WritesOnly rd v (s.npc rn) s t ∧
      ∀ i < 32, v.getLsbD ((i + (s.opn rn).toNat) % 32) = (s.reg rs).getLsbD i) ∧
    (∃ t v, exec (.rotr rd rs rn) s = .next t ∧ WritesOnly rd v (s.npc rn) s t ∧
      ∀ i < 32, v.getLsbD i = (s.reg rs).getLsbD ((i + (s.opn rn).toNat) % 32))

/-- MUL and SMUL: `%y` and Rd together are the exact 64-bit product, unsigned or signed; no flag is written (42_alu.md
section 5). Where Rd is `%y` it ends as the high half (the spec's choice D17). -/
def Obligations.ProductsAreExact : Prop :=
  (OpcodeP3 0x8F .mul ∧ OpcodeP3 0x90 .smul) ∧
  ∀ (s : State) (rd rs : Reg) (rn : Operand),
    (∃ t, exec (.mul rd rs rn) s = .next t ∧ RegsExcept [rd, .y] s t ∧ NoAccess (s.npc rn) s t ∧
      (rd ≠ .y → (t.reg .y).toNat * 2 ^ 32 + (t.reg rd).toNat = (s.reg rs).toNat * (s.opn rn).toNat) ∧
      (rd = .y → (t.reg .y).toNat = (s.reg rs).toNat * (s.opn rn).toNat / 2 ^ 32)) ∧
    (∃ t, exec (.smul rd rs rn) s = .next t ∧ RegsExcept [rd, .y] s t ∧ NoAccess (s.npc rn) s t ∧
      (rd ≠ .y → (t.reg .y).toInt * 2 ^ 32 + (t.reg rd).toNat = (s.reg rs).toInt * (s.opn rn).toInt) ∧
      (rd = .y → (t.reg .y).toInt = (s.reg rs).toInt * (s.opn rn).toInt / 2 ^ 32))

/-- DIV by a non-zero divisor: dividend = quotient * divisor + remainder, remainder below the divisor, DE = 0. By zero:
DE = 1 and Rd and `%y` keep their values (the spec's choices D11 and D12; Rd = `%y` and Rd = `%flags` D17). -/
def Obligations.UnsignedDivision : Prop :=
  OpcodeP3 0x91 .div ∧ ∀ (s : State) (rd rs : Reg) (rn : Operand),
    (s.opn rn = 0 → ∃ t, exec (.div rd rs rn) s = .next t ∧ t.flag .divError = true ∧
      FlagBitsExcept [.divError] s t ∧ RegsExcept [.flags] s t ∧ NoAccess (s.npc rn) s t) ∧
    (s.opn rn ≠ 0 → ∃ t, exec (.div rd rs rn) s = .next t ∧
      (rd ≠ .y → (s.reg rs).toNat = (t.reg rd).toNat * (s.opn rn).toNat + (t.reg .y).toNat) ∧
      (t.reg .y).toNat = (s.reg rs).toNat % (s.opn rn).toNat ∧
      FlagWritten .divError false rd [.y] (s.npc rn) s t)

/-- SDIV by a non-zero divisor: the quotient rounds toward zero and the remainder has the dividend's sign; -2^31 by -1
gives -2^31 and remainder 0. By zero: DE = 1 and Rd and `%y` keep their values (the spec's choices D11 to D13 and D17). -/
def Obligations.SignedDivision : Prop :=
  OpcodeP3 0x92 .sdiv ∧ ∀ (s : State) (rd rs : Reg) (rn : Operand),
    let a := (s.reg rs).toInt
    let b := (s.opn rn).toInt
    (s.opn rn = 0 → ∃ t, exec (.sdiv rd rs rn) s = .next t ∧ t.flag .divError = true ∧
      FlagBitsExcept [.divError] s t ∧ RegsExcept [.flags] s t ∧ NoAccess (s.npc rn) s t) ∧
    (s.opn rn ≠ 0 → ∃ t, exec (.sdiv rd rs rn) s = .next t ∧
      (rd ≠ .y → ¬(a = -2 ^ 31 ∧ b = -1) → a = (t.reg rd).toInt * b + (t.reg .y).toInt) ∧
      (rd ≠ .y → a = -2 ^ 31 → b = -1 → (t.reg rd).toInt = -2 ^ 31 ∧ (t.reg .y).toInt = 0) ∧
      (t.reg .y).toInt.natAbs < b.natAbs ∧ (0 ≤ a → 0 ≤ (t.reg .y).toInt) ∧ (a ≤ 0 → (t.reg .y).toInt ≤ 0) ∧
      (rd = .y → (t.reg .y).toInt = a - a.tdiv b * b) ∧
      FlagWritten .divError false rd [.y] (s.npc rn) s t)

/-! ### Skips -/

/-- The eight tests: each compares as its rule says; where the test holds the next instruction is next, where it fails
the skip is taken (43_skip.md section 2; the skip itself is the spec's choice D22, the stop where it never ends is the
model's, log entry 7). -/
def Obligations.TestsDecideTheSkip : Prop :=
  (OpcodeP2 0x4B .ifeq ∧ OpcodeP2 0x4C .ifneq ∧ OpcodeP2 0x4D .ifl ∧ OpcodeP2 0x4E .ifsl ∧ OpcodeP2 0x4F .ifle ∧
    OpcodeP2 0x50 .ifsle ∧ OpcodeP2 0x51 .ifbits ∧ OpcodeP2 0x52 .ifclear) ∧
  ∀ (s : State) (rd : Reg) (rn : Operand),
    TestDecides (s.reg rd = s.opn rn) rn (exec (.ifeq rd rn) s) s ∧
    TestDecides (s.reg rd ≠ s.opn rn) rn (exec (.ifneq rd rn) s) s ∧
    TestDecides ((s.reg rd).toNat < (s.opn rn).toNat) rn (exec (.ifl rd rn) s) s ∧
    TestDecides ((s.reg rd).toInt < (s.opn rn).toInt) rn (exec (.ifsl rd rn) s) s ∧
    TestDecides ((s.reg rd).toNat ≤ (s.opn rn).toNat) rn (exec (.ifle rd rn) s) s ∧
    TestDecides ((s.reg rd).toInt ≤ (s.opn rn).toInt) rn (exec (.ifsle rd rn) s) s ∧
    TestDecides (∃ k, (s.reg rd).getLsbD k = true ∧ (s.opn rn).getLsbD k = true) rn (exec (.ifbits rd rn) s) s ∧
    TestDecides (∀ k, ¬((s.reg rd).getLsbD k = true ∧ (s.opn rn).getLsbD k = true)) rn (exec (.ifclear rd rn) s) s

/-- The bounded skip of the model is the unbounded loop of R171: a dword that is not conditional ends it after that one
instruction (4 or 8 bytes), a conditional one is passed over and the loop goes on, with no bound left behind (the loop is
the spec's choice D22; that 2^30 rounds are enough is the model's inference, log entry 7). -/
def Obligations.SkipIsTheUnboundedLoop : Prop :=
  ∀ (s : State) (a : Dword),
    let w := s.readDword .skip a
    let next := if hasLiteral w then a + 8 else a + 4
    (¬(0x4B ≤ (w.extractLsb' 24 8).toNat ∧ (w.extractLsb' 24 8).toNat ≤ 0x52) → SkipEnds s a [a] next) ∧
    (0x4B ≤ (w.extractLsb' 24 8).toNat ∧ (w.extractLsb' 24 8).toNat ≤ 0x52 →
      (∀ visited target, SkipEnds s next visited target → SkipEnds s a (a :: visited) target) ∧
      (∀ visited target, SkipEnds s a visited target → ∃ more, visited = a :: more ∧ SkipEnds s next more target))

/-! ### Jumps, calls, return -/

/-- R185, R187: the absolute jumps. -/
def Obligations.AbsoluteJumpsSetPc : Prop :=
  (OpcodeP2 0x53 .jmpP2 ∧ OpcodeP1 0x25 .jmpP1) ∧ ∀ (s : State) (rd : Reg) (rn : Operand),
    (∃ t, exec (.jmpP2 rd rn) s = .next t ∧ RegsExcept [] s t ∧
      NoAccess ((s.reg rd + s.opn rn) &&& 0xFFFFFFFC) s t) ∧
    (∃ t, exec (.jmpP1 rn) s = .next t ∧ RegsExcept [] s t ∧ NoAccess (s.opn rn &&& 0xFFFFFFFC) s t)

/-- GETPC writes the address of the instruction after it, and RJMP jumps relative to that same address (the spec's choice
D15 among the meanings of "%pc"). -/
def Obligations.GetpcAndRjmpUseNextAddress : Prop :=
  (OpcodeP1Reg 0x22 .getpc ∧ ∀ (s : State) (rn : Reg),
    ∃ t, exec (.getpc rn) s = .next t ∧ WritesOnly rn (s.pc + 4) (s.pc + 4) s t) ∧
  (OpcodeP1 0x27 .rjmp ∧ ∀ (s : State) (rn : Operand),
    ∃ t, exec (.rjmp rn) s = .next t ∧ RegsExcept [] s t ∧ NoAccess ((s.npc rn + s.opn rn) &&& 0xFFFFFFFC) s t)

/-- R192: every jump and call rounds its target down to a multiple of 4; that the relative forms count from the next
instruction is the spec's choice D15, that RET loads pc unmasked D16 (log entry 15). -/
def Obligations.JumpTargetsAreAligned : Prop :=
  ∀ (s : State) (rd : Reg) (rn : Operand),
    (∃ t, exec (.jmpP2 rd rn) s = .next t ∧ t.pc.toNat = (s.reg rd + s.opn rn).toNat / 4 * 4) ∧
    (∃ t, exec (.callP2 rd rn) s = .next t ∧ t.pc.toNat = (s.reg rd + s.opn rn).toNat / 4 * 4) ∧
    (∃ t, exec (.jmpP1 rn) s = .next t ∧ t.pc.toNat = (s.opn rn).toNat / 4 * 4) ∧
    (∃ t, exec (.callP1 rn) s = .next t ∧ t.pc.toNat = (s.opn rn).toNat / 4 * 4) ∧
    (∃ t, exec (.rjmp rn) s = .next t ∧ t.pc.toNat = (s.npc rn + s.opn rn).toNat / 4 * 4) ∧
    (∃ t, exec (.rcall rn) s = .next t ∧ t.pc.toNat = (s.npc rn + s.opn rn).toNat / 4 * 4) ∧
    (∃ t, exec .ret s = .next t ∧ t.pc = s.readDword .stack (s.reg .sp))

/-- The calls push the address of the instruction after them and go to their target, computed from the registers as they
were before the push (the pushed value is the spec's choice D15, the order D17, the stack convention D2). -/
def Obligations.CallsPushReturnAddress : Prop :=
  (OpcodeP2 0x54 .callP2 ∧ OpcodeP1 0x26 .callP1 ∧ OpcodeP1 0x28 .rcall) ∧ ∀ (s : State) (rd : Reg) (rn : Operand),
    (∃ t, exec (.callP2 rd rn) s = .next t ∧
      Pushed (s.npc rn) ((s.reg rd + s.opn rn) &&& 0xFFFFFFFC) s t) ∧
    (∃ t, exec (.callP1 rn) s = .next t ∧ Pushed (s.npc rn) (s.opn rn &&& 0xFFFFFFFC) s t) ∧
    (∃ t, exec (.rcall rn) s = .next t ∧ Pushed (s.npc rn) ((s.npc rn + s.opn rn) &&& 0xFFFFFFFC) s t)

/-- RET pops the program counter, unmasked (the spec's choices D2 and D16). -/
def Obligations.RetPopsPc : Prop :=
  ∀ s : State, ∃ t, exec .ret s = .next t ∧ t.pc = s.readDword .stack (s.reg .sp) ∧
    t.reg .sp = s.reg .sp + 4 ∧ RegsExcept [.sp] s t ∧ MemorySame s t ∧
    t.bus = s.bus ++ [.read .stack (s.reg .sp) 4] ∧ t.sleeping = s.sleeping ∧ PlatformSame s t

/-- A RET right after a call resumes at the instruction after the call, with every register as before the call (44_jump_call.md
rules R191 and R193, the second the spec's choice D15). -/
def Obligations.RetAfterCallResumes : Prop :=
  ∀ (s : State) (rd : Reg) (rn : Operand), RamAt s (s.reg .sp - 4) 4 →
    (∃ t u, exec (.callP2 rd rn) s = .next t ∧ exec .ret t = .next u ∧ u.pc = s.npc rn ∧ RegsExcept [] s u) ∧
    (∃ t u, exec (.callP1 rn) s = .next t ∧ exec .ret t = .next u ∧ u.pc = s.npc rn ∧ RegsExcept [] s u) ∧
    (∃ t u, exec (.rcall rn) s = .next t ∧ exec .ret t = .next u ∧ u.pc = s.npc rn ∧ RegsExcept [] s u)

/-! ### Stack -/

/-- PUSH stores the register's value before `%sp` moved (the spec's choices D2 and D17). -/
def Obligations.PushStoresRegister : Prop :=
  OpcodeP1Reg 0x24 .push ∧ ∀ (s : State) (rn : Reg),
    ∃ t, exec (.push rn) s = .next t ∧ Pushed (s.reg rn) (s.pc + 4) s t

/-- POP loads the register from the top of the stack and raises `%sp` by 4, unless the register is `%sp` itself (the
spec's choices D2 and D17). -/
def Obligations.PopLoadsRegister : Prop :=
  OpcodeP1Reg 0x23 .pop ∧ ∀ (s : State) (rn : Reg),
    ∃ t, exec (.pop rn) s = .next t ∧ t.reg rn = s.readDword .stack (s.reg .sp) ∧
      (rn ≠ .sp → t.reg .sp = s.reg .sp + 4) ∧ RegsExcept [rn, .sp] s t ∧ MemorySame s t ∧
      t.bus = s.bus ++ [.read .stack (s.reg .sp) 4] ∧ t.sleeping = s.sleeping ∧ PlatformSame s t ∧ t.pc = s.pc + 4

/-! ### Special instructions and interrupts -/

/-- SLEEP: `pc <- npc`, `sleeping <- 1`, nothing else (46_special_interrupt.md; the state `sleeping` is of D21). -/
def Obligations.SleepSetsSleeping : Prop :=
  ∀ s : State, ∃ t, exec .sleep s = .next t ∧ t.sleeping = true ∧ t.pc = s.pc + 4 ∧ RegsExcept [] s t ∧
    MemorySame s t ∧ t.bus = s.bus ∧ PlatformSame s t

/-- INT, accepted and with a non-zero vector entry: the entry sequence, with the whole operand as the message and the
address after the INT as the return address (60_exceptions.md section 3; the width of the message is the spec's choice
D31). -/
def Obligations.IntEntersHandler : Prop :=
  OpcodeP1 0x29 .int ∧ ∀ (s : State) (rn : Operand),
    let vec := s.readDword (.vector .software) (s.reg .ia + 4 * ((s.opn rn).extractLsb' 0 8).setWidth 32)
    s.Accepts → vec ≠ 0 →
      ∃ t, exec (.int rn) s = .next t ∧ HandlerEntered (s.opn rn) vec (s.npc rn) s t ∧ PlatformSame s t ∧
        t.bus = s.bus ++ entryAccesses .software (s.opn rn) (s.npc rn) s

/-- R229: an INT with EI = 0 or IF = 1, or with a zero vector entry, changes nothing but `pc`; it takes 6 cycles. Where
EI = 1 and IF = 0, the vector read that finds the zero is its only access (R228), on the model's bus record (log entry 6). -/
def Obligations.IntNotAcceptedIsNop : Prop :=
  ∀ (s : State) (rn : Operand),
    let entry := s.reg .ia + 4 * ((s.opn rn).extractLsb' 0 8).setWidth 32
    (¬s.Accepts → ∃ t, exec (.int rn) s = .next t ∧ RegsExcept [] s t ∧ NoAccess (s.npc rn) s t) ∧
    (s.Accepts → s.readDword (.vector .software) entry = 0 →
      ∃ t, exec (.int rn) s = .next t ∧ RegsExcept [] s t ∧ MemorySame s t ∧ t.sleeping = s.sleeping ∧
        PlatformSame s t ∧ t.pc = s.npc rn ∧ t.bus = s.bus ++ [.read (.vector .software) entry 4]) ∧
    baseCycles (.int rn) = 6

/-- RFI pops `pc` and `%r0` and clears IF, whether or not IF was set; EI, ESS and the other bits stay (46_special_interrupt.md,
60_exceptions.md section 6; with IF = 0 it is the spec's choice D25). -/
def Obligations.RfiPopsPcAndR0 : Prop :=
  ∀ s : State, ∃ t, exec .rfi s = .next t ∧ t.pc = s.readDword .stack (s.reg .sp) ∧
    t.reg .r0 = s.readDword .stack (s.reg .sp + 4) ∧ t.reg .sp = s.reg .sp + 8 ∧
    t.flag .interrupt = false ∧ t.iacq = false ∧ FlagBitsExcept [.interrupt] s t ∧ RegsExcept [.r0, .sp, .flags] s t ∧
    MemorySame s t ∧ t.bus = s.bus ++ [.read .stack (s.reg .sp) 4, .read .stack (s.reg .sp + 4) 4] ∧
    t.sleeping = s.sleeping ∧ PlatformSame s t

/-- R226: the entry sequence, for each of the three sources: where EI = 1 and IF = 0 and the vector entry is not zero, the
two pushes, `%r0`, `pc`, IF, and the CPU awake, with the accesses in this order; where the entry is zero, no access but
the vector read, and around it the empty handshake of a hardware source; where EI = 0 or IF = 1, nothing. Where the two
pushed dwords stand is the spec's choice D2 (log entry 11), what a zero entry leaves of the handshake and of `sleeping`
D20 (log entry 14); the record of the accesses is the model's (log entry 6). -/
def Obligations.TakeInterruptEntersHandler : Prop :=
  ∀ (s : State) (source : Source) (msg : Dword),
    let entry := s.reg .ia + 4 * (msg.extractLsb' 0 8).setWidth 32
    let vec := s.readDword (.vector source) entry
    let t := s.takeInterrupt source msg
    (s.Accepts → vec ≠ 0 →
      HandlerEntered msg vec s.pc s t ∧ t.iacq = true ∧ PlatformSame s t ∧
      t.bus = s.bus ++ (if source = .hardware then [.message msg] else []) ++ entryAccesses source msg s.pc s) ∧
    (s.Accepts → vec = 0 →
      RegsExcept [] s t ∧ MemorySame s t ∧ t.pc = s.pc ∧ t.sleeping = s.sleeping ∧ PlatformSame s t ∧
      t.bus = s.bus ++ (if source = .hardware then [.message msg] else []) ++ [.read (.vector source) entry 4] ++
        (if source = .hardware then [.handshakeAborted] else [])) ∧
    (¬s.Accepts → t = s)

/-- The return undoes the entry: an RFI executed right after an interrupt of any source was taken, with the stack in RAM,
leaves every register, `%flags` included, and `pc` as they were before the interrupt, and only the 8 bytes below the old
`%sp` may differ (60_exceptions.md sections 3 and 6: "It restores exactly what entry saved"). -/
def Obligations.RfiUndoesInterruptEntry : Prop :=
  ∀ (s : State) (source : Source) (msg : Dword), s.Accepts →
    s.readDword (.vector source) (s.reg .ia + 4 * (msg.extractLsb' 0 8).setWidth 32) ≠ 0 →
    RamAt s (s.reg .sp - 8) 8 →
    ∃ u, exec .rfi (s.takeInterrupt source msg) = .next u ∧ RegsExcept [] s u ∧ u.pc = s.pc ∧ u.sleeping = false ∧
      MemoryOutside (s.reg .sp - 8) 8 s u ∧ PlatformSame s u

/-! ### The step -/

/-- A step at a quiet boundary of an awake machine at an aligned `pc` runs the instruction that the dwords at `pc` decode
to: `exec` of it on the state with the fetch on the bus, then the single-step trap where it was armed before the
instruction, then the end of the step (60_exceptions.md section 8). -/
def Obligations.StepRunsDecodedInstruction : Prop :=
  ∀ (s : State) (i : Instr), s.Ready → i.wf = true → decodeDwords s.fetchedWord s.fetchedLiteral = .ok i →
    (∀ t, exec i s.beginStep.logFetch = .next t →
      step s = .next (t.afterInstruction (s.flag .singleStep && !s.flag .interrupt)).endStep) ∧
    (∀ r, exec i s.beginStep.logFetch = .fault r → step s = .fault r)

/-- The dword 0x40000000 (NOP) with single-step off changes `pc` and nothing else of the machine (46_special_interrupt.md,
"Does nothing"). -/
def Obligations.NopStepOnlyAdvances : Prop :=
  ∀ s : State, s.Ready → s.fetchedWord = 0x40000000 → s.flag .singleStep = false →
    ∃ t, step s = .next t ∧ RegsExcept [] s t ∧ t.mem = s.mem ∧ ParametersSame s t ∧ t.sleeping = false ∧
      t.pc = s.pc + 4

/-- A hardware interrupt offered at a boundary with EI = 1, IF = 0 and a non-zero vector entry is taken as a step of its
own, awake or asleep: no instruction runs, and the return address is the next instruction's (60_exceptions.md sections 2
and 8; that it happens only at a boundary is the spec's choice D20). -/
def Obligations.HardwareInterruptIsTaken : Prop :=
  ∀ (s : State) (msg : Dword),
    let vec := s.readDword (.vector .hardware) (s.reg .ia + 4 * (msg.extractLsb' 0 8).setWidth 32)
    s.Offers msg → s.Accepts → vec ≠ 0 →
      ∃ t, step s = .next t.endStep ∧ HandlerEntered msg vec s.pc s t ∧ ParametersSame s t ∧ t.tick = s.tick ∧
        t.env = s.env.tail ∧ t.bus = .message msg :: entryAccesses .hardware msg s.pc s

/-- A hardware interrupt whose vector entry is zero changes no register and no byte and does not wake the CPU; the device
sees the handshake begin and end (the spec's choice D20). -/
def Obligations.ZeroVectorAbortsHardwareInterrupt : Prop :=
  ∀ (s : State) (msg : Dword), s.Offers msg → s.Accepts →
    s.readDword (.vector .hardware) (s.reg .ia + 4 * (msg.extractLsb' 0 8).setWidth 32) = 0 →
    ∃ t, step s = .next t ∧ RegsExcept [] s t ∧ t.pc = s.pc ∧ t.sleeping = s.sleeping ∧ t.mem = s.mem ∧
      ParametersSame s t ∧ t.env = s.env.tail ∧
      t.bus = [.message msg, .read (.vector .hardware) (s.reg .ia + 4 * (msg.extractLsb' 0 8).setWidth 32) 4,
        .handshakeAborted]

/-- An offered hardware interrupt that is not accepted (EI = 0 or IF = 1) changes nothing: the step is the one without the
offer (60_exceptions.md section 2, "the CPU does nothing"). -/
def Obligations.UnacceptedOfferIsIgnored : Prop :=
  ∀ (s : State) (msg : Dword), s.Offers msg → ¬s.Accepts →
    step s = step { s with env := .boundary none :: s.env.tail }

/-- The single-step trap (the spec's choice D19). After an instruction that began with ESS = 1 and IF = 0: where it left
EI = 1 and IF = 0 and vector 0 is not zero, the step ends in the handler of message 0, the return address being the `pc`
the instruction left; where it left EI = 1 and IF = 0 and vector 0 is zero, the trap is dropped after the vector read;
where it left EI = 0 or IF = 1, the trap is dropped and nothing is read. An instruction that began with ESS = 0 or IF = 1
(an RFI of a handler among them) is not followed by one. -/
def Obligations.SingleStepTrapFollowsInstruction : Prop :=
  ∀ (s t : State) (i : Instr), s.Ready → decodeDwords s.fetchedWord s.fetchedLiteral = .ok i →
    exec i s.beginStep.logFetch = .next t →
    let vec := t.readDword (.vector .singleStep) (t.reg .ia)
    (s.flag .singleStep = true → s.flag .interrupt = false →
      (t.Accepts → vec ≠ 0 → ∃ u, step s = .next u.endStep ∧ HandlerEntered 0 vec t.pc t u ∧ PlatformSame t u ∧
        u.bus = t.bus ++ entryAccesses .singleStep 0 t.pc t) ∧
      (t.Accepts → vec = 0 → ∃ u, step s = .next u.endStep ∧ RegsExcept [] t u ∧ MemorySame t u ∧ u.pc = t.pc ∧
        u.sleeping = t.sleeping ∧ PlatformSame t u ∧ u.bus = t.bus ++ [.read (.vector .singleStep) (t.reg .ia) 4]) ∧
      (¬t.Accepts → step s = .next t.endStep)) ∧
    (s.flag .singleStep = false ∨ s.flag .interrupt = true → step s = .next t.endStep)

/-- A fetch from a `pc` that is no multiple of 4 stops with `MisalignedFetch(pc)` (the spec's choice D16). -/
def Obligations.MisalignedFetchFaults : Prop :=
  ∀ s : State, s.Quiet → s.sleeping = false → ¬4 ∣ s.pc.toNat → step s = .fault (.misalignedFetch s.pc)

/-- What leaves the CPU as it is. A sleeping CPU sleeps on for any number of steps without a reset edge, where it cannot
accept an interrupt (EI = 0 or IF = 1), whatever the devices offer, and where none is offered any more (the end of a run),
whatever its flags (the spec's choices D21 and D32). A hold by `_Wait` changes nothing of a CPU, awake or asleep. The
writes of other masters change memory only: each RAM byte holds the last one written to it, and without OTHER_MASTERS
there are none. That waits and other masters' writes are steps of their own is the model's form (log entries 4 and 18). -/
def Obligations.SleepingOrHeldCpuKeepsItsState : Prop :=
  (∀ (n : Nat) (s : State), s.sleeping = true → (∀ m ∈ s.env, ∀ hw landed, m ≠ .reset hw landed) →
    (¬s.Accepts ∨ s.Ended) →
    ∃ t, Sys2Proof.core.run n s = .next t ∧ t.sleeping = true ∧ RegsExcept [] s t ∧ t.pc = s.pc ∧ ParametersSame s t ∧
      (s.otherMasters = false → t.mem = s.mem)) ∧
  (∀ s : State, s.env.head? = some .wait →
    ∃ t, step s = .next t ∧ RegsExcept [] s t ∧ t.pc = s.pc ∧ t.sleeping = s.sleeping ∧ t.mem = s.mem ∧
      ParametersSame s t ∧ t.env = s.env.tail ∧ t.bus = []) ∧
  (∀ (s : State) (writes : List ByteWrite), s.env.head? = some (.masters writes) →
    ∃ t, step s = .next t ∧ RegsExcept [] s t ∧ t.pc = s.pc ∧ t.sleeping = s.sleeping ∧ ParametersSame s t ∧
      t.env = s.env.tail ∧ t.bus = [] ∧ (s.otherMasters = false → t.mem = s.mem) ∧
      (∀ a : Dword, a ∉ writes.map Prod.fst → t.mem.read a.toNat = s.mem.read a.toNat) ∧
      (s.otherMasters = true → ∀ earlier later a b, writes = earlier ++ (a, b) :: later → a ∉ later.map Prod.fst →
        s.kindAt a = .ram → t.mem.read a.toNat = b))

/-- The reset edge: every register, `pc` and `sleeping` 0 (the spec's choice D29). A byte of RAM that the replaced step was
going to write may hold any value, namely the one the environment's move names for it, else the old one; every other byte
is as before, and where the step would have stopped no byte changes. That the open bytes (U46, "any value") are a list the
environment gives is the model's form (log entry 16). -/
def Obligations.ResetEdgeClearsCpu : Prop :=
  ∀ (s : State) (hw : Option Dword) (landed : List ByteWrite), s.env.head? = some (.reset hw landed) →
    ∃ t, step s = .next t ∧ (∀ r, t.reg r = 0) ∧ t.pc = 0 ∧ t.sleeping = false ∧ t.iacq = false ∧
      ParametersSame s t ∧ t.env = s.env.tail ∧
      (∀ a : Dword, a ∉ landed.map Prod.fst → t.mem.read a.toNat = s.mem.read a.toNat) ∧
      ((∀ u, s.beginStep.boundary hw ≠ .next u) → ∀ a : Dword, t.mem.read a.toNat = s.mem.read a.toNat) ∧
      ∀ u, s.beginStep.boundary hw = .next u →
        (∀ a ∉ u.bus.flatMap BusEvent.written, t.mem.read a.toNat = s.mem.read a.toNat) ∧
        ∀ earlier later a b, landed = earlier ++ (a, b) :: later → a ∉ later.map Prod.fst →
          a ∈ u.bus.flatMap BusEvent.written → s.kindAt a = .ram → t.mem.read a.toNat = b

/-- `State.reset` is the state of 10_state.md section 5: all registers, `pc` and `sleeping` 0, so interrupts are not
accepted; no other masters, the default of OTHER_MASTERS; and a reset edge in any state, in place of any step, gives the
same registers, `pc` and `sleeping`. -/
def Obligations.ResetStateIsAllZero : Prop :=
  (∀ r, State.reset.reg r = 0) ∧ State.reset.pc = 0 ∧ State.reset.sleeping = false ∧ State.reset.iacq = false ∧
    ¬State.reset.Accepts ∧ State.reset.otherMasters = false ∧
    ∀ (s : State) (hw : Option Dword) (landed : List ByteWrite),
      (s.resetEdge hw landed).regs = State.reset.regs ∧ (s.resetEdge hw landed).pc = State.reset.pc ∧
        (s.resetEdge hw landed).sleeping = State.reset.sleeping

/-! ### The whole machine -/

/-- The reset state satisfies the invariant. -/
def Obligations.ResetSatisfiesInvariant : Prop := State.reset.Inv

/-- Every step, from any state that satisfies the invariant, under any move of the environment, keeps it: memory stays in
canonical form (the model's own invariant, log entry 1). -/
def Obligations.StepKeepsInvariant : Prop := ∀ s t : State, s.Inv → step s = .next t → t.Inv

/-- Which instruction writes which flag: an instruction that does not name `%flags` as destination leaves every bit of it
but those the table `implicitFlags` lists for it; so EI, ESS and the reserved bits are written by no instruction that
does not name `%flags`, IF by INT and RFI only, DE by divisions, OF by additions and subtractions, CF by those and the
shifts (10_state.md section 3; for the instructions whose flags the source does not speak of, the spec's choice D9). -/
def Obligations.FlagsAreWrittenOnlyAsListed : Prop :=
  ∀ (i : Instr) (s t : State), exec i s = .next t → .flags ∉ destinations i → FlagBitsExcept (implicitFlags i) s t

/-- Which instruction writes which register: only its destinations, the implicit registers listed for it, and `%flags`
where it writes a flag; so `%ia` and `%bp` are never written implicitly, `%y` only by products and divisions (10_state.md
section 1). -/
def Obligations.RegistersAreWrittenOnlyAsListed : Prop :=
  ∀ (i : Instr) (s t : State) (r : Reg), exec i s = .next t → r ∉ destinations i → r ∉ implicitRegs i →
    (r = .flags → implicitFlags i = []) → t.reg r = s.reg r

/-- Every instruction completes in every state, whatever its operands and the flags: there is no exception and no
privilege; only a test that fails and whose skip never ends leaves no next state (60_exceptions.md sections 1 and 7, the
spec's choices D5 and D28; the stop is the model's, log entry 7). -/
def Obligations.EveryInstructionCompletes : Prop :=
  ∀ (i : Instr) (s : State), (∃ t, exec i s = .next t) ∨
    ∃ rn, FailedTest i rn s ∧ SkipNeverEnds s (s.npc rn) ∧ exec i s = .fault (.skipNeverEnds s.pc)

/-- A step is never refused, and it stops only where `pc` is no multiple of 4, where the dword at `pc` is no instruction,
or where it is a test that fails and whose skip never ends (60_exceptions.md section 1, the spec's choices D5 and D16; the
third stop is the model's, log entry 7). -/
def Obligations.StepStopsOnlyAsNamed : Prop :=
  ∀ s : State, (∀ r, step s ≠ .refused r) ∧ ∀ r, step s = .fault r →
    (r = .misalignedFetch s.pc ∧ ¬4 ∣ s.pc.toNat) ∨
    (r = .unrecognisedInstruction s.pc s.fetchedWord ∧ NotRecognised s.fetchedWord) ∨
    (r = .skipNeverEnds s.pc ∧ ∃ i rn, decodeDwords s.fetchedWord s.fetchedLiteral = .ok i ∧ FailedTest i rn s ∧
      SkipNeverEnds s (s.npc rn))
end

