-- ==== Sys2Proof/Laws/State.lean ====
section
/-! SUPPORT. One lemma per field for every update of the state, and the laws of registers and flag bits over them. -/

namespace Sys2Proof.Machine

@[simp] theorem setReg_regs (s : State) (r : Reg) (v : Dword) : (s.setReg r v).regs = s.regs.set r v := rfl
@[simp] theorem setReg_pc (s : State) (r : Reg) (v : Dword) : (s.setReg r v).pc = s.pc := rfl
@[simp] theorem setReg_sleeping (s : State) (r : Reg) (v : Dword) : (s.setReg r v).sleeping = s.sleeping := rfl
@[simp] theorem setReg_mem (s : State) (r : Reg) (v : Dword) : (s.setReg r v).mem = s.mem := rfl
@[simp] theorem setReg_memMap (s : State) (r : Reg) (v : Dword) : (s.setReg r v).memMap = s.memMap := rfl
@[simp] theorem setReg_otherMasters (s : State) (r : Reg) (v : Dword) : (s.setReg r v).otherMasters = s.otherMasters := rfl
@[simp] theorem setReg_env (s : State) (r : Reg) (v : Dword) : (s.setReg r v).env = s.env := rfl
@[simp] theorem setReg_tick (s : State) (r : Reg) (v : Dword) : (s.setReg r v).tick = s.tick := rfl
@[simp] theorem setReg_bus (s : State) (r : Reg) (v : Dword) : (s.setReg r v).bus = s.bus := rfl

@[simp] theorem setPc_regs (s : State) (t : Dword) : (s.setPc t).regs = s.regs := rfl
@[simp] theorem setPc_pc (s : State) (t : Dword) : (s.setPc t).pc = t := rfl
@[simp] theorem setPc_sleeping (s : State) (t : Dword) : (s.setPc t).sleeping = s.sleeping := rfl
@[simp] theorem setPc_mem (s : State) (t : Dword) : (s.setPc t).mem = s.mem := rfl
@[simp] theorem setPc_memMap (s : State) (t : Dword) : (s.setPc t).memMap = s.memMap := rfl
@[simp] theorem setPc_otherMasters (s : State) (t : Dword) : (s.setPc t).otherMasters = s.otherMasters := rfl
@[simp] theorem setPc_env (s : State) (t : Dword) : (s.setPc t).env = s.env := rfl
@[simp] theorem setPc_tick (s : State) (t : Dword) : (s.setPc t).tick = s.tick := rfl
@[simp] theorem setPc_bus (s : State) (t : Dword) : (s.setPc t).bus = s.bus := rfl

@[simp] theorem setSleeping_regs (s : State) (b : Bool) : (s.setSleeping b).regs = s.regs := rfl
@[simp] theorem setSleeping_pc (s : State) (b : Bool) : (s.setSleeping b).pc = s.pc := rfl
@[simp] theorem setSleeping_sleeping (s : State) (b : Bool) : (s.setSleeping b).sleeping = b := rfl
@[simp] theorem setSleeping_mem (s : State) (b : Bool) : (s.setSleeping b).mem = s.mem := rfl
@[simp] theorem setSleeping_memMap (s : State) (b : Bool) : (s.setSleeping b).memMap = s.memMap := rfl
@[simp] theorem setSleeping_otherMasters (s : State) (b : Bool) : (s.setSleeping b).otherMasters = s.otherMasters := rfl
@[simp] theorem setSleeping_env (s : State) (b : Bool) : (s.setSleeping b).env = s.env := rfl
@[simp] theorem setSleeping_tick (s : State) (b : Bool) : (s.setSleeping b).tick = s.tick := rfl
@[simp] theorem setSleeping_bus (s : State) (b : Bool) : (s.setSleeping b).bus = s.bus := rfl

@[simp] theorem log_regs (s : State) (e : BusEvent) : (s.log e).regs = s.regs := rfl
@[simp] theorem log_pc (s : State) (e : BusEvent) : (s.log e).pc = s.pc := rfl
@[simp] theorem log_sleeping (s : State) (e : BusEvent) : (s.log e).sleeping = s.sleeping := rfl
@[simp] theorem log_mem (s : State) (e : BusEvent) : (s.log e).mem = s.mem := rfl
@[simp] theorem log_memMap (s : State) (e : BusEvent) : (s.log e).memMap = s.memMap := rfl
@[simp] theorem log_otherMasters (s : State) (e : BusEvent) : (s.log e).otherMasters = s.otherMasters := rfl
@[simp] theorem log_env (s : State) (e : BusEvent) : (s.log e).env = s.env := rfl
@[simp] theorem log_tick (s : State) (e : BusEvent) : (s.log e).tick = s.tick := rfl
@[simp] theorem log_bus (s : State) (e : BusEvent) : (s.log e).bus = s.bus ++ [e] := rfl

@[simp] theorem logSkipped_regs (s : State) (visited : List Dword) : (s.logSkipped visited).regs = s.regs := rfl
@[simp] theorem logSkipped_pc (s : State) (visited : List Dword) : (s.logSkipped visited).pc = s.pc := rfl
@[simp] theorem logSkipped_sleeping (s : State) (visited : List Dword) : (s.logSkipped visited).sleeping = s.sleeping := rfl
@[simp] theorem logSkipped_mem (s : State) (visited : List Dword) : (s.logSkipped visited).mem = s.mem := rfl
@[simp] theorem logSkipped_memMap (s : State) (visited : List Dword) : (s.logSkipped visited).memMap = s.memMap := rfl
@[simp] theorem logSkipped_otherMasters (s : State) (visited : List Dword) : (s.logSkipped visited).otherMasters = s.otherMasters := rfl
@[simp] theorem logSkipped_env (s : State) (visited : List Dword) : (s.logSkipped visited).env = s.env := rfl
@[simp] theorem logSkipped_tick (s : State) (visited : List Dword) : (s.logSkipped visited).tick = s.tick := rfl
@[simp] theorem logSkipped_bus (s : State) (visited : List Dword) : (s.logSkipped visited).bus = s.bus ++ visited.map (fun a => .read .skip a 4) := rfl

@[simp] theorem beginStep_regs (s : State) : (s.beginStep).regs = s.regs := rfl
@[simp] theorem beginStep_pc (s : State) : (s.beginStep).pc = s.pc := rfl
@[simp] theorem beginStep_sleeping (s : State) : (s.beginStep).sleeping = s.sleeping := rfl
@[simp] theorem beginStep_mem (s : State) : (s.beginStep).mem = s.mem := rfl
@[simp] theorem beginStep_memMap (s : State) : (s.beginStep).memMap = s.memMap := rfl
@[simp] theorem beginStep_otherMasters (s : State) : (s.beginStep).otherMasters = s.otherMasters := rfl
@[simp] theorem beginStep_env (s : State) : (s.beginStep).env = s.env.tail := rfl
@[simp] theorem beginStep_tick (s : State) : (s.beginStep).tick = s.tick := rfl
@[simp] theorem beginStep_bus (s : State) : (s.beginStep).bus = [] := rfl

@[simp] theorem endStep_regs (s : State) : (s.endStep).regs = s.regs := rfl
@[simp] theorem endStep_pc (s : State) : (s.endStep).pc = s.pc := rfl
@[simp] theorem endStep_sleeping (s : State) : (s.endStep).sleeping = s.sleeping := rfl
@[simp] theorem endStep_mem (s : State) : (s.endStep).mem = s.mem := rfl
@[simp] theorem endStep_memMap (s : State) : (s.endStep).memMap = s.memMap := rfl
@[simp] theorem endStep_otherMasters (s : State) : (s.endStep).otherMasters = s.otherMasters := rfl
@[simp] theorem endStep_env (s : State) : (s.endStep).env = s.env := rfl
@[simp] theorem endStep_tick (s : State) : (s.endStep).tick = s.tick + 1 := rfl
@[simp] theorem endStep_bus (s : State) : (s.endStep).bus = s.bus := rfl

/-! The fetch of an instruction changes the bus record only. -/

@[simp] theorem logFetch_regs (s : State) : s.logFetch.regs = s.regs := by unfold State.logFetch; split <;> rfl
@[simp] theorem logFetch_pc (s : State) : s.logFetch.pc = s.pc := by unfold State.logFetch; split <;> rfl
@[simp] theorem logFetch_sleeping (s : State) : s.logFetch.sleeping = s.sleeping := by unfold State.logFetch; split <;> rfl
@[simp] theorem logFetch_mem (s : State) : s.logFetch.mem = s.mem := by unfold State.logFetch; split <;> rfl
@[simp] theorem logFetch_memMap (s : State) : s.logFetch.memMap = s.memMap := by unfold State.logFetch; split <;> rfl
@[simp] theorem logFetch_otherMasters (s : State) : s.logFetch.otherMasters = s.otherMasters := by unfold State.logFetch; split <;> rfl
@[simp] theorem logFetch_env (s : State) : s.logFetch.env = s.env := by unfold State.logFetch; split <;> rfl
@[simp] theorem logFetch_tick (s : State) : s.logFetch.tick = s.tick := by unfold State.logFetch; split <;> rfl

/-! ### Registers -/

theorem RegFile_get_set (f : RegFile) (r q : Reg) (v : Dword) :
    (f.set r v).get q = if q = r then v else f.get q := by
  cases r <;> cases q <;> rfl

@[simp] theorem reg_setReg (s : State) (r q : Reg) (v : Dword) :
    (s.setReg r v).reg q = if q = r then v else s.reg q := RegFile_get_set s.regs r q v

@[simp] theorem reg_setPc (s : State) (t : Dword) (q : Reg) : (s.setPc t).reg q = s.reg q := rfl

@[simp] theorem reg_setSleeping (s : State) (b : Bool) (q : Reg) : (s.setSleeping b).reg q = s.reg q := rfl

@[simp] theorem reg_log (s : State) (e : BusEvent) (q : Reg) : (s.log e).reg q = s.reg q := rfl

@[simp] theorem reg_logSkipped (s : State) (l : List Dword) (q : Reg) : (s.logSkipped l).reg q = s.reg q := rfl

@[simp] theorem reg_beginStep (s : State) (q : Reg) : s.beginStep.reg q = s.reg q := rfl

@[simp] theorem reg_endStep (s : State) (q : Reg) : s.endStep.reg q = s.reg q := rfl

@[simp] theorem reg_logFetch (s : State) (q : Reg) : s.logFetch.reg q = s.reg q := by simp [State.reg]

/-- Two states with the same value in every register have the same register file. -/
theorem RegFile_ext (f g : RegFile) (h : ∀ r, f.get r = g.get r) : f = g := by
  obtain ⟨_, _, _, _, _, _, _, _, _, _, _, _, _, _, _, _⟩ := f
  obtain ⟨_, _, _, _, _, _, _, _, _, _, _, _, _, _, _, _⟩ := g
  simp only [RegFile.mk.injEq]
  exact ⟨h .r0, h .r1, h .r2, h .r3, h .r4, h .r5, h .r6, h .r7, h .r8, h .r9, h .r10, h .y, h .bp, h .sp, h .ia,
    h .flags⟩

/-! ### Bits of the flags register -/

theorem getLsbD_setBit (v : Dword) (i k : Nat) (b : Bool) (hi : i < 32) :
    (setBit v i b).getLsbD k = if k = i then b else v.getLsbD k := by
  by_cases hk : k = i
  · subst hk; cases b <;> simp [setBit, hi]
  · cases b
    · simp only [setBit, Bool.false_eq_true, if_false, BitVec.getLsbD_and, BitVec.getLsbD_not, BitVec.getLsbD_twoPow, hk]
      by_cases h32 : k < 32
      · simp [h32, Ne.symm hk]
      · simp [h32, BitVec.getLsbD_of_ge v k (by omega)]
    · simp [setBit, BitVec.getLsbD_twoPow, hk, Ne.symm hk]

theorem Flag_bit_lt (f : Flag) : f.bit < 32 := by cases f <;> decide

@[simp] theorem Flag_bit_inj (f g : Flag) : f.bit = g.bit ↔ f = g := by cases f <;> cases g <;> decide

/-- A bit of the flags register after a field of it was written. -/
theorem flagBit_setFlag (s : State) (f : Flag) (b : Bool) (k : Nat) :
    ((s.setFlag f b).reg .flags).getLsbD k = if k = f.bit then b else (s.reg .flags).getLsbD k := by
  simp [State.setFlag, getLsbD_setBit _ _ _ _ (Flag_bit_lt f)]

@[simp] theorem flag_setFlag (s : State) (f g : Flag) (b : Bool) :
    (s.setFlag f b).flag g = if g = f then b else s.flag g := by
  simp only [State.flag, flagBit_setFlag, Flag_bit_inj]

@[simp] theorem reg_setFlag_of_ne (s : State) (f : Flag) (b : Bool) (q : Reg) (hq : q ≠ .flags) :
    (s.setFlag f b).reg q = s.reg q := by simp [State.setFlag, hq]

@[simp] theorem setFlag_pc (s : State) (f : Flag) (b : Bool) : (s.setFlag f b).pc = s.pc := rfl
@[simp] theorem setFlag_sleeping (s : State) (f : Flag) (b : Bool) : (s.setFlag f b).sleeping = s.sleeping := rfl
@[simp] theorem setFlag_mem (s : State) (f : Flag) (b : Bool) : (s.setFlag f b).mem = s.mem := rfl
@[simp] theorem setFlag_memMap (s : State) (f : Flag) (b : Bool) : (s.setFlag f b).memMap = s.memMap := rfl
@[simp] theorem setFlag_otherMasters (s : State) (f : Flag) (b : Bool) : (s.setFlag f b).otherMasters = s.otherMasters := rfl
@[simp] theorem setFlag_env (s : State) (f : Flag) (b : Bool) : (s.setFlag f b).env = s.env := rfl
@[simp] theorem setFlag_tick (s : State) (f : Flag) (b : Bool) : (s.setFlag f b).tick = s.tick := rfl
@[simp] theorem setFlag_bus (s : State) (f : Flag) (b : Bool) : (s.setFlag f b).bus = s.bus := rfl

/-- Writing another register leaves the fields of the flags register. -/
theorem flag_setReg_of_ne (s : State) (f : Flag) (r : Reg) (v : Dword) (h : r ≠ .flags) :
    (s.setReg r v).flag f = s.flag f := by simp [State.flag, Ne.symm h]

@[simp] theorem flag_setPc (s : State) (t : Dword) (f : Flag) : (s.setPc t).flag f = s.flag f := rfl

@[simp] theorem flag_setSleeping (s : State) (b : Bool) (f : Flag) : (s.setSleeping b).flag f = s.flag f := rfl

@[simp] theorem flag_log (s : State) (e : BusEvent) (f : Flag) : (s.log e).flag f = s.flag f := rfl

@[simp] theorem flag_logSkipped (s : State) (l : List Dword) (f : Flag) : (s.logSkipped l).flag f = s.flag f := rfl

@[simp] theorem flag_logFetch (s : State) (f : Flag) : s.logFetch.flag f = s.flag f := by simp [State.flag]

@[simp] theorem flag_beginStep (s : State) (f : Flag) : s.beginStep.flag f = s.flag f := rfl

@[simp] theorem flag_endStep (s : State) (f : Flag) : s.endStep.flag f = s.flag f := rfl

end Sys2Proof.Machine
end

