-- ==== Sys2Proof/Laws/Memory.lean ====
section
/-! SUPPORT. Memory: a write is read back, leaves every other address alone, and keeps the canonical form; the same for the
byte and multi-byte stores of the state. -/

namespace Sys2Proof.Machine

/-! ### The list of cells -/

theorem read_filter_same (m : Memory) (a : Nat) : Memory.read (m.filter (fun c => c.1 != a)) a = Memory.unlisted := by
  induction m with
  | nil => rfl
  | cons c m ih =>
    by_cases h : c.1 = a
    · simp [h, ih]
    · simp [h, ih, Memory.read]

theorem read_filter_other (m : Memory) (a b : Nat) (h : b ≠ a) :
    Memory.read (m.filter (fun c => c.1 != a)) b = m.read b := by
  induction m with
  | nil => rfl
  | cons c m ih =>
    by_cases hc : c.1 = a
    · have hcb : c.1 ≠ b := fun e => h (e.symm.trans hc)
      simp [hc, ih, Memory.read, Ne.symm h]
    · simp [hc, ih, Memory.read]

theorem read_insert_same (m : Memory) (a : Nat) (b : Byte) (h : ∀ c ∈ m, c.1 ≠ a) : (m.insert a b).read a = b := by
  induction m with
  | nil => simp [Memory.insert, Memory.read]
  | cons c m ih =>
    have hc : c.1 ≠ a := h c (by simp)
    unfold Memory.insert
    split
    · simp [Memory.read]
    · simp [Memory.read, hc, ih (fun d hd => h d (by simp [hd]))]

theorem read_insert_other (m : Memory) (a k : Nat) (b : Byte) (h : k ≠ a) : (m.insert a b).read k = m.read k := by
  induction m with
  | nil => simp [Memory.insert, Memory.read, Ne.symm h]
  | cons c m ih =>
    unfold Memory.insert
    split
    · simp [Memory.read, Ne.symm h]
    · simp [Memory.read, ih]

@[simp] theorem read_write_same (m : Memory) (a : Nat) (b : Byte) : (m.write a b).read a = b := by
  unfold Memory.write
  by_cases hb : b = Memory.unlisted
  · simp [hb, read_filter_same]
  · simp only [hb, if_false]
    exact read_insert_same _ _ _ (by intro c hc; simpa using (List.mem_filter.mp hc).2)

theorem read_write_other (m : Memory) (a k : Nat) (b : Byte) (h : k ≠ a) : (m.write a b).read k = m.read k := by
  unfold Memory.write
  by_cases hb : b = Memory.unlisted
  · simp [hb, read_filter_other _ _ _ h]
  · simp only [hb, if_false]
    rw [read_insert_other _ _ _ _ h, read_filter_other _ _ _ h]

theorem read_write (m : Memory) (a k : Nat) (b : Byte) : (m.write a b).read k = if k = a then b else m.read k := by
  by_cases h : k = a
  · simp [h]
  · simp [h, read_write_other]

/-! ### The canonical form -/

theorem filter_wf (m : Memory) (a : Nat) (h : m.wf) : Memory.wf (m.filter (fun c => c.1 != a)) :=
  ⟨h.1.filter _, fun c hc => h.2 c (List.mem_filter.mp hc).1⟩

theorem mem_insert (m : Memory) (a : Nat) (b : Byte) (c : Host.Cell) (h : c ∈ m.insert a b) : c = (a, b) ∨ c ∈ m := by
  induction m with
  | nil => simpa [Memory.insert] using h
  | cons d m ih =>
    unfold Memory.insert at h
    split at h
    · simpa using h
    · rcases List.mem_cons.mp h with rfl | h
      · simp
      · rcases ih h with h | h <;> simp [h]

theorem insert_wf (m : Memory) (a : Nat) (b : Byte) (hm : m.wf) (ha : a < 2 ^ 32) (hb : b ≠ Memory.unlisted)
    (hfresh : ∀ c ∈ m, c.1 ≠ a) : (m.insert a b).wf := by
  refine ⟨?_, fun c hc => ?_⟩
  · obtain ⟨hp, -⟩ := hm
    induction m with
    | nil => simp [Memory.insert]
    | cons c m ih =>
      have hp' := List.pairwise_cons.mp hp
      unfold Memory.insert
      split
      · rename_i hlt
        refine List.pairwise_cons.mpr ⟨fun d hd => ?_, hp⟩
        rcases List.mem_cons.mp hd with rfl | hd
        · exact hlt
        · exact hlt.trans (hp'.1 d hd)
      · rename_i hlt
        refine List.pairwise_cons.mpr ⟨fun d hd => ?_, ih (fun d hd => hfresh d (by simp [hd])) hp'.2⟩
        rcases mem_insert m a b d hd with rfl | hd
        · have := hfresh c (by simp)
          simp only
          omega
        · exact hp'.1 d hd
  · rcases mem_insert m a b c hc with rfl | h
    · exact ⟨hb, ha⟩
    · exact hm.2 c h

theorem write_wf (m : Memory) (a : Nat) (b : Byte) (hm : m.wf) (ha : a < 2 ^ 32) : (m.write a b).wf := by
  unfold Memory.write
  by_cases hb : b = Memory.unlisted
  · simpa [hb] using filter_wf m a hm
  · simp only [hb, if_false]
    exact insert_wf _ a b (filter_wf m a hm) ha hb (by intro c hc; simpa using (List.mem_filter.mp hc).2)

/-! ### Reads of the state depend on memory, map and counter only -/

theorem kindAt_congr {s t : State} (hp : t.memMap = s.memMap) (a : Dword) : t.kindAt a = s.kindAt a := by
  unfold State.kindAt; rw [hp]

/-- On a map that gives the whole space to RAM every address is RAM. -/
theorem kindAt_wholeSpace {s : State} (h : s.memMap = wholeSpaceRam) (a : Dword) : s.kindAt a = .ram := by
  have := a.isLt
  simp only [State.kindAt, h, wholeSpaceRam, regionAt]
  rw [if_pos ⟨Nat.zero_le _, by omega⟩]

theorem readByte_congr {s t : State} (hm : t.mem = s.mem) (hp : t.memMap = s.memMap) (ht : t.tick = s.tick)
    (why : Access) (a : Dword) : t.readByte why a = s.readByte why a := by
  unfold State.readByte; rw [kindAt_congr hp, hm, ht]

theorem readWord_congr {s t : State} (hm : t.mem = s.mem) (hp : t.memMap = s.memMap) (ht : t.tick = s.tick)
    (why : Access) (a : Dword) : t.readWord why a = s.readWord why a := by
  simp [State.readWord, readByte_congr hm hp ht]

theorem readDword_congr {s t : State} (hm : t.mem = s.mem) (hp : t.memMap = s.memMap) (ht : t.tick = s.tick)
    (why : Access) (a : Dword) : t.readDword why a = s.readDword why a := by
  simp [State.readDword, readByte_congr hm hp ht]

@[simp] theorem readByte_setReg (s : State) (r : Reg) (v : Dword) (why : Access) (a : Dword) :
    (s.setReg r v).readByte why a = s.readByte why a := rfl

@[simp] theorem readByte_setPc (s : State) (t : Dword) (why : Access) (a : Dword) :
    (s.setPc t).readByte why a = s.readByte why a := rfl

@[simp] theorem readByte_setSleeping (s : State) (b : Bool) (why : Access) (a : Dword) :
    (s.setSleeping b).readByte why a = s.readByte why a := rfl

@[simp] theorem readByte_setFlag (s : State) (f : Flag) (b : Bool) (why : Access) (a : Dword) :
    (s.setFlag f b).readByte why a = s.readByte why a := rfl

@[simp] theorem readByte_log (s : State) (e : BusEvent) (why : Access) (a : Dword) :
    (s.log e).readByte why a = s.readByte why a := rfl

@[simp] theorem readDword_setReg (s : State) (r : Reg) (v : Dword) (why : Access) (a : Dword) :
    (s.setReg r v).readDword why a = s.readDword why a := rfl

@[simp] theorem readDword_setPc (s : State) (t : Dword) (why : Access) (a : Dword) :
    (s.setPc t).readDword why a = s.readDword why a := rfl

@[simp] theorem readDword_log (s : State) (e : BusEvent) (why : Access) (a : Dword) :
    (s.log e).readDword why a = s.readDword why a := rfl

/-! ### Stores of the state -/

theorem writeByte_eq (s : State) (a : Dword) (b : Byte) :
    s.writeByte a b = { s with mem := if (s.kindAt a).writable then s.mem.write a.toNat b else s.mem } := by
  unfold State.writeByte; split <;> rfl

@[simp] theorem writeByte_regs (s : State) (a : Dword) (b : Byte) : (s.writeByte a b).regs = s.regs := by
  simp [writeByte_eq]

@[simp] theorem writeByte_pc (s : State) (a : Dword) (b : Byte) : (s.writeByte a b).pc = s.pc := by simp [writeByte_eq]

@[simp] theorem writeByte_sleeping (s : State) (a : Dword) (b : Byte) : (s.writeByte a b).sleeping = s.sleeping := by
  simp [writeByte_eq]

@[simp] theorem writeByte_memMap (s : State) (a : Dword) (b : Byte) : (s.writeByte a b).memMap = s.memMap := by
  simp [writeByte_eq]

@[simp] theorem writeByte_otherMasters (s : State) (a : Dword) (b : Byte) :
    (s.writeByte a b).otherMasters = s.otherMasters := by simp [writeByte_eq]

@[simp] theorem writeByte_env (s : State) (a : Dword) (b : Byte) : (s.writeByte a b).env = s.env := by
  simp [writeByte_eq]

@[simp] theorem writeByte_tick (s : State) (a : Dword) (b : Byte) : (s.writeByte a b).tick = s.tick := by
  simp [writeByte_eq]

@[simp] theorem writeByte_bus (s : State) (a : Dword) (b : Byte) : (s.writeByte a b).bus = s.bus := by
  simp [writeByte_eq]

@[simp] theorem kindAt_writeByte (s : State) (a c : Dword) (b : Byte) : (s.writeByte a b).kindAt c = s.kindAt c := by
  simp [State.kindAt]

theorem stored_of_writable (k : RegionKind) (h : k.writable = true) : k.stored = true := by cases k <;> simp_all [RegionKind.writable, RegionKind.stored]

/-- The one thing a byte store does: where its address is RAM, that address reads as the byte; nothing else changes. -/
theorem readByte_writeByte (s : State) (a c : Dword) (b : Byte) (why : Access) :
    (s.writeByte a b).readByte why c = if c = a ∧ (s.kindAt a).writable then b else s.readByte why c := by
  have hkind : (s.writeByte a b).kindAt c = s.kindAt c := kindAt_writeByte s a c b
  by_cases hw : (s.kindAt a).writable = true
  · have hmem : (s.writeByte a b).mem = s.mem.write a.toNat b := by simp [State.writeByte, hw]
    unfold State.readByte
    rw [hkind, hmem, writeByte_tick]
    by_cases hc : c = a
    · subst hc
      simp [hw, stored_of_writable _ hw]
    · have : c.toNat ≠ a.toNat := fun h => hc (BitVec.eq_of_toNat_eq h)
      simp [hc, read_write_other _ _ _ _ this]
  · simp [State.writeByte, hw]

theorem writeByte_wf (s : State) (a : Dword) (b : Byte) (h : s.mem.wf) : (s.writeByte a b).mem.wf := by
  rw [writeByte_eq]
  simp only
  split
  · exact write_wf _ _ _ h a.isLt
  · exact h

@[simp] theorem writeBytes_regs (bs : List Byte) : ∀ (s : State) (a : Dword), (s.writeBytes a bs).regs = s.regs := by
  induction bs with
  | nil => intro s a; rfl
  | cons b bs ih => intro s a; simp [State.writeBytes, ih]

@[simp] theorem writeBytes_pc (bs : List Byte) : ∀ (s : State) (a : Dword), (s.writeBytes a bs).pc = s.pc := by
  induction bs with
  | nil => intro s a; rfl
  | cons b bs ih => intro s a; simp [State.writeBytes, ih]

@[simp] theorem writeBytes_sleeping (bs : List Byte) :
    ∀ (s : State) (a : Dword), (s.writeBytes a bs).sleeping = s.sleeping := by
  induction bs with
  | nil => intro s a; rfl
  | cons b bs ih => intro s a; simp [State.writeBytes, ih]

@[simp] theorem writeBytes_memMap (bs : List Byte) :
    ∀ (s : State) (a : Dword), (s.writeBytes a bs).memMap = s.memMap := by
  induction bs with
  | nil => intro s a; rfl
  | cons b bs ih => intro s a; simp [State.writeBytes, ih]

@[simp] theorem writeBytes_otherMasters (bs : List Byte) :
    ∀ (s : State) (a : Dword), (s.writeBytes a bs).otherMasters = s.otherMasters := by
  induction bs with
  | nil => intro s a; rfl
  | cons b bs ih => intro s a; simp [State.writeBytes, ih]

@[simp] theorem writeBytes_env (bs : List Byte) : ∀ (s : State) (a : Dword), (s.writeBytes a bs).env = s.env := by
  induction bs with
  | nil => intro s a; rfl
  | cons b bs ih => intro s a; simp [State.writeBytes, ih]

@[simp] theorem writeBytes_tick (bs : List Byte) : ∀ (s : State) (a : Dword), (s.writeBytes a bs).tick = s.tick := by
  induction bs with
  | nil => intro s a; rfl
  | cons b bs ih => intro s a; simp [State.writeBytes, ih]

@[simp] theorem writeBytes_bus (bs : List Byte) : ∀ (s : State) (a : Dword), (s.writeBytes a bs).bus = s.bus := by
  induction bs with
  | nil => intro s a; rfl
  | cons b bs ih => intro s a; simp [State.writeBytes, ih]

@[simp] theorem kindAt_writeBytes (s : State) (a c : Dword) (bs : List Byte) :
    (s.writeBytes a bs).kindAt c = s.kindAt c := by simp [State.kindAt]

theorem writeBytes_wf (bs : List Byte) : ∀ (s : State) (a : Dword), s.mem.wf → (s.writeBytes a bs).mem.wf := by
  induction bs with
  | nil => intro s a h; exact h
  | cons b bs ih => intro s a h; exact ih _ _ (writeByte_wf s a b h)

/-- A store of bytes leaves every byte outside the ones it stores, counted from its address modulo 2^32. -/
theorem readByte_writeBytes_outside (bs : List Byte) : ∀ (s : State) (a c : Dword) (why : Access),
    bs.length ≤ (c - a).toNat → (s.writeBytes a bs).readByte why c = s.readByte why c := by
  induction bs with
  | nil => intro s a c why _; rfl
  | cons b bs ih =>
    intro s a c why h
    have hlen : bs.length + 1 ≤ (c - a).toNat := by simpa using h
    have hne : c ≠ a := by rintro rfl; simp at hlen
    have hstep : (c - (a + 1)).toNat = (c - a).toNat - 1 := by bv_omega
    simp only [State.writeBytes]
    rw [ih _ _ _ _ (by omega), readByte_writeByte]
    simp [hne]

/-- A store of at most 2^32 bytes makes each of its bytes that is RAM read as the byte stored there. -/
theorem readByte_writeBytes_inside (bs : List Byte) : ∀ (s : State) (a c : Dword) (why : Access),
    bs.length ≤ 2 ^ 32 → (h : (c - a).toNat < bs.length) → (s.kindAt c).writable = true →
      (s.writeBytes a bs).readByte why c = bs[(c - a).toNat] := by
  induction bs with
  | nil => intro s a c why _ h; simp at h
  | cons b bs ih =>
    intro s a c why hl h hw
    simp only [List.length_cons] at hl h
    simp only [State.writeBytes]
    by_cases hc : c = a
    · subst hc
      have hout : bs.length ≤ (c - (c + 1)).toNat := by
        have : (c - (c + 1)).toNat = 2 ^ 32 - 1 := by bv_omega
        omega
      rw [readByte_writeBytes_outside _ _ _ _ _ hout, readByte_writeByte]
      simp [hw]
    · have hstep : (c - a).toNat = (c - (a + 1)).toNat + 1 := by bv_omega
      rw [ih _ _ _ _ (by omega) (by omega) (by simpa using hw)]
      simp [hstep]

/-! ### Single bytes written one after the other -/

@[simp] theorem writeCells_regs (cs : List ByteWrite) : ∀ s : State, (s.writeCells cs).regs = s.regs := by
  induction cs with
  | nil => intro s; rfl
  | cons c cs ih => intro s; simp [State.writeCells, ih]

@[simp] theorem writeCells_pc (cs : List ByteWrite) : ∀ s : State, (s.writeCells cs).pc = s.pc := by
  induction cs with
  | nil => intro s; rfl
  | cons c cs ih => intro s; simp [State.writeCells, ih]

@[simp] theorem writeCells_sleeping (cs : List ByteWrite) : ∀ s : State, (s.writeCells cs).sleeping = s.sleeping := by
  induction cs with
  | nil => intro s; rfl
  | cons c cs ih => intro s; simp [State.writeCells, ih]

@[simp] theorem writeCells_memMap (cs : List ByteWrite) : ∀ s : State, (s.writeCells cs).memMap = s.memMap := by
  induction cs with
  | nil => intro s; rfl
  | cons c cs ih => intro s; simp [State.writeCells, ih]

@[simp] theorem writeCells_otherMasters (cs : List ByteWrite) : ∀ s : State, (s.writeCells cs).otherMasters = s.otherMasters := by
  induction cs with
  | nil => intro s; rfl
  | cons c cs ih => intro s; simp [State.writeCells, ih]

@[simp] theorem writeCells_env (cs : List ByteWrite) : ∀ s : State, (s.writeCells cs).env = s.env := by
  induction cs with
  | nil => intro s; rfl
  | cons c cs ih => intro s; simp [State.writeCells, ih]

@[simp] theorem writeCells_tick (cs : List ByteWrite) : ∀ s : State, (s.writeCells cs).tick = s.tick := by
  induction cs with
  | nil => intro s; rfl
  | cons c cs ih => intro s; simp [State.writeCells, ih]

@[simp] theorem writeCells_bus (cs : List ByteWrite) : ∀ s : State, (s.writeCells cs).bus = s.bus := by
  induction cs with
  | nil => intro s; rfl
  | cons c cs ih => intro s; simp [State.writeCells, ih]

theorem writeCells_append (s : State) (cs ds : List ByteWrite) :
    s.writeCells (cs ++ ds) = (s.writeCells cs).writeCells ds := by
  induction cs generalizing s with
  | nil => rfl
  | cons c cs ih => exact ih _

theorem writeCells_wf (cs : List ByteWrite) : ∀ s : State, s.mem.wf → (s.writeCells cs).mem.wf := by
  induction cs with
  | nil => intro s h; exact h
  | cons c cs ih => intro s h; exact ih _ (writeByte_wf s c.1 c.2 h)

theorem read_writeByte (s : State) (a c : Dword) (b : Byte) : (s.writeByte a b).mem.read c.toNat =
    if c = a ∧ (s.kindAt a).writable then b else s.mem.read c.toNat := by
  rw [writeByte_eq]
  by_cases hw : (s.kindAt a).writable = true
  · simp only [hw, if_true, and_true, read_write, BitVec.toNat_inj]
  · simp [hw]

/-- An address that is not among the written ones keeps its byte. -/
theorem read_writeCells_other (cs : List ByteWrite) : ∀ (s : State) (a : Dword), (∀ c ∈ cs, a ≠ c.1) →
    (s.writeCells cs).mem.read a.toNat = s.mem.read a.toNat := by
  induction cs with
  | nil => intro s a _; rfl
  | cons c cs ih =>
    intro s a h
    rw [State.writeCells, ih _ _ (fun d hd => h d (List.mem_cons_of_mem _ hd)), read_writeByte,
      if_neg (fun e => h c (by simp) e.1)]

/-- An address that is RAM holds the last byte written to it. -/
theorem read_writeCells_last (s : State) (before after : List ByteWrite) (a : Dword) (b : Byte)
    (hk : (s.kindAt a).writable = true) (ha : ∀ c ∈ after, a ≠ c.1) :
    (s.writeCells (before ++ (a, b) :: after)).mem.read a.toNat = b := by
  have hk' : ((s.writeCells before).kindAt a).writable = true := by rwa [kindAt_congr (writeCells_memMap _ _)]
  rw [writeCells_append, State.writeCells, read_writeCells_other _ _ _ ha, read_writeByte]
  simp [hk']

end Sys2Proof.Machine
end

