-- ==== Sys2Proof/Laws/Ops.lean ====
section
/-! SUPPORT. One lemma for each shared operation that says everything it can do, in the terms of Sys2Proof/Safety.lean, and
the canonical form of memory through every operation. -/

namespace Sys2Proof.Machine

/-! ### Reads -/

theorem memorySame_of_eq {s t : State} (hm : t.mem = s.mem) (hp : t.memMap = s.memMap) (ht : t.tick = s.tick) :
    MemorySame s t := fun why a => readByte_congr hm hp ht why a

theorem readDword_of_memorySame {s t : State} (h : MemorySame s t) (why : Access) (a : Dword) :
    t.readDword why a = s.readDword why a := by simp [State.readDword, h why]

theorem readWord_of_memorySame {s t : State} (h : MemorySame s t) (why : Access) (a : Dword) :
    t.readWord why a = s.readWord why a := by simp [State.readWord, h why]

/-- A dword all of whose bytes read as those of `v` reads as `v`. -/
theorem dwordOfBytes_extract (v : Dword) :
    dwordOfBytes (v.extractLsb' 0 8) (v.extractLsb' 8 8) (v.extractLsb' 16 8) (v.extractLsb' 24 8) = v := by
  apply BitVec.eq_of_getLsbD_eq
  intro i hi
  simp only [dwordOfBytes, BitVec.getLsbD_append, BitVec.getLsbD_extractLsb']
  rcases Nat.lt_or_ge i 8 with h | h
  · simp [h]
  · rcases Nat.lt_or_ge i 16 with h2 | h2
    · simp [show ¬i < 8 by omega, show i - 8 < 8 by omega, show 8 + (i - 8) = i by omega]
    · rcases Nat.lt_or_ge i 24 with h3 | h3
      · simp [show ¬i < 8 by omega, show ¬i - 8 < 8 by omega, show i - 8 - 8 < 8 by omega,
          show 16 + (i - 8 - 8) = i by omega]
      · simp [show ¬i < 8 by omega, show ¬i - 8 < 8 by omega, show ¬i - 8 - 8 < 8 by omega,
          show i - 8 - 8 - 8 < 8 by omega, show 24 + (i - 8 - 8 - 8) = i by omega]

/-- A dword stored in RAM reads back, whatever the reason of the read. -/
theorem readDword_of_holds {t : State} {a v : Dword} (h : MemoryHolds a 4 v t) (hram : RamAt t a 4) (why : Access) :
    t.readDword why a = v := by
  have byte (k : Nat) (hk : k < 4) :
      t.readByte why (a + BitVec.ofNat 32 k) = v.extractLsb' (8 * k) 8 := by
    have hd : (a + BitVec.ofNat 32 k - a).toNat = k := by
      have : a + BitVec.ofNat 32 k - a = BitVec.ofNat 32 k := by bv_omega
      rw [this, BitVec.toNat_ofNat]; omega
    have := h why (a + BitVec.ofNat 32 k) (by omega) (hram _ (by omega))
    rwa [hd] at this
  have b0 := byte 0 (by omega)
  have b1 := byte 1 (by omega)
  have b2 := byte 2 (by omega)
  have b3 := byte 3 (by omega)
  simp only [BitVec.add_zero, Nat.mul_zero, Nat.mul_one] at b0 b1 b2 b3
  unfold State.readDword
  rw [b0, show t.readByte why (a + 1) = _ from b1, show t.readByte why (a + 2) = _ from b2,
    show t.readByte why (a + 3) = _ from b3]
  exact dwordOfBytes_extract v

/-! ### Stores -/

theorem bytesOfDword_length (v : Dword) : (bytesOfDword v).length = 4 := rfl

theorem bytesOfDword_get (v : Dword) (k : Nat) (hk : k < (bytesOfDword v).length) :
    (bytesOfDword v)[k] = v.extractLsb' (8 * k) 8 := by
  match k, hk with
  | 0, _ => rfl
  | 1, _ => rfl
  | 2, _ => rfl
  | 3, _ => rfl

theorem writable_of_ram {k : RegionKind} (h : k = .ram) : k.writable = true := by subst h; rfl

/-- A store of the first `n` bytes of a dword puts each of them in place and leaves every other byte. -/
theorem writeBytes_take (s : State) (a v : Dword) (n : Nat) (hn : n ≤ 4) :
    MemoryHolds a n v (s.writeBytes a ((bytesOfDword v).take n)) ∧
      MemoryOutside a n s (s.writeBytes a ((bytesOfDword v).take n)) := by
  have hlen : ((bytesOfDword v).take n).length = n := by simp [bytesOfDword_length]; omega
  refine ⟨fun why b hb hk => ?_, fun why b hb => ?_⟩
  · rw [kindAt_writeBytes] at hk
    rw [readByte_writeBytes_inside _ _ _ _ _ (by omega) (by omega) (writable_of_ram hk), List.getElem_take,
      bytesOfDword_get]
  · exact readByte_writeBytes_outside _ _ _ _ _ (by omega)

/-- `MemWrite(a, 4, v)`: everything it does. -/
theorem storeDword_spec (s : State) (a v : Dword) : Stored a 4 v s.pc s (s.storeDword a v) := by
  have h := writeBytes_take s a v 4 (by omega)
  refine ⟨fun r _ => by simp [State.storeDword, State.reg], h.1, h.2, ?_, ?_, ⟨?_, ?_, ?_, ?_⟩, ?_⟩ <;> simp [State.storeDword]

/-- `MemWrite(a, 2, v)`: everything it does. -/
theorem storeWord_spec (s : State) (a v : Dword) : Stored a 2 v s.pc s (s.storeWord a v) := by
  have h := writeBytes_take s a v 2 (by omega)
  refine ⟨fun r _ => by simp [State.storeWord, State.reg], h.1, h.2, ?_, ?_, ⟨?_, ?_, ?_, ?_⟩, ?_⟩ <;> simp [State.storeWord]

/-- `MemWrite(a, 1, v)`: everything it does. -/
theorem storeByte_spec (s : State) (a v : Dword) : Stored a 1 v s.pc s (s.storeByte a v) := by
  have h := writeBytes_take s a v 1 (by omega)
  refine ⟨fun r _ => by simp [State.storeByte, State.reg], h.1, h.2, ?_, ?_, ⟨?_, ?_, ?_, ?_⟩, ?_⟩ <;> simp [State.storeByte]

theorem storeDword_wf (s : State) (a v : Dword) (h : s.mem.wf) : (s.storeDword a v).mem.wf := writeBytes_wf _ s a h

theorem storeWord_wf (s : State) (a v : Dword) (h : s.mem.wf) : (s.storeWord a v).mem.wf := writeBytes_wf _ s a h

theorem storeByte_wf (s : State) (a v : Dword) (h : s.mem.wf) : (s.storeByte a v).mem.wf := writeBytes_wf _ s a h

/-- `x[rd] <- v; pc <- npc`: everything it does. -/
theorem retire_spec (s : State) (rd : Reg) (v : Dword) (rn : Operand) : WritesOnly rd v (s.npc rn) s (s.retire rd v rn) := by
  refine ⟨by simp [State.retire, State.advance], fun r hr => ?_, memorySame_of_eq rfl rfl rfl, rfl, rfl, ⟨rfl, rfl, rfl, rfl⟩, rfl⟩
  have hne : r ≠ rd := by simpa using hr
  simp [State.retire, State.advance, hne]

/-- Writing one field of `%flags` changes that field and no other bit, register or byte. -/
theorem setFlag_spec (s : State) (f : Flag) (b : Bool) :
    (s.setFlag f b).flag f = b ∧ FlagBitsExcept [f] s (s.setFlag f b) ∧ RegsExcept [.flags] s (s.setFlag f b) ∧
      NoAccess s.pc s (s.setFlag f b) := by
  refine ⟨by simp, fun k hk => ?_, fun r hr => reg_setFlag_of_ne _ _ _ _ (by simpa using hr),
    memorySame_of_eq rfl rfl rfl, rfl, rfl, ⟨rfl, rfl, rfl, rfl⟩, rfl⟩
  rw [flagBit_setFlag, if_neg (hk f (by simp))]

/-! ### The stack -/

/-- `Push(v)`: everything it does. -/
theorem push_spec (s : State) (v : Dword) : Pushed v s.pc s (s.push v) := by
  obtain ⟨hr, hh, ho, hb, hsl, hp, hpc⟩ := storeDword_spec (s.setReg .sp (s.reg .sp - 4)) (s.reg .sp - 4) v
  refine ⟨?_, fun r hne => ?_, hh, ho, hb, hsl, hp, hpc⟩
  · exact (hr .sp (by simp)).trans (by simp)
  · exact (hr r (by simp)).trans (by simp_all)

/-- The change of state of `Pop()`: one read on the bus and `%sp` 4 higher. -/
theorem pop_spec (s : State) :
    s.pop.reg .sp = s.reg .sp + 4 ∧ RegsExcept [.sp] s s.pop ∧ MemorySame s s.pop ∧
      s.pop.bus = s.bus ++ [.read .stack (s.reg .sp) 4] ∧ s.pop.sleeping = s.sleeping ∧ PlatformSame s s.pop ∧
      s.pop.pc = s.pc := by
  refine ⟨by simp [State.pop], fun r hr => ?_, memorySame_of_eq rfl rfl rfl, rfl, rfl, ⟨rfl, rfl, rfl, rfl⟩, rfl⟩
  have hne : r ≠ .sp := by simpa using hr
  simp [State.pop, hne]

/-- The value of `Pop()` depends on `%sp` and memory only. -/
theorem popped_of_memorySame {s t : State} (h : MemorySame s t) (hsp : t.reg .sp = s.reg .sp) : t.popped = s.popped := by
  simp only [State.popped, hsp, readDword_of_memorySame h]

@[simp] theorem push_pc (s : State) (v : Dword) : (s.push v).pc = s.pc := (push_spec s v).2.2.2.2.2.2.2

@[simp] theorem push_sleeping (s : State) (v : Dword) : (s.push v).sleeping = s.sleeping :=
  (push_spec s v).2.2.2.2.2.1

@[simp] theorem reg_push (s : State) (v : Dword) (q : Reg) :
    (s.push v).reg q = if q = .sp then s.reg .sp - 4 else s.reg q := by
  by_cases h : q = .sp
  · subst h; simpa using (push_spec s v).1
  · simpa [h] using (push_spec s v).2.1 q (by simpa using h)

@[simp] theorem push_bus (s : State) (v : Dword) : (s.push v).bus = s.bus ++ [.write (s.reg .sp - 4) 4 v] :=
  (push_spec s v).2.2.2.2.1

theorem push_platform (s : State) (v : Dword) : PlatformSame s (s.push v) := (push_spec s v).2.2.2.2.2.2.1

theorem push_wf (s : State) (v : Dword) (h : s.mem.wf) : (s.push v).mem.wf := storeDword_wf _ _ _ h

theorem pop_mem (s : State) : s.pop.mem = s.mem := rfl

/-- Two pushes: the bytes of both, the first at the higher address, and every other byte as before. -/
theorem push_push_bytes (s : State) (v w : Dword) :
    MemoryHolds (s.reg .sp - 4) 4 v ((s.push v).push w) ∧ MemoryHolds (s.reg .sp - 8) 4 w ((s.push v).push w) ∧
      MemoryOutside (s.reg .sp - 8) 8 s ((s.push v).push w) := by
  have e8 : s.reg .sp - 4 - 4 = s.reg .sp - 8 := by bv_omega
  obtain ⟨-, -, hold1, out1, -, -, -, -⟩ := push_spec s v
  obtain ⟨-, -, hold2, out2, -, -, plat2, -⟩ := push_spec (s.push v) w
  simp only [reg_push, if_true, e8] at hold2 out2
  refine ⟨fun why b hb hk => ?_, hold2, fun why b hb => ?_⟩
  · rw [out2 why b (by bv_omega), hold1 why b hb (by rw [← hk]; exact (kindAt_congr plat2.1 b).symm)]
  · rw [out2 why b (by bv_omega), out1 why b (by bv_omega)]

/-! ### Interrupts -/

theorem acceptsInterrupt_iff (s : State) : s.acceptsInterrupt = true ↔ s.Accepts := by
  simp [State.acceptsInterrupt, State.Accepts]

theorem takeInterrupt_unaccepted (s : State) (source : Source) (msg : Dword) (h : ¬s.Accepts) :
    s.takeInterrupt source msg = s := by
  have : s.acceptsInterrupt = false := by
    rw [← acceptsInterrupt_iff] at h; simpa using h
  simp [State.takeInterrupt, this]

theorem takeInterrupt_aborted (s : State) (source : Source) (msg : Dword) (h : s.Accepts)
    (hv : s.handler source msg = 0) :
    s.takeInterrupt source msg = (s.readVector source msg).abortInterrupt source := by
  rw [State.takeInterrupt, if_pos ((acceptsInterrupt_iff s).mpr h), if_pos hv]

theorem takeInterrupt_entered (s : State) (source : Source) (msg : Dword) (h : s.Accepts)
    (hv : s.handler source msg ≠ 0) :
    s.takeInterrupt source msg = (s.readVector source msg).enterHandler msg (s.handler source msg) := by
  rw [State.takeInterrupt, if_pos ((acceptsInterrupt_iff s).mpr h), if_neg hv]

/-- Reading the vector changes the bus record and nothing else. -/
theorem readVector_spec (s : State) (source : Source) (msg : Dword) :
    ∃ events, s.readVector source msg = { s with bus := s.bus ++ events } := by
  cases source
  · exact ⟨[.message msg, .read (.vector .hardware) (s.vectorAddress msg) 4],
      by simp [State.readVector, State.log]⟩
  · exact ⟨[.read (.vector .software) (s.vectorAddress msg) 4], rfl⟩
  · exact ⟨[.read (.vector .singleStep) (s.vectorAddress msg) 4], rfl⟩

/-- An aborted entry changes the bus record and nothing else. -/
theorem abortInterrupt_spec (s : State) (source : Source) :
    ∃ events, s.abortInterrupt source = { s with bus := s.bus ++ events } := by
  cases source
  · exact ⟨[.handshakeAborted], rfl⟩
  · exact ⟨[], by simp [State.abortInterrupt]⟩
  · exact ⟨[], by simp [State.abortInterrupt]⟩

/-- The bus record of an aborted entry: the vector read, and around it the handshake where the source is hardware. -/
theorem abortedEntry_bus (s : State) (source : Source) (msg : Dword) :
    ((s.readVector source msg).abortInterrupt source).bus =
      s.bus ++ (if source = .hardware then [.message msg] else []) ++
        [.read (.vector source) (s.vectorAddress msg) 4] ++ (if source = .hardware then [.handshakeAborted] else []) := by
  cases source <;> simp [State.readVector, State.abortInterrupt]

@[simp] theorem reg_readVector (s : State) (source : Source) (msg : Dword) (q : Reg) :
    (s.readVector source msg).reg q = s.reg q := by cases source <;> rfl

@[simp] theorem readVector_pc (s : State) (source : Source) (msg : Dword) : (s.readVector source msg).pc = s.pc := by
  cases source <;> rfl

theorem readVector_memorySame (s : State) (source : Source) (msg : Dword) : MemorySame s (s.readVector source msg) := by
  cases source <;> exact memorySame_of_eq rfl rfl rfl

theorem readVector_platform (s : State) (source : Source) (msg : Dword) : PlatformSame s (s.readVector source msg) := by
  cases source <;> exact ⟨rfl, rfl, rfl, rfl⟩

/-- A handler entered after the vector read was entered from the state before it. -/
theorem HandlerEntered_of_readVector {s t : State} {source : Source} {m msg vec ret : Dword}
    (h : HandlerEntered msg vec ret (s.readVector source m) t) : HandlerEntered msg vec ret s t := by
  simp only [HandlerEntered, FlagBitsExcept, RegsExcept, MemoryOutside, reg_readVector,
    readVector_memorySame s source m _ _] at h ⊢
  exact h

theorem readVector_wf (s : State) (source : Source) (msg : Dword) (h : s.mem.wf) : (s.readVector source msg).mem.wf := by
  obtain ⟨events, he⟩ := readVector_spec s source msg
  rw [he]; exact h

@[simp] theorem enterHandler_pc (s : State) (msg vec : Dword) : (s.enterHandler msg vec).pc = vec := by
  simp [State.enterHandler]

@[simp] theorem enterHandler_sleeping (s : State) (msg vec : Dword) : (s.enterHandler msg vec).sleeping = false := by
  simp [State.enterHandler]

theorem enterHandler_mem (s : State) (msg vec : Dword) :
    (s.enterHandler msg vec).mem = ((s.push (s.reg .r0)).push s.pc).mem := by
  simp only [State.enterHandler, setSleeping_mem, setFlag_mem, setPc_mem, setReg_mem]

theorem enterHandler_platform (s : State) (msg vec : Dword) : PlatformSame s (s.enterHandler msg vec) := by
  have h1 := push_platform s (s.reg .r0)
  have h2 := push_platform (s.push (s.reg .r0)) s.pc
  simp only [PlatformSame, State.enterHandler, setSleeping_memMap, setFlag_memMap, setPc_memMap, setReg_memMap,
    setSleeping_otherMasters, setFlag_otherMasters, setPc_otherMasters, setReg_otherMasters, setSleeping_env, setFlag_env, setPc_env, setReg_env, setSleeping_tick, setFlag_tick, setPc_tick, setReg_tick]
  exact ⟨h2.1.trans h1.1, h2.2.1.trans h1.2.1, h2.2.2.1.trans h1.2.2.1, h2.2.2.2.trans h1.2.2.2⟩

theorem enterHandler_bus (s : State) (msg vec : Dword) : (s.enterHandler msg vec).bus =
    s.bus ++ [.write (s.reg .sp - 4) 4 (s.reg .r0), .write (s.reg .sp - 8) 4 s.pc] := by
  simp [State.enterHandler]
  bv_omega

theorem enterHandler_readByte (s : State) (msg vec : Dword) (why : Access) (a : Dword) :
    (s.enterHandler msg vec).readByte why a = ((s.push (s.reg .r0)).push s.pc).readByte why a := by
  have h := enterHandler_platform s msg vec
  have h1 := push_platform s (s.reg .r0)
  have h2 := push_platform (s.push (s.reg .r0)) s.pc
  exact readByte_congr (enterHandler_mem s msg vec) (h.1.trans (h2.1.trans h1.1).symm)
    (h.2.2.2.trans (h2.2.2.2.trans h1.2.2.2).symm) why a

/-- The entry of a handler: everything it does beside the bus record and the platform. -/
theorem enterHandler_spec (s : State) (msg vec : Dword) : HandlerEntered msg vec s.pc s (s.enterHandler msg vec) := by
  obtain ⟨hold1, hold2, out⟩ := push_push_bytes s (s.reg .r0) s.pc
  have hkind (b : Dword) : ((s.push (s.reg .r0)).push s.pc).kindAt b = (s.enterHandler msg vec).kindAt b := by
    have h := enterHandler_platform s msg vec
    have h1 := push_platform s (s.reg .r0)
    have h2 := push_platform (s.push (s.reg .r0)) s.pc
    exact kindAt_congr ((h2.1.trans h1.1).trans h.1.symm) b
  refine ⟨?_, ?_, by simp, ?_, by simp, fun k hk => ?_, fun r hr => ?_, fun why b hb hk => ?_, fun why b hb hk => ?_,
    fun why b hb => ?_⟩
  · simp [State.enterHandler]
    bv_omega
  · simp [State.enterHandler]
  · simp [State.enterHandler]
  · have hne := hk .interrupt (by simp)
    simp [State.enterHandler, flagBit_setFlag, hne]
  · obtain ⟨h0, hsp, hf⟩ : r ≠ .r0 ∧ r ≠ .sp ∧ r ≠ .flags := by simpa using hr
    simp [State.enterHandler, h0, hsp, hf]
  · rw [enterHandler_readByte, hold1 why b hb (by rw [hkind, hk])]
  · rw [enterHandler_readByte, hold2 why b hb (by rw [hkind, hk])]
  · rw [enterHandler_readByte, out why b hb]

theorem enterHandler_wf (s : State) (msg vec : Dword) (h : s.mem.wf) : (s.enterHandler msg vec).mem.wf := by
  rw [enterHandler_mem]
  exact push_wf _ _ (push_wf _ _ h)

theorem takeInterrupt_wf (s : State) (source : Source) (msg : Dword) (h : s.mem.wf) :
    (s.takeInterrupt source msg).mem.wf := by
  unfold State.takeInterrupt
  split
  · split
    · obtain ⟨events, he⟩ := abortInterrupt_spec (s.readVector source msg) source
      rw [he]; exact readVector_wf s source msg h
    · exact enterHandler_wf _ _ _ (readVector_wf s source msg h)
  · exact h

/-- The registers and `pc` after a return (the two pops read the dwords at `%sp` and `%sp + 4`). -/
theorem returnFromInterrupt_spec (s : State) :
    s.returnFromInterrupt.pc = s.readDword .stack (s.reg .sp) ∧
      s.returnFromInterrupt.reg .r0 = s.readDword .stack (s.reg .sp + 4) ∧
      s.returnFromInterrupt.reg .sp = s.reg .sp + 4 + 4 ∧ s.returnFromInterrupt.flag .interrupt = false ∧
      FlagBitsExcept [.interrupt] s s.returnFromInterrupt ∧ RegsExcept [.r0, .sp, .flags] s s.returnFromInterrupt ∧
      s.returnFromInterrupt.mem = s.mem := by
  have hp : s.pop.popped = s.readDword .stack (s.reg .sp + 4) := by
    simp only [State.popped, (pop_spec s).1]
    exact readDword_congr rfl rfl rfl _ _
  refine ⟨rfl, ?_, ?_, ?_, fun k hk => ?_, fun r hr => ?_, rfl⟩
  · simp [State.returnFromInterrupt, hp]
  · simp [State.returnFromInterrupt, State.pop]
  · simp [State.returnFromInterrupt]
  · simp only [State.returnFromInterrupt, flagBit_setFlag]
    rw [if_neg (hk .interrupt (by simp))]
    simp [State.pop]
  · obtain ⟨h0, hsp, hf⟩ : r ≠ .r0 ∧ r ≠ .sp ∧ r ≠ .flags := by simpa using hr
    simp [State.returnFromInterrupt, State.pop, h0, hsp, hf]

/-! ### The skip -/

theorem skipFrom_zero (s : State) (a : Dword) : s.skipFrom 0 a = none := rfl

theorem skipFrom_succ (s : State) (fuel : Nat) (a : Dword) : s.skipFrom (fuel + 1) a =
    if isConditional (s.skippedWord a) then
      (s.skipFrom fuel (s.skipOne a)).map (fun p => (a :: p.1, p.2))
    else some ([a], s.skipOne a) := by
  rw [State.skipFrom]
  split
  · cases s.skipFrom fuel (s.skipOne a) <;> rfl
  · rfl

/-- A skip that ends within some number of rounds ends in the same way within more. -/
theorem skipFrom_more (s : State) : ∀ (fuel more : Nat) (a : Dword) (p : List Dword × Dword),
    s.skipFrom fuel a = some p → s.skipFrom (fuel + more) a = some p := by
  intro fuel
  induction fuel with
  | zero => intro more a p h; simp [skipFrom_zero] at h
  | succ fuel ih =>
    intro more a p h
    rw [show fuel + 1 + more = (fuel + more) + 1 by omega, skipFrom_succ]
    rw [skipFrom_succ] at h
    split at h
    · rename_i hc
      rw [if_pos hc]
      obtain ⟨q, hq, rfl⟩ := Option.map_eq_some_iff.mp h
      rw [ih more _ q hq]; rfl
    · rename_i hc
      rwa [if_neg hc]

/-- A skip depends on memory, map and counter only. -/
theorem skipFrom_congr {s t : State} (hm : t.mem = s.mem) (hp : t.memMap = s.memMap) (ht : t.tick = s.tick) :
    ∀ (fuel : Nat) (a : Dword), t.skipFrom fuel a = s.skipFrom fuel a := by
  have hw (a : Dword) : t.skippedWord a = s.skippedWord a := readDword_congr hm hp ht .skip a
  intro fuel
  induction fuel with
  | zero => intro a; rfl
  | succ fuel ih => intro a; simp only [skipFrom_succ, State.skipOne, hw, ih]

/-- A test answers one of three things, decided by its outcome and by whether the skip ends. -/
theorem executeIf_cases (s : State) (holds : Bool) (rn : Operand) :
    (holds = true ∧ s.executeIf holds rn = .next (s.advance rn)) ∨
    (holds = false ∧ ∃ visited target, SkipEnds s (s.npc rn) visited target ∧
      s.executeIf holds rn = .next ((s.logSkipped visited).setPc target)) ∨
    (holds = false ∧ (∀ visited target, ¬SkipEnds s (s.npc rn) visited target) ∧
      s.executeIf holds rn = .fault (.skipNeverEnds s.pc)) := by
  cases holds
  · right
    unfold SkipEnds State.executeIf
    cases hs : s.skipFrom skipFuel (s.npc rn) with
    | none => right; exact ⟨rfl, by simp, rfl⟩
    | some p => left; exact ⟨rfl, p.1, p.2, rfl, rfl⟩
  · left; exact ⟨rfl, rfl⟩

/-! ### The step -/

/-- What a boundary does: take the offered interrupt, or else what a quiet boundary does. -/
theorem boundary_cases (s : State) (hw : Option Dword) :
    (∃ msg, hw = some msg ∧ s.Accepts ∧ s.boundary hw = .next (s.takeInterrupt .hardware msg)) ∨
      ((hw = none ∨ ¬s.Accepts) ∧ s.boundary hw = s.executeNext) := by
  cases hw with
  | none => right; exact ⟨.inl rfl, rfl⟩
  | some msg =>
    by_cases h : s.Accepts
    · left
      exact ⟨msg, rfl, h, by simp [State.boundary, (acceptsInterrupt_iff s).mpr h]⟩
    · right
      refine ⟨.inr h, ?_⟩
      have : s.acceptsInterrupt = false := by rw [← acceptsInterrupt_iff] at h; simpa using h
      simp [State.boundary, this]

/-- Where a boundary without an accepted interrupt gives a next state, the CPU slept through it or one decoded
instruction gave that state, followed by the trap it was armed for. -/
theorem executeNext_next {s t : State} (h : s.executeNext = .next t) :
    (s.sleeping = true ∧ t = s) ∨
      ∃ i u, s.sleeping = false ∧ s.pc.extractLsb' 0 2 = 0 ∧
        decodeDwords s.fetchedWord s.fetchedLiteral = .ok i ∧ exec i s.logFetch = .next u ∧
        t = u.afterInstruction s.trapArmed := by
  unfold State.executeNext at h
  split at h
  · rename_i hs
    exact .inl ⟨hs, (Host.Outcome.next.inj h).symm⟩
  · rename_i hs
    split at h
    · cases h
    · rename_i ha
      cases hd : decodeDwords s.fetchedWord s.fetchedLiteral with
      | error e => simp only [hd] at h; cases h
      | ok i =>
        simp only [hd] at h
        cases he : exec i s.logFetch with
        | next u =>
          simp only [he] at h
          exact .inr ⟨i, u, by simpa using hs, by simpa using ha, rfl, he, (Host.Outcome.next.inj h).symm⟩
        | fault r => simp only [he] at h; cases h
        | refused r => simp only [he] at h; cases h

/-- A next state of a step is the next state of its move with the counter advanced. -/
theorem step_next {s t : State} (h : step s = .next t) :
    ∃ u, s.beginStep.move (s.env.headD (.boundary none)) = .next u ∧ t = u.endStep := by
  unfold step at h
  cases hm : s.beginStep.move (s.env.headD (.boundary none)) with
  | next u => rw [hm] at h; exact ⟨u, rfl, (Host.Outcome.next.inj h).symm⟩
  | fault r => rw [hm] at h; cases h
  | refused r => rw [hm] at h; cases h

/-- A step whose move is a boundary. -/
theorem step_boundary (s : State) (hw : Option Dword) (h : s.env.headD (.boundary none) = .boundary hw) :
    step s = finishStep (s.beginStep.boundary hw) := by
  unfold step
  rw [h]
  rfl

/-- The reset edge clears the CPU, keeps the platform, and leaves every byte that it is not told of or that the step was
not going to write. -/
theorem resetEdge_spec (s : State) (hw : Option Dword) (landed : List ByteWrite) :
    (∀ r, (s.resetEdge hw landed).reg r = 0) ∧ (s.resetEdge hw landed).pc = 0 ∧
      (s.resetEdge hw landed).sleeping = false ∧ PlatformSame s (s.resetEdge hw landed) ∧
      ∀ a : Dword, a ∉ landed.map Prod.fst ∨ a ∉ s.stepWrites hw →
        (s.resetEdge hw landed).mem.read a.toNat = s.mem.read a.toNat := by
  refine ⟨fun r => by cases r <;> rfl, rfl, rfl, ?_, fun a ha => read_writeCells_other _ _ _ fun c hc => ?_⟩
  · refine ⟨?_, ?_, ?_, ?_⟩ <;> simp [State.resetEdge]
  · obtain ⟨hl, hw⟩ := List.mem_filter.mp hc
    rintro rfl
    exact ha.elim (fun h => h (List.mem_map_of_mem hl)) (fun h => h (by simpa using hw))

theorem resetEdge_wf (s : State) (hw : Option Dword) (landed : List ByteWrite) (h : s.mem.wf) :
    (s.resetEdge hw landed).mem.wf := writeCells_wf _ _ h

/-- Other masters change memory only, and nothing where the platform has none. -/
theorem mastersWrite_spec (s : State) (writes : List ByteWrite) :
    (s.mastersWrite writes).regs = s.regs ∧ (s.mastersWrite writes).pc = s.pc ∧
      (s.mastersWrite writes).sleeping = s.sleeping ∧ PlatformSame s (s.mastersWrite writes) ∧
      (s.mastersWrite writes).mem = if s.otherMasters then (s.writeCells writes).mem else s.mem := by
  unfold State.mastersWrite PlatformSame
  split <;> simp

theorem mastersWrite_wf (s : State) (writes : List ByteWrite) (h : s.mem.wf) : (s.mastersWrite writes).mem.wf := by
  unfold State.mastersWrite
  split
  · exact writeCells_wf _ _ h
  · exact h

theorem placeDword_wf (s : State) (a v : Dword) (h : s.mem.wf) : (s.placeDword a v).mem.wf :=
  write_wf _ _ _ (write_wf _ _ _ (write_wf _ _ _ (write_wf _ _ _ h (BitVec.isLt _)) (BitVec.isLt _)) (BitVec.isLt _))
    (BitVec.isLt _)

/-- Memory right after reset has the canonical form. -/
theorem reset_mem_wf : State.reset.mem.wf := ⟨List.Pairwise.nil, by simp [State.reset]⟩

end Sys2Proof.Machine
end

