-- ==== Sys2Proof/Laws/PerInstr.lean ====
section
/-! SUPPORT. The family EncodedLength: of a well-formed instruction's encoding the first dword alone tells how long the
instruction is and whether it is one of the eight tests (30_encoding.md R91, 43_skip.md R171). -/

namespace Sys2Proof

/-- Whether an operand takes the literal dword (R89). -/
def Operand.isLiteral : Operand → Bool
  | .reg _ => false
  | .imm _ => false
  | .lit _ => true

theorem Operand.literal_length (rn : Operand) : rn.literal.length = rn.isLiteral.toNat := by cases rn <;> rfl

theorem imm_field_ne_marker (w : Nat) (v : Dword) (h : immFits w v = true) : (v.setWidth w == marker w) = false := by
  simp only [immFits, Bool.and_eq_true, bne_iff_ne] at h
  simpa [marker] using h.2

/-- The marker bit pattern with M set stands for a literal and for nothing else (R89). -/
theorem Operand.marks (w : Nat) (rn : Operand) (h : rn.wf w = true) :
    ((rn.mBit == 1) && rn.field w == marker w) = rn.isLiteral := by
  cases rn with
  | reg r => rfl
  | imm v =>
    have := imm_field_ne_marker w v h
    simp only [Operand.field, Operand.isLiteral, this, Bool.and_false]
  | lit v => simp [Operand.mBit, Operand.field, Operand.isLiteral]

/-! ### The fields of an encoded dword -/

theorem bit_eq_one (m : BitVec 1) : m.getLsbD 0 = (m == 1) := by
  obtain h | h : m = 0 ∨ m = 1 := by
    have := m.isLt
    rcases Nat.lt_or_ge m.toNat 1 with h | h
    · left; apply BitVec.eq_of_toNat_eq; simp; omega
    · right; apply BitVec.eq_of_toNat_eq; simp; omega
  · subst h; rfl
  · subst h; rfl

/-- The bits of a P3 dword. -/
theorem p3_bit (op : BitVec 8) (m : BitVec 1) (f : BitVec 15) (rs rd : BitVec 4) (i : Nat) :
    (op ++ m ++ f ++ rs ++ rd : Dword).getLsbD i =
      if i < 4 then rd.getLsbD i else if i - 4 < 4 then rs.getLsbD (i - 4)
      else if i - 4 - 4 < 15 then f.getLsbD (i - 4 - 4) else if i - 4 - 4 - 15 < 1 then m.getLsbD (i - 4 - 4 - 15)
      else op.getLsbD (i - 4 - 4 - 15 - 1) := by
  rw [BitVec.getLsbD_append, BitVec.getLsbD_append, BitVec.getLsbD_append, BitVec.getLsbD_append]

/-- The bits of a P2 dword. -/
theorem p2_bit (op : BitVec 8) (m : BitVec 1) (f : BitVec 19) (rd : BitVec 4) (i : Nat) :
    (op ++ m ++ f ++ rd : Dword).getLsbD i =
      if i < 4 then rd.getLsbD i else if i - 4 < 19 then f.getLsbD (i - 4)
      else if i - 4 - 19 < 1 then m.getLsbD (i - 4 - 19) else op.getLsbD (i - 4 - 19 - 1) := by
  rw [BitVec.getLsbD_append, BitVec.getLsbD_append, BitVec.getLsbD_append]

/-- The bits of a P1 dword. -/
theorem p1_bit (op : BitVec 8) (m : BitVec 1) (f : BitVec 23) (i : Nat) :
    (op ++ m ++ f : Dword).getLsbD i =
      if i < 23 then f.getLsbD i else if i - 23 < 1 then m.getLsbD (i - 23) else op.getLsbD (i - 23 - 1) := by
  rw [BitVec.getLsbD_append, BitVec.getLsbD_append]

theorem p3_opcode (op : BitVec 8) (m : BitVec 1) (f : BitVec 15) (rs rd : BitVec 4) :
    (op ++ m ++ f ++ rs ++ rd : Dword).extractLsb' 24 8 = op := by
  ext i hi
  rw [BitVec.getElem_extractLsb', p3_bit, if_neg (by omega), if_neg (by omega), if_neg (by omega), if_neg (by omega),
    show 24 + i - 4 - 4 - 15 - 1 = i by omega, BitVec.getLsbD_eq_getElem]

theorem p3_m (op : BitVec 8) (m : BitVec 1) (f : BitVec 15) (rs rd : BitVec 4) :
    (op ++ m ++ f ++ rs ++ rd : Dword).getLsbD 23 = (m == 1) := by
  rw [p3_bit, ← bit_eq_one]; rfl

theorem p3_field (op : BitVec 8) (m : BitVec 1) (f : BitVec 15) (rs rd : BitVec 4) :
    (op ++ m ++ f ++ rs ++ rd : Dword).extractLsb' 8 15 = f := by
  ext i hi
  rw [BitVec.getElem_extractLsb', p3_bit, if_neg (by omega), if_neg (by omega), if_pos (by omega),
    show 8 + i - 4 - 4 = i by omega, BitVec.getLsbD_eq_getElem]

theorem p2_opcode (op : BitVec 8) (m : BitVec 1) (f : BitVec 19) (rd : BitVec 4) :
    (op ++ m ++ f ++ rd : Dword).extractLsb' 24 8 = op := by
  ext i hi
  rw [BitVec.getElem_extractLsb', p2_bit, if_neg (by omega), if_neg (by omega), if_neg (by omega),
    show 24 + i - 4 - 19 - 1 = i by omega, BitVec.getLsbD_eq_getElem]

theorem p2_m (op : BitVec 8) (m : BitVec 1) (f : BitVec 19) (rd : BitVec 4) :
    (op ++ m ++ f ++ rd : Dword).getLsbD 23 = (m == 1) := by
  rw [p2_bit, ← bit_eq_one]; rfl

theorem p2_field (op : BitVec 8) (m : BitVec 1) (f : BitVec 19) (rd : BitVec 4) :
    (op ++ m ++ f ++ rd : Dword).extractLsb' 4 19 = f := by
  ext i hi
  rw [BitVec.getElem_extractLsb', p2_bit, if_neg (by omega), if_pos (by omega), show 4 + i - 4 = i by omega,
    BitVec.getLsbD_eq_getElem]

theorem p1_opcode (op : BitVec 8) (m : BitVec 1) (f : BitVec 23) :
    (op ++ m ++ f : Dword).extractLsb' 24 8 = op := by
  ext i hi
  rw [BitVec.getElem_extractLsb', p1_bit, if_neg (by omega), if_neg (by omega), show 24 + i - 23 - 1 = i by omega,
    BitVec.getLsbD_eq_getElem]

theorem p1_m (op : BitVec 8) (m : BitVec 1) (f : BitVec 23) : (op ++ m ++ f : Dword).getLsbD 23 = (m == 1) := by
  rw [p1_bit, ← bit_eq_one]; rfl

theorem p1_field (op : BitVec 8) (m : BitVec 1) (f : BitVec 23) : (op ++ m ++ f : Dword).extractLsb' 0 23 = f := by
  ext i hi
  rw [BitVec.getElem_extractLsb', p1_bit, Nat.zero_add, if_pos hi, BitVec.getLsbD_eq_getElem]

/-- The format of a dword by its opcode byte. -/
theorem formatOf_opcode (ins : Dword) : formatOf ins =
    if (opcodeOf ins).getLsbD 7 then .p3 else if (opcodeOf ins).getLsbD 6 then .p2
    else if (opcodeOf ins).getLsbD 5 then .p1 else .np := by
  simp [formatOf, opcodeOf]

/-! ### The family -/

/-- An encoding of one or two dwords, of which the first tells the length and whether the instruction is a test. -/
def Laws.EncodedLength.Tells (test : Bool) (dwords : List Dword) : Prop :=
  ∃ ins rest, dwords = ins :: rest ∧ rest.length = (hasLiteral ins).toNat ∧ isConditional ins = test

/-- A well-formed instruction's first dword tells its length and whether it is a test. -/
def Laws.EncodedLength.Statement (i : Instr) : Prop :=
  i.wf = true → Laws.EncodedLength.Tells (Machine.isTest i) (encode i)

theorem Laws.EncodedLength.p3 (op : BitVec 8) (rd rs : Reg) (rn : Operand) (h : rn.wf 15 = true)
    (hop : op.getLsbD 7 = true) (hc : (decide (0x4B ≤ op.toNat) && decide (op.toNat ≤ 0x52)) = false) :
    Laws.EncodedLength.Tells false (encodeP3 op rd rs rn) := by
  refine ⟨_, _, rfl, ?_, ?_⟩
  · rw [rn.literal_length, ← rn.marks 15 h]
    rw [hasLiteral, formatOf_opcode, opcodeOf, p3_opcode, if_pos hop]
    simp only [mBit, fieldP3, p3_m, p3_field]
  · simpa [isConditional, opcodeOf, p3_opcode] using hc

theorem Laws.EncodedLength.p2 (op : BitVec 8) (rd : Reg) (rn : Operand) (h : rn.wf 19 = true)
    (hop : op.getLsbD 7 = false) (hop6 : op.getLsbD 6 = true) (test : Bool)
    (hc : (decide (0x4B ≤ op.toNat) && decide (op.toNat ≤ 0x52)) = test) :
    Laws.EncodedLength.Tells test (encodeP2 op rd rn) := by
  refine ⟨_, _, rfl, ?_, ?_⟩
  · rw [rn.literal_length, ← rn.marks 19 h]
    rw [hasLiteral, formatOf_opcode, opcodeOf, p2_opcode, hop, if_neg Bool.false_ne_true, if_pos hop6]
    simp only [mBit, fieldP2, p2_m, p2_field]
  · simpa [isConditional, opcodeOf, p2_opcode] using hc

theorem Laws.EncodedLength.p1 (op : BitVec 8) (rn : Operand) (h : rn.wf 23 = true)
    (hop : op.getLsbD 7 = false) (hop6 : op.getLsbD 6 = false) (hop5 : op.getLsbD 5 = true)
    (hc : (decide (0x4B ≤ op.toNat) && decide (op.toNat ≤ 0x52)) = false) :
    Laws.EncodedLength.Tells false (encodeP1 op rn) := by
  refine ⟨_, _, rfl, ?_, ?_⟩
  · rw [rn.literal_length, ← rn.marks 23 h]
    rw [hasLiteral, formatOf_opcode, opcodeOf, p1_opcode, hop, if_neg Bool.false_ne_true, hop6, if_neg Bool.false_ne_true, if_pos hop5]
    simp only [mBit, fieldP1, p1_m, p1_field]
  · simpa [isConditional, opcodeOf, p1_opcode] using hc

theorem Laws.EncodedLength.and (rd rs : Reg) (rn : Operand) : Laws.EncodedLength.Statement (.and rd rs rn) :=
  fun h => Laws.EncodedLength.p3 0x80 rd rs rn h (by decide) (by decide)

theorem Laws.EncodedLength.or (rd rs : Reg) (rn : Operand) : Laws.EncodedLength.Statement (.or rd rs rn) :=
  fun h => Laws.EncodedLength.p3 0x81 rd rs rn h (by decide) (by decide)

theorem Laws.EncodedLength.xor (rd rs : Reg) (rn : Operand) : Laws.EncodedLength.Statement (.xor rd rs rn) :=
  fun h => Laws.EncodedLength.p3 0x82 rd rs rn h (by decide) (by decide)

theorem Laws.EncodedLength.bitc (rd rs : Reg) (rn : Operand) : Laws.EncodedLength.Statement (.bitc rd rs rn) :=
  fun h => Laws.EncodedLength.p3 0x83 rd rs rn h (by decide) (by decide)

theorem Laws.EncodedLength.add (rd rs : Reg) (rn : Operand) : Laws.EncodedLength.Statement (.add rd rs rn) :=
  fun h => Laws.EncodedLength.p3 0x84 rd rs rn h (by decide) (by decide)

theorem Laws.EncodedLength.addc (rd rs : Reg) (rn : Operand) : Laws.EncodedLength.Statement (.addc rd rs rn) :=
  fun h => Laws.EncodedLength.p3 0x85 rd rs rn h (by decide) (by decide)

theorem Laws.EncodedLength.sub (rd rs : Reg) (rn : Operand) : Laws.EncodedLength.Statement (.sub rd rs rn) :=
  fun h => Laws.EncodedLength.p3 0x86 rd rs rn h (by decide) (by decide)

theorem Laws.EncodedLength.subb (rd rs : Reg) (rn : Operand) : Laws.EncodedLength.Statement (.subb rd rs rn) :=
  fun h => Laws.EncodedLength.p3 0x87 rd rs rn h (by decide) (by decide)

theorem Laws.EncodedLength.rsb (rd rs : Reg) (rn : Operand) : Laws.EncodedLength.Statement (.rsb rd rs rn) :=
  fun h => Laws.EncodedLength.p3 0x88 rd rs rn h (by decide) (by decide)

theorem Laws.EncodedLength.rsbb (rd rs : Reg) (rn : Operand) : Laws.EncodedLength.Statement (.rsbb rd rs rn) :=
  fun h => Laws.EncodedLength.p3 0x89 rd rs rn h (by decide) (by decide)

theorem Laws.EncodedLength.lls (rd rs : Reg) (rn : Operand) : Laws.EncodedLength.Statement (.lls rd rs rn) :=
  fun h => Laws.EncodedLength.p3 0x8A rd rs rn h (by decide) (by decide)

theorem Laws.EncodedLength.lrs (rd rs : Reg) (rn : Operand) : Laws.EncodedLength.Statement (.lrs rd rs rn) :=
  fun h => Laws.EncodedLength.p3 0x8B rd rs rn h (by decide) (by decide)

theorem Laws.EncodedLength.ars (rd rs : Reg) (rn : Operand) : Laws.EncodedLength.Statement (.ars rd rs rn) :=
  fun h => Laws.EncodedLength.p3 0x8C rd rs rn h (by decide) (by decide)

theorem Laws.EncodedLength.rotl (rd rs : Reg) (rn : Operand) : Laws.EncodedLength.Statement (.rotl rd rs rn) :=
  fun h => Laws.EncodedLength.p3 0x8D rd rs rn h (by decide) (by decide)

theorem Laws.EncodedLength.rotr (rd rs : Reg) (rn : Operand) : Laws.EncodedLength.Statement (.rotr rd rs rn) :=
  fun h => Laws.EncodedLength.p3 0x8E rd rs rn h (by decide) (by decide)

theorem Laws.EncodedLength.mul (rd rs : Reg) (rn : Operand) : Laws.EncodedLength.Statement (.mul rd rs rn) :=
  fun h => Laws.EncodedLength.p3 0x8F rd rs rn h (by decide) (by decide)

theorem Laws.EncodedLength.smul (rd rs : Reg) (rn : Operand) : Laws.EncodedLength.Statement (.smul rd rs rn) :=
  fun h => Laws.EncodedLength.p3 0x90 rd rs rn h (by decide) (by decide)

theorem Laws.EncodedLength.div (rd rs : Reg) (rn : Operand) : Laws.EncodedLength.Statement (.div rd rs rn) :=
  fun h => Laws.EncodedLength.p3 0x91 rd rs rn h (by decide) (by decide)

theorem Laws.EncodedLength.sdiv (rd rs : Reg) (rn : Operand) : Laws.EncodedLength.Statement (.sdiv rd rs rn) :=
  fun h => Laws.EncodedLength.p3 0x92 rd rs rn h (by decide) (by decide)

theorem Laws.EncodedLength.loadP3 (rd rs : Reg) (rn : Operand) : Laws.EncodedLength.Statement (.loadP3 rd rs rn) :=
  fun h => Laws.EncodedLength.p3 0x93 rd rs rn h (by decide) (by decide)

theorem Laws.EncodedLength.loadwP3 (rd rs : Reg) (rn : Operand) : Laws.EncodedLength.Statement (.loadwP3 rd rs rn) :=
  fun h => Laws.EncodedLength.p3 0x94 rd rs rn h (by decide) (by decide)

theorem Laws.EncodedLength.loadbP3 (rd rs : Reg) (rn : Operand) : Laws.EncodedLength.Statement (.loadbP3 rd rs rn) :=
  fun h => Laws.EncodedLength.p3 0x95 rd rs rn h (by decide) (by decide)

theorem Laws.EncodedLength.storeP3 (rd rs : Reg) (rn : Operand) : Laws.EncodedLength.Statement (.storeP3 rd rs rn) :=
  fun h => Laws.EncodedLength.p3 0x96 rd rs rn h (by decide) (by decide)

theorem Laws.EncodedLength.storewP3 (rd rs : Reg) (rn : Operand) : Laws.EncodedLength.Statement (.storewP3 rd rs rn) :=
  fun h => Laws.EncodedLength.p3 0x97 rd rs rn h (by decide) (by decide)

theorem Laws.EncodedLength.storebP3 (rd rs : Reg) (rn : Operand) : Laws.EncodedLength.Statement (.storebP3 rd rs rn) :=
  fun h => Laws.EncodedLength.p3 0x98 rd rs rn h (by decide) (by decide)

theorem Laws.EncodedLength.mov (rd : Reg) (rn : Operand) : Laws.EncodedLength.Statement (.mov rd rn) :=
  fun h => Laws.EncodedLength.p2 0x40 rd rn h (by decide) (by decide) _ rfl

theorem Laws.EncodedLength.swp (rd rn : Reg) : Laws.EncodedLength.Statement (.swp rd rn) :=
  fun _ => Laws.EncodedLength.p2 0x41 rd (.reg rn) rfl (by decide) (by decide) _ rfl

theorem Laws.EncodedLength.not (rd : Reg) (rn : Operand) : Laws.EncodedLength.Statement (.not rd rn) :=
  fun h => Laws.EncodedLength.p2 0x42 rd rn h (by decide) (by decide) _ rfl

theorem Laws.EncodedLength.sigxb (rd : Reg) (rn : Operand) : Laws.EncodedLength.Statement (.sigxb rd rn) :=
  fun h => Laws.EncodedLength.p2 0x43 rd rn h (by decide) (by decide) _ rfl

theorem Laws.EncodedLength.sigxw (rd : Reg) (rn : Operand) : Laws.EncodedLength.Statement (.sigxw rd rn) :=
  fun h => Laws.EncodedLength.p2 0x44 rd rn h (by decide) (by decide) _ rfl

theorem Laws.EncodedLength.loadP2 (rd : Reg) (rn : Operand) : Laws.EncodedLength.Statement (.loadP2 rd rn) :=
  fun h => Laws.EncodedLength.p2 0x45 rd rn h (by decide) (by decide) _ rfl

theorem Laws.EncodedLength.loadwP2 (rd : Reg) (rn : Operand) : Laws.EncodedLength.Statement (.loadwP2 rd rn) :=
  fun h => Laws.EncodedLength.p2 0x46 rd rn h (by decide) (by decide) _ rfl

theorem Laws.EncodedLength.loadbP2 (rd : Reg) (rn : Operand) : Laws.EncodedLength.Statement (.loadbP2 rd rn) :=
  fun h => Laws.EncodedLength.p2 0x47 rd rn h (by decide) (by decide) _ rfl

theorem Laws.EncodedLength.storeP2 (rd : Reg) (rn : Operand) : Laws.EncodedLength.Statement (.storeP2 rd rn) :=
  fun h => Laws.EncodedLength.p2 0x48 rd rn h (by decide) (by decide) _ rfl

theorem Laws.EncodedLength.storewP2 (rd : Reg) (rn : Operand) : Laws.EncodedLength.Statement (.storewP2 rd rn) :=
  fun h => Laws.EncodedLength.p2 0x49 rd rn h (by decide) (by decide) _ rfl

theorem Laws.EncodedLength.storebP2 (rd : Reg) (rn : Operand) : Laws.EncodedLength.Statement (.storebP2 rd rn) :=
  fun h => Laws.EncodedLength.p2 0x4A rd rn h (by decide) (by decide) _ rfl

theorem Laws.EncodedLength.ifeq (rd : Reg) (rn : Operand) : Laws.EncodedLength.Statement (.ifeq rd rn) :=
  fun h => Laws.EncodedLength.p2 0x4B rd rn h (by decide) (by decide) _ rfl

theorem Laws.EncodedLength.ifneq (rd : Reg) (rn : Operand) : Laws.EncodedLength.Statement (.ifneq rd rn) :=
  fun h => Laws.EncodedLength.p2 0x4C rd rn h (by decide) (by decide) _ rfl

theorem Laws.EncodedLength.ifl (rd : Reg) (rn : Operand) : Laws.EncodedLength.Statement (.ifl rd rn) :=
  fun h => Laws.EncodedLength.p2 0x4D rd rn h (by decide) (by decide) _ rfl

theorem Laws.EncodedLength.ifsl (rd : Reg) (rn : Operand) : Laws.EncodedLength.Statement (.ifsl rd rn) :=
  fun h => Laws.EncodedLength.p2 0x4E rd rn h (by decide) (by decide) _ rfl

theorem Laws.EncodedLength.ifle (rd : Reg) (rn : Operand) : Laws.EncodedLength.Statement (.ifle rd rn) :=
  fun h => Laws.EncodedLength.p2 0x4F rd rn h (by decide) (by decide) _ rfl

theorem Laws.EncodedLength.ifsle (rd : Reg) (rn : Operand) : Laws.EncodedLength.Statement (.ifsle rd rn) :=
  fun h => Laws.EncodedLength.p2 0x50 rd rn h (by decide) (by decide) _ rfl

theorem Laws.EncodedLength.ifbits (rd : Reg) (rn : Operand) : Laws.EncodedLength.Statement (.ifbits rd rn) :=
  fun h => Laws.EncodedLength.p2 0x51 rd rn h (by decide) (by decide) _ rfl

theorem Laws.EncodedLength.ifclear (rd : Reg) (rn : Operand) : Laws.EncodedLength.Statement (.ifclear rd rn) :=
  fun h => Laws.EncodedLength.p2 0x52 rd rn h (by decide) (by decide) _ rfl

theorem Laws.EncodedLength.jmpP2 (rd : Reg) (rn : Operand) : Laws.EncodedLength.Statement (.jmpP2 rd rn) :=
  fun h => Laws.EncodedLength.p2 0x53 rd rn h (by decide) (by decide) _ rfl

theorem Laws.EncodedLength.callP2 (rd : Reg) (rn : Operand) : Laws.EncodedLength.Statement (.callP2 rd rn) :=
  fun h => Laws.EncodedLength.p2 0x54 rd rn h (by decide) (by decide) _ rfl

theorem Laws.EncodedLength.xchgb (rn : Reg) : Laws.EncodedLength.Statement (.xchgb rn) :=
  fun _ => Laws.EncodedLength.p1 0x20 (.reg rn) rfl (by decide) (by decide) (by decide) (by decide)

theorem Laws.EncodedLength.xchgw (rn : Reg) : Laws.EncodedLength.Statement (.xchgw rn) :=
  fun _ => Laws.EncodedLength.p1 0x21 (.reg rn) rfl (by decide) (by decide) (by decide) (by decide)

theorem Laws.EncodedLength.getpc (rn : Reg) : Laws.EncodedLength.Statement (.getpc rn) :=
  fun _ => Laws.EncodedLength.p1 0x22 (.reg rn) rfl (by decide) (by decide) (by decide) (by decide)

theorem Laws.EncodedLength.pop (rn : Reg) : Laws.EncodedLength.Statement (.pop rn) :=
  fun _ => Laws.EncodedLength.p1 0x23 (.reg rn) rfl (by decide) (by decide) (by decide) (by decide)

theorem Laws.EncodedLength.push (rn : Reg) : Laws.EncodedLength.Statement (.push rn) :=
  fun _ => Laws.EncodedLength.p1 0x24 (.reg rn) rfl (by decide) (by decide) (by decide) (by decide)

theorem Laws.EncodedLength.jmpP1 (rn : Operand) : Laws.EncodedLength.Statement (.jmpP1 rn) :=
  fun h => Laws.EncodedLength.p1 0x25 rn h (by decide) (by decide) (by decide) (by decide)

theorem Laws.EncodedLength.callP1 (rn : Operand) : Laws.EncodedLength.Statement (.callP1 rn) :=
  fun h => Laws.EncodedLength.p1 0x26 rn h (by decide) (by decide) (by decide) (by decide)

theorem Laws.EncodedLength.rjmp (rn : Operand) : Laws.EncodedLength.Statement (.rjmp rn) :=
  fun h => Laws.EncodedLength.p1 0x27 rn h (by decide) (by decide) (by decide) (by decide)

theorem Laws.EncodedLength.rcall (rn : Operand) : Laws.EncodedLength.Statement (.rcall rn) :=
  fun h => Laws.EncodedLength.p1 0x28 rn h (by decide) (by decide) (by decide) (by decide)

theorem Laws.EncodedLength.int (rn : Operand) : Laws.EncodedLength.Statement (.int rn) :=
  fun h => Laws.EncodedLength.p1 0x29 rn h (by decide) (by decide) (by decide) (by decide)

theorem Laws.EncodedLength.sleep : Laws.EncodedLength.Statement .sleep := fun _ => ⟨_, _, rfl, by decide, by decide⟩

theorem Laws.EncodedLength.ret : Laws.EncodedLength.Statement .ret := fun _ => ⟨_, _, rfl, by decide, by decide⟩

theorem Laws.EncodedLength.rfi : Laws.EncodedLength.Statement .rfi := fun _ => ⟨_, _, rfl, by decide, by decide⟩

end Sys2Proof
end

