-- ==== Sys2Proof/Tests/Slice0.lean ====
section
/-! SUPPORT. The model's own tests. Words and expected values are those of spec/95_test_vectors.md (the section is named at each
group); then, for each obligation with hypotheses, a concrete state and operands that meet them. -/

namespace Sys2Proof.Tests

open Sys2Proof.Machine

/-! ### Well-formedness: each check refuses an ill-formed term (R88, R89) -/

theorem test_wf_p3_marker_refused : (Instr.and .r0 .r1 (.imm (-16384))).wf = false := by decide

theorem test_wf_p3_wide_refused : (Instr.loadP3 .r0 .r1 (.imm 16384)).wf = false := by decide

theorem test_wf_p3_bounds : (Instr.and .r0 .r1 (.imm 16383)).wf && (Instr.and .r0 .r1 (.imm (-16383))).wf = true := by decide

theorem test_wf_p2_marker_refused : (Instr.mov .r1 (.imm (-262144))).wf = false := by decide

theorem test_wf_p2_wide_refused : (Instr.jmpP2 .r1 (.imm 262144)).wf = false := by decide

theorem test_wf_p2_bounds : (Instr.mov .r1 (.imm 262143)).wf && (Instr.mov .r1 (.imm (-262143))).wf = true := by decide

theorem test_wf_p1_marker_refused : (Instr.int (.imm (-4194304))).wf = false := by decide

theorem test_wf_p1_wide_refused : (Instr.rjmp (.imm 4194304)).wf = false := by decide

theorem test_wf_p1_bounds : (Instr.rjmp (.imm 4194303)).wf && (Instr.rjmp (.imm (-4194303))).wf = true := by decide

/-! ### Decoding: every constructor from a word of the spec (95_test_vectors.md sections 1.1 to 2.10) -/

theorem test_decode_and : decodeTableWord 64 0xAAAA555580C00010 = some (.and .r0 .r1 (.lit 0xAAAA5555)) := by decide

theorem test_decode_or : decodeTableWord 32 0x81000767 = some (.or .r7 .r6 (.reg .r7)) := by decide

theorem test_decode_xor : decodeTableWord 32 0x82000321 = some (.xor .r1 .r2 (.reg .r3)) := by decide

theorem test_decode_bitc : decodeTableWord 32 0x838008FF = some (.bitc .flags .flags (.imm 8)) := by decide

theorem test_decode_add : decodeTableWord 32 0x84C00121 = some (.add .r1 .r2 (.imm 0xFFFFC001)) := by decide

theorem test_decode_addc : decodeTableWord 32 0x85000321 = some (.addc .r1 .r2 (.reg .r3)) := by decide

theorem test_decode_sub : decodeTableWord 32 0x86800122 = some (.sub .r2 .r2 (.imm 1)) := by decide

theorem test_decode_subb : decodeTableWord 32 0x87000321 = some (.subb .r1 .r2 (.reg .r3)) := by decide

theorem test_decode_rsb : decodeTableWord 32 0x88800021 = some (.rsb .r1 .r2 (.imm 0)) := by decide

theorem test_decode_rsbb : decodeTableWord 32 0x89000321 = some (.rsbb .r1 .r2 (.reg .r3)) := by decide

theorem test_decode_lls : decodeTableWord 32 0x8AFFFF21 = some (.lls .r1 .r2 (.imm 0xFFFFFFFF)) := by decide

theorem test_decode_lrs : decodeTableWord 32 0x8B801F21 = some (.lrs .r1 .r2 (.imm 31)) := by decide

theorem test_decode_ars : decodeTableWord 32 0x8C802821 = some (.ars .r1 .r2 (.imm 40)) := by decide

theorem test_decode_rotl : decodeTableWord 32 0x8D800421 = some (.rotl .r1 .r2 (.imm 4)) := by decide

theorem test_decode_rotr : decodeTableWord 32 0x8E802421 = some (.rotr .r1 .r2 (.imm 36)) := by decide

theorem test_decode_mul : decodeTableWord 32 0x8F00032B = some (.mul .y .r2 (.reg .r3)) := by decide

theorem test_decode_smul : decodeTableWord 32 0x90FFFF21 = some (.smul .r1 .r2 (.imm 0xFFFFFFFF)) := by decide

theorem test_decode_div : decodeTableWord 32 0x91800021 = some (.div .r1 .r2 (.imm 0)) := by decide

theorem test_decode_sdiv : decodeTableWord 32 0x92000321 = some (.sdiv .r1 .r2 (.reg .r3)) := by decide

theorem test_decode_loadP3 : decodeTableWord 32 0x93840017 = some (.loadP3 .r7 .r1 (.imm 1024)) := by decide

theorem test_decode_loadwP3 : decodeTableWord 32 0x94800221 = some (.loadwP3 .r1 .r2 (.imm 2)) := by decide

theorem test_decode_loadbP3 : decodeTableWord 32 0x95FFFF21 = some (.loadbP3 .r1 .r2 (.imm 0xFFFFFFFF)) := by decide

theorem test_decode_storeP3 : decodeTableWord 32 0x96800821 = some (.storeP3 .r1 .r2 (.imm 8)) := by decide

theorem test_decode_storewP3 : decodeTableWord 32 0x97000321 = some (.storewP3 .r1 .r2 (.reg .r3)) := by decide

theorem test_decode_storebP3 : decodeTableWord 32 0x98800321 = some (.storebP3 .r1 .r2 (.imm 3)) := by decide

theorem test_decode_mov : decodeTableWord 32 0x400000DA = some (.mov .r10 (.reg .sp)) := by decide

theorem test_decode_swp : decodeTableWord 32 0x41000021 = some (.swp .r1 .r2) := by decide

theorem test_decode_not : decodeTableWord 32 0x42000021 = some (.not .r1 (.reg .r2)) := by decide

theorem test_decode_sigxb : decodeTableWord 32 0x43800801 = some (.sigxb .r1 (.imm 0x80)) := by decide

theorem test_decode_sigxw : decodeTableWord 32 0x44000088 = some (.sigxw .r8 (.reg .r8)) := by decide

theorem test_decode_loadP2 : decodeTableWord 64 0x00FF200445C00001 = some (.loadP2 .r1 (.lit 0x00FF2004)) := by decide

theorem test_decode_loadwP2 : decodeTableWord 32 0x46000041 = some (.loadwP2 .r1 (.reg .r4)) := by decide

theorem test_decode_loadbP2 : decodeTableWord 32 0x47820031 = some (.loadbP2 .r1 (.imm 0x2003)) := by decide

theorem test_decode_storeP2 : decodeTableWord 64 0xFF0B000048C0000A = some (.storeP2 .r10 (.lit 0xFF0B0000)) := by decide

theorem test_decode_storewP2 : decodeTableWord 32 0x49000041 = some (.storewP2 .r1 (.reg .r4)) := by decide

theorem test_decode_storebP2 : decodeTableWord 64 0xFF0B00004AC0000A = some (.storebP2 .r10 (.lit 0xFF0B0000)) := by decide

theorem test_decode_ifeq : decodeTableWord 32 0x4BFFFFF1 = some (.ifeq .r1 (.imm 0xFFFFFFFF)) := by decide

theorem test_decode_ifneq : decodeTableWord 32 0x4C80000F = some (.ifneq .flags (.imm 0)) := by decide

theorem test_decode_ifl : decodeTableWord 32 0x4D000021 = some (.ifl .r1 (.reg .r2)) := by decide

theorem test_decode_ifsl : decodeTableWord 32 0x4E000021 = some (.ifsl .r1 (.reg .r2)) := by decide

theorem test_decode_ifle : decodeTableWord 32 0x4F800012 = some (.ifle .r2 (.imm 1)) := by decide

theorem test_decode_ifsle : decodeTableWord 32 0x50000021 = some (.ifsle .r1 (.reg .r2)) := by decide

theorem test_decode_ifbits : decodeTableWord 32 0x5180004F = some (.ifbits .flags (.imm 4)) := by decide

theorem test_decode_ifclear : decodeTableWord 32 0x52000021 = some (.ifclear .r1 (.reg .r2)) := by decide

theorem test_decode_jmpP2 : decodeTableWord 32 0x53803001 = some (.jmpP2 .r1 (.imm 0x300)) := by decide

theorem test_decode_callP2 : decodeTableWord 32 0x54800081 = some (.callP2 .r1 (.imm 8)) := by decide

theorem test_decode_xchgb : decodeTableWord 32 0x20000001 = some (.xchgb .r1) := by decide

theorem test_decode_xchgw : decodeTableWord 32 0x21000001 = some (.xchgw .r1) := by decide

theorem test_decode_getpc : decodeTableWord 32 0x22000001 = some (.getpc .r1) := by decide

theorem test_decode_pop : decodeTableWord 32 0x2300000F = some (.pop .flags) := by decide

theorem test_decode_push : decodeTableWord 32 0x2400000D = some (.push .sp) := by decide

theorem test_decode_jmpP1 : decodeTableWord 32 0x25C00001 = some (.jmpP1 (.imm 0xFFC00001)) := by decide

theorem test_decode_callP1 : decodeTableWord 64 0xBEBECAFE26C00000 = some (.callP1 (.lit 0xBEBECAFE)) := by decide

theorem test_decode_rjmp : decodeTableWord 32 0x27FFFFFC = some (.rjmp (.imm 0xFFFFFFFC)) := by decide

theorem test_decode_rcall : decodeTableWord 32 0x28FFF000 = some (.rcall (.imm 0xFFFFF000)) := by decide

theorem test_decode_int : decodeTableWord 32 0x29800021 = some (.int (.imm 0x21)) := by decide

theorem test_decode_sleep : decodeTableWord 32 0x00000000 = some (.sleep) := by decide

theorem test_decode_ret : decodeTableWord 32 0x01000000 = some (.ret) := by decide

theorem test_decode_rfi : decodeTableWord 32 0x02000000 = some (.rfi) := by decide

theorem test_decode_nop : decodeTableWord 32 0x40000000 = some Instr.nop := by decide

/-- Section 2.0: with M = 0 the upper bits of the field do not count. -/
theorem test_decode_upper_bits_ignored : decodeTableWord 32 0x8100F767 = decodeTableWord 32 0x81000767 := by decide

/-- Section 2.0: with M = 0 the marker pattern is a register. -/
theorem test_decode_marker_needs_m : decodeTableWord 32 0x80400010 = some (.and .r0 .r1 (.reg .r0)) := by decide

/-- Sections 2.0 and 2.10: unassigned opcode bytes, reserved bits of NP, forbidden immediates. -/
theorem test_decode_refused : [0x7FC00000, 0x1F000000, 0x03000000, 0x99000000, 0x3F000000, 0x01800000, 0x00000001,
    0x41800021, 0x22800001, 0x24800005, 0x20800001, 0x21800001, 0x23800001].map (decodeTableWord 32) =
    List.replicate 13 none := by decide

/-- R106's own examples. -/
theorem test_encode : encode (.or .r7 .r6 (.reg .r7)) = [0x81000767] ∧ encode (.mov .r10 (.reg .sp)) = [0x400000DA] ∧
    encode (.int (.imm 0x21)) = [0x29800021] ∧ encode (.callP1 (.lit 0xBEBECAFE)) = [0x26C00000, 0xBEBECAFE] ∧
    encode .ret = [0x01000000] := by decide

/-- The texts of section 1.1. -/
theorem test_text : (Instr.or .r7 .r6 (.reg .r7)).text = "OR %r7, %r6, %r7" ∧
    (Instr.loadP3 .r7 .r1 (.imm 1024)).text = "LOAD %r7, %r1 + 1024" ∧
    (Instr.storebP2 .r10 (.lit 0xFF0B0000)).text = "STOREB 0xff0b0000, %r10" := by decide

/-- R105: the short form where the number fits, else the long form. -/
theorem test_ofNumber : Operand.ofNumber 19 (-262143) = .imm (-262143) ∧
    Operand.ofNumber 19 (-262144) = .lit (-262144) := by decide

theorem test_decode_truncated : decode [0x00, 0x00, 0xC0] = .error .truncated := by decide

theorem test_decode_literal_truncated : decode [0x00, 0x00, 0xC0, 0x26, 0xFE] = .error .truncated := by decide

/-! ### One step on a small state -/

/-- A machine with `pc = 0x1000`, these registers, these dwords in memory, and the instruction of bits `w` at `pc`. -/
def machine (regs : List (Reg × Dword)) (data : List (Dword × Dword)) (w : Nat) : State :=
  let s := regs.foldl (fun s r => s.setReg r.1 r.2) { State.reset with pc := 0x1000 }
  (data.foldl (fun s d => s.placeDword d.1 d.2) s).withFetchWord 64 w

/-- Some registers and `pc` after one step. -/
def after (s : State) (rs : List Reg) : Option (List Dword × Dword) :=
  match step s with
  | .next t => some (rs.map t.reg, t.pc)
  | .fault _ => none
  | .refused _ => none

/-- Some dwords of memory after one step. -/
def stored (s : State) (addresses : List Dword) : Option (List Dword) :=
  match step s with
  | .next t => some (addresses.map (t.readDword .data))
  | .fault _ => none
  | .refused _ => none

/-! #### Section 2.1 -/

theorem test_load_wraps : after (machine [(.r2, 0x2000), (.r3, 0xFFFFFFFF)] [(0x2000, 0x11223344), (0x1FFC, 0x99887766)] 0x93000321) [.r1] =
    some ([0x22334499], 0x1004) := by decide

theorem test_loadw_misaligned : after (machine [(.r2, 0x2000), (.r1, 0xFFFFFFFF)] [(0x2000, 0x11223344), (0x2004, 0xAABBCCDD)] 0x94800321) [.r1] =
    some ([0xDD11], 0x1004) := by decide

theorem test_loadb_zero_extends : after (machine [(.r2, 0x2001), (.r1, 0xFFFFFFFF)] [(0x2000, 0x112233F4)] 0x95FFFF21) [.r1] =
    some ([0xF4], 0x1004) := by decide

theorem test_load_literal_address : after (machine [] [(0x00FF2004, 0x01020304)] 0x00FF200445C00001) [.r1] =
    some ([0x01020304], 0x1008) := by decide

/-! #### Section 2.2 -/

theorem test_mov_long : after (machine [] [] 0xFFFC000040C00001) [.r1] =
    some ([0xFFFC0000], 0x1008) := by decide

theorem test_swp : after (machine [(.r1, 5), (.r2, 9)] [] 0x41000021) [.r1, .r2] =
    some ([9, 5], 0x1004) := by decide

theorem test_sigxb : after (machine [(.r2, 0x12345680)] [] 0x43000021) [.r1] =
    some ([0xFFFFFF80], 0x1004) := by decide

theorem test_sigxw : after (machine [(.r2, 0x12347FFF), (.r1, 0x55555555)] [] 0x44000021) [.r1] =
    some ([0x7FFF], 0x1004) := by decide

theorem test_xchgb : after (machine [(.r1, 0x11223344)] [] 0x20000001) [.r1] =
    some ([0x11224433], 0x1004) := by decide

theorem test_xchgw : after (machine [(.r1, 0x11223344)] [] 0x21000001) [.r1] =
    some ([0x33441122], 0x1004) := by decide

theorem test_getpc : after (machine [] [] 0x22000001) [.r1] =
    some ([0x1004], 0x1004) := by decide

/-! #### Section 2.3 -/

theorem test_not : after (machine [(.r2, 0xF0F0A5A5), (.flags, 7)] [] 0x42000021) [.r1, .flags] =
    some ([0x0F0F5A5A, 7], 0x1004) := by decide

theorem test_and : after (machine [(.r2, 0xF0F0A5A5), (.r3, 0x0FF05A5F), (.flags, 7)] [] 0x80000321) [.r1, .flags] =
    some ([0x00F00005, 7], 0x1004) := by decide

theorem test_or : after (machine [(.r2, 0xF0F0A5A5), (.r3, 0x0FF05A5F)] [] 0x81000321) [.r1] =
    some ([0xFFF0FFFF], 0x1004) := by decide

theorem test_xor : after (machine [(.r2, 0xF0F0A5A5), (.r3, 0x0FF05A5F)] [] 0x82000321) [.r1] =
    some ([0xFF00FFFA], 0x1004) := by decide

theorem test_bitc : after (machine [(.r2, 0xF0F0A5A5), (.r3, 0x0FF05A5F)] [] 0x83000321) [.r1] =
    some ([0xF000A5A0], 0x1004) := by decide

/-! #### Section 2.4 -/

theorem test_add_overflow : after (machine [(.r2, 0x7FFFFFFF), (.r3, 1)] [] 0x84000321) [.r1, .flags] =
    some ([0x80000000, 2], 0x1004) := by decide

theorem test_add_into_flags : after (machine [(.r2, 0xFFFFFFFF), (.r3, 0x101)] [] 0x8400032F) [.flags] =
    some ([0x100], 0x1004) := by decide

theorem test_addc : after (machine [(.r2, 0xFFFFFFFF), (.r3, 0xFFFFFFFF), (.flags, 1)] [] 0x85000321) [.r1, .flags] =
    some ([0xFFFFFFFF, 1], 0x1004) := by decide

theorem test_sub_borrow : after (machine [(.r2, 3), (.r3, 5)] [] 0x86000321) [.r1, .flags] =
    some ([0xFFFFFFFE, 1], 0x1004) := by decide

theorem test_subb : after (machine [(.r2, 0x80000000), (.flags, 1)] [] 0x87000321) [.r1, .flags] =
    some ([0x7FFFFFFF, 2], 0x1004) := by decide

theorem test_rsb : after (machine [(.r2, 0x80000000)] [] 0x88800021) [.r1, .flags] =
    some ([0x80000000, 3], 0x1004) := by decide

theorem test_rsbb : after (machine [(.r2, 5), (.r3, 5), (.flags, 1)] [] 0x89000321) [.r1, .flags] =
    some ([0xFFFFFFFF, 1], 0x1004) := by decide

/-! #### Section 2.5 -/

theorem test_lls_by_32 : after (machine [(.r2, 0x80000001)] [] 0x8A802021) [.r1, .flags] =
    some ([0, 1], 0x1004) := by decide

theorem test_lls_by_all_ones : after (machine [(.r2, 0xFFFFFFFF), (.r3, 0xFFFFFFFF), (.flags, 1)] [] 0x8A000321) [.r1, .flags] =
    some ([0, 0], 0x1004) := by decide

theorem test_lrs_by_1 : after (machine [(.r2, 0x80000001)] [] 0x8B800121) [.r1, .flags] =
    some ([0x40000000, 1], 0x1004) := by decide

theorem test_ars_by_4 : after (machine [(.r2, 0x80000001), (.flags, 1)] [] 0x8C800421) [.r1, .flags] =
    some ([0xF8000000, 0], 0x1004) := by decide

theorem test_ars_by_33 : after (machine [(.r2, 0x80000001)] [] 0x8C802121) [.r1, .flags] =
    some ([0xFFFFFFFF, 1], 0x1004) := by decide

theorem test_rotl_by_36 : after (machine [(.r2, 0x12345678), (.flags, 1)] [] 0x8D802421) [.r1, .flags] =
    some ([0x23456781, 1], 0x1004) := by decide

theorem test_rotr_by_4 : after (machine [(.r2, 0x12345678), (.flags, 1)] [] 0x8E800421) [.r1, .flags] =
    some ([0x81234567, 1], 0x1004) := by decide

/-! #### Section 2.6 -/

theorem test_mul : after (machine [(.r2, 0xFFFFFFFF), (.r3, 0xFFFFFFFF), (.flags, 7)] [] 0x8F000321) [.r1, .y, .flags] =
    some ([1, 0xFFFFFFFE, 7], 0x1004) := by decide

theorem test_mul_into_y : after (machine [(.r2, 0x10000), (.r3, 0x30000)] [] 0x8F00032B) [.y] =
    some ([3], 0x1004) := by decide

theorem test_smul : after (machine [(.r2, 2)] [] 0x90FFFF21) [.r1, .y] =
    some ([0xFFFFFFFE, 0xFFFFFFFF], 0x1004) := by decide

theorem test_div : after (machine [(.r2, 0xFFFFFFFF), (.r3, 2), (.flags, 4)] [] 0x91000321) [.r1, .y, .flags] =
    some ([0x7FFFFFFF, 1, 0], 0x1004) := by decide

theorem test_div_by_zero : after (machine [(.r2, 0x64), (.r1, 0x11), (.y, 0x22)] [] 0x91000321) [.r1, .y, .flags] =
    some ([0x11, 0x22, 4], 0x1004) := by decide

theorem test_sdiv : after (machine [(.r2, 0xFFFFFFF9), (.r3, 2)] [] 0x92000321) [.r1, .y, .flags] =
    some ([0xFFFFFFFD, 0xFFFFFFFF, 0], 0x1004) := by decide

theorem test_sdiv_most_negative : after (machine [(.r2, 0x80000000), (.r3, 0xFFFFFFFF)] [] 0x92000321) [.r1, .y, .flags] =
    some ([0x80000000, 0, 0], 0x1004) := by decide

/-! #### Section 2.7 -/

theorem test_ifeq_chain : after (machine [(.r1, 1), (.r2, 2)] [(0x1008, 0x4CC00003), (0x100C, 0x12345678), (0x1010, 0x84C00055), (0x1014, 0x12345678), (0x1018, 0x40800016)] 0x4B0000334B000021) [] =
    some ([], 0x1018) := by decide

theorem test_ifneq_holds : after (machine [(.flags, 0x100)] [] 0x408000154C80000F) [] =
    some ([], 0x1004) := by decide

theorem test_ifl_unsigned : after (machine [(.r1, 0xFFFFFFFF), (.r2, 1)] [] 0x408000154D000021) [] =
    some ([], 0x1008) := by decide

theorem test_ifsl_signed : after (machine [(.r1, 0xFFFFFFFF), (.r2, 1)] [] 0x408000154E000021) [] =
    some ([], 0x1004) := by decide

theorem test_ifle : after (machine [(.r1, 2), (.r2, 2)] [] 0x408000154F000021) [] =
    some ([], 0x1004) := by decide

theorem test_ifsle : after (machine [(.r1, 0x7FFFFFFF), (.r2, 0x80000000)] [] 0x4080001550000021) [] =
    some ([], 0x1008) := by decide

theorem test_ifbits : after (machine [] [] 0x4080001551000021) [] =
    some ([], 0x1008) := by decide

theorem test_ifclear : after (machine [] [] 0x4080001552000021) [] =
    some ([], 0x1004) := by decide

theorem test_skip_over_unassigned_long : after (machine [(.r1, 1), (.r2, 2)] [] 0x7FC000004B000021) [] =
    some ([], 0x100C) := by decide

/-! #### Section 2.8 -/

theorem test_jmpP2 : after (machine [(.r1, 0x2000), (.r2, 0xFFFFFFFF)] [] 0x53000021) [] =
    some ([], 0x1FFC) := by decide

theorem test_jmpP1 : after (machine [] [] 0xBEBECAFE25C00000) [] =
    some ([], 0xBEBECAFC) := by decide

theorem test_rjmp : after (machine [] [] 0x0080000027C00000) [] =
    some ([], 0x801008) := by decide

theorem test_ret : after (machine [(.sp, 0x7FFC)] [(0x7FFC, 0x1236)] 0x01000000) [.sp] =
    some ([0x8000], 0x1236) := by decide

/-! #### Section 2.9 -/

theorem test_pop : after (machine [(.sp, 0xFFFFFFFE)] [(0xFFFFFFFE, 0x11223344)] 0x23000001) [.r1, .sp] =
    some ([0x11223344, 2], 0x1004) := by decide

theorem test_pop_sp : after (machine [(.sp, 0x7FFC)] [(0x7FFC, 0x4000)] 0x2300000D) [.sp] =
    some ([0x4000], 0x1004) := by decide

/-! #### Section 2.10 -/

theorem test_int_message : after (machine [(.r0, 0x55), (.r3, 0xABCD0121), (.sp, 0x8000), (.ia, 0x400), (.flags, 0x100)] [(0x484, 0x2000)] 0x29000003) [.r0, .sp, .flags] =
    some ([0xABCD0121, 0x7FF8, 0x108], 0x2000) := by decide

theorem test_int_masked : after (machine [(.r0, 0x55), (.sp, 0x8000), (.ia, 0x400), (.flags, 0x108)] [(0x484, 0x2000)] 0x29800021) [.r0, .sp, .flags] =
    some ([0x55, 0x8000, 0x108], 0x1004) := by decide

theorem test_rfi : after (machine [(.r0, 0x21), (.sp, 0x7FF8), (.flags, 0x108)] [(0x7FF8, 0x104), (0x7FFC, 0x55)] 0x02000000) [.r0, .sp, .flags] =
    some ([0x55, 0x8000, 0x100], 0x104) := by decide

/-! #### Stores and pushes of sections 2.1, 2.8, 2.9 and 2.10 -/

theorem test_store_misaligned : stored (machine [(.r2, 0x2000), (.r1, 0xCAFEBABE)] [] 0x96800121) [0x2000, 0x2004] =
    some [0xFEBABE00, 0xCA] := by decide

theorem test_storew : stored (machine [(.r2, 0x2000), (.r3, 6), (.r1, 0xCAFEBABE)] [] 0x97000321) [0x2004, 0x2008] =
    some [0xBABE0000, 0] := by decide

theorem test_storeb : stored (machine [(.r2, 0x2000), (.r1, 0xCAFEBABE)] [] 0x98800321) [0x2000] =
    some [0xBE000000] := by decide

theorem test_store_direct_wraps_around : stored (machine [(.r2, 0xFFFFFFFC), (.r1, 0xCAFEBABE)] [] 0x96800221) [0xFFFFFFFC, 0] =
    some [0xBABE0000, 0xCAFE] := by decide

theorem test_store_direct : stored (machine [(.r1, 0x01020304)] [] 0x48820101) [0x2010] =
    some [0x01020304] := by decide

theorem test_storew_direct : stored (machine [(.r4, 0x2012), (.r1, 0x01020304)] [] 0x49000041) [0x2010] =
    some [0x03040000] := by decide

theorem test_storeb_direct : stored (machine [(.r10, 0x1A5)] [] 0xFF0B00004AC0000A) [0xFF0B0000] =
    some [0xA5] := by decide

theorem test_callP2_pushes : stored (machine [(.r1, 0x2000), (.sp, 0x8000)] [] 0x54800081) [0x7FFC] =
    some [0x1004] := by decide

theorem test_callP1_pushes_after_literal : stored (machine [(.sp, 0x8000)] [] 0xBEBECAFE26C00000) [0x7FFC] =
    some [0x1008] := by decide

theorem test_rcall_pushes : stored (machine [(.sp, 0x8000)] [] 0x28FFF000) [0x7FFC] =
    some [0x1004] := by decide

theorem test_push_sp : stored (machine [(.sp, 0x8000)] [] 0x2400000D) [0x7FFC] =
    some [0x8000] := by decide

/-! #### Faults, sleep and the scenarios of section 2.11 -/

/-- Why a step stops. -/
def stop (s : State) : Option Fault :=
  match step s with
  | .next _ => none
  | .fault r => some r
  | .refused _ => none

theorem test_unrecognised : stop (machine [] [] 0x24800005) = some (.unrecognisedInstruction 0x1000 0x24800005) := by decide

theorem test_misaligned_fetch : stop { machine [] [] 0 with pc := 0x1236 } = some (.misalignedFetch 0x1236) := by decide

theorem test_sleep : (match step (machine [(.flags, 0x100)] [] 0) with
    | .next t => t.sleeping && t.pc == 0x1004
    | .fault _ => false
    | .refused _ => false) = true := by decide

/-- The machine of section 2.11: `%r0`, `%sp` and `%ia` as its common start state. -/
def scenario (flags : Dword) (env : List EnvMove) (data : List (Dword × Dword)) (w : Nat) : State :=
  { machine [(.r0, 7), (.sp, 0x8000), (.ia, 0x400), (.flags, flags)] data w with env := env }

theorem test_s1_hardware : after (scenario 0x100 [.boundary (some 0x00010005)] [(0x414, 0x3000)] 0x40800011)
    [.r0, .r1, .sp, .flags] = some ([0x00010005, 0, 0x7FF8, 0x108], 0x3000) := by decide

theorem test_s1_pushes : stored (scenario 0x100 [.boundary (some 0x00010005)] [(0x414, 0x3000)] 0x40800011)
    [0x7FFC, 0x7FF8] = some [7, 0x1000] := by decide

theorem test_s2_not_accepted : after (scenario 0 [.boundary (some 0x00010005)] [(0x414, 0x3000)] 0x40800011)
    [.r0, .r1] = some ([7, 1], 0x1004) := by decide

theorem test_s4_wakes : after { scenario 0x100 [.boundary (some 0x00010005)] [(0x414, 0x3000)] 0 with sleeping := true, pc := 0x1004 }
    [.r0, .sp] = some ([0x00010005, 0x7FF8], 0x3000) := by decide

theorem test_s5_aborted : after { scenario 0x100 [.boundary (some 0x00010006)] [] 0 with sleeping := true, pc := 0x1004 }
    [.r0, .sp, .flags] = some ([7, 0x8000, 0x100], 0x1004) := by decide

theorem test_s6_trap : after (scenario 0x300 [] [(0x400, 0x4000)] 0x40800011) [.r0, .r1, .sp, .flags] =
    some ([0, 1, 0x7FF8, 0x308], 0x4000) := by decide

theorem test_s7_setting_ess_is_not_trapped : after (scenario 0x100 [] [(0x400, 0x4000)] 0x818200FF) [.r0, .flags] =
    some ([7, 0x300], 0x1004) := by decide

theorem test_s8_taken_int_drops_trap : after (scenario 0x300 [] [(0x400, 0x4000), (0x484, 0x2000)] 0x29800021)
    [.r0, .sp, .flags] = some ([0x21, 0x7FF8, 0x308], 0x2000) := by decide

theorem test_s9_trap_after_skip : stored (scenario 0x300 [] [(0x400, 0x4000)] 0x408000224B800011) [0x7FF8] =
    some [0x1008] := by decide

theorem test_s10_no_trap_without_ei : after (scenario 0x200 [] [(0x400, 0x4000)] 0x40800011) [.r0, .r1] =
    some ([7, 1], 0x1004) := by decide

theorem test_s12_trap_wakes_sleep : after (scenario 0x300 [] [(0x400, 0x4000)] 0) [.r0, .flags] =
    some ([0, 0x308], 0x4000) := by decide

theorem test_s13_unaligned_table : after { scenario 0x100 [.boundary (some 5)] [(0x415, 0x3000)] 0 with
    regs := (scenario 0x100 [] [] 0).regs.set .ia 0x401 } [.r0, .sp, .flags] = some ([5, 0x7FF8, 0x108], 0x3000) := by decide

theorem test_reset_edge_lands : stored { machine [(.r2, 0x2000), (.r1, 0xCAFEBABE)] [] 0x96800821 with
    env := [.reset none [(0x2009, 0xBA), (0x3000, 1)]] } [0x2008, 0x3000] = some [0x0000BA00, 0] := by decide

/-- A store to the place of the next push, then the trap's push over it, cut between the two: the store's bytes stay. -/
theorem test_reset_edge_between_two_writes : stored { machine
      [(.r1, 0x11223344), (.r2, 0x7FFC), (.sp, 0x8000), (.ia, 0x400), (.flags, 0x300)] [(0x400, 0x4000)] 0x96800021 with
    env := [.reset none [(0x7FFC, 0x44), (0x7FFD, 0x33), (0x7FFE, 0x22), (0x7FFF, 0x11)]] } [0x7FFC, 0x7FF8] =
    some [0x11223344, 0] := by decide

theorem test_masters_write : stored { machine [] [] 0 with
    otherMasters := true, env := [.masters [(0x2000, 1), (0x2000, 2), (0x2002, 3)]] } [0x2000] = some [0x00030002] := by
  decide

theorem test_no_masters_by_default : stored { machine [] [] 0 with env := [.masters [(0x2000, 1)]] } [0x2000] =
    some [0] := by decide

/-- Where the memory map is silent a store has no effect. -/
theorem test_silent_map_is_not_written : stored { machine [(.r1, 0x01020304)] [] 0x48820101 with
    memMap := [{ base := 0, size := 0x2012, kind := .ram }] } [0x200E] = some [0x03040000] := by decide

theorem test_rom_is_not_written : stored { machine [(.r1, 0x01020304)] [] 0x48820101 with
    memMap := { base := 0x2010, size := 2, kind := .rom } :: wholeSpaceRam } [0x2010] = some [0x01020000] := by decide

/-! ### Witnesses: for each obligation with hypotheses, a state and operands that meet them together -/

/-- Whether a step, or an instruction, gives a next state. -/
def gives (o : Result) : Bool :=
  match o with
  | .next _ => true
  | .fault _ => false
  | .refused _ => false

theorem next_of_gives (o : Result) (h : gives o = true) : ∃ t, o = .next t := by
  cases o with
  | next t => exact ⟨t, rfl⟩
  | fault r => cases h
  | refused r => cases h

theorem witness_DecodeInvertsEncode : (Instr.and .r0 .r1 (.imm (-16383))).wf = true ∧
    (Instr.mov .r1 (.imm 262143)).wf = true ∧ (Instr.int (.lit (-4194304))).wf = true := by decide

theorem witness_RegisterFormIgnoresUpperBits :
    ((0x8100F767 : Dword).getLsbD 23 = false ∧ formatOf 0x8100F767 = .p3) ∧
    ((0x417FFF21 : Dword).getLsbD 23 = false ∧ formatOf 0x417FFF21 = .p2) ∧
    ((0x257FFFF1 : Dword).getLsbD 23 = false ∧ formatOf 0x257FFFF1 = .p1) := by decide

theorem witness_ShortImmediateIsSignExtended_p3 :
    ((0x80BFFF10 : Dword).getLsbD 23 = true ∧ formatOf 0x80BFFF10 = .p3 ∧ (0x80BFFF10 : Dword).extractLsb' 8 15 ≠ 0x4000) ∧
    ((0x80C00110 : Dword).getLsbD 23 = true ∧ formatOf 0x80C00110 = .p3 ∧ (0x80C00110 : Dword).extractLsb' 8 15 ≠ 0x4000) := by decide

theorem witness_ShortImmediateIsSignExtended_p2 :
    ((0x40BFFFF1 : Dword).getLsbD 23 = true ∧ formatOf 0x40BFFFF1 = .p2 ∧ (0x40BFFFF1 : Dword).extractLsb' 4 19 ≠ 0x40000) ∧
    ((0x40C00011 : Dword).getLsbD 23 = true ∧ formatOf 0x40C00011 = .p2 ∧ (0x40C00011 : Dword).extractLsb' 4 19 ≠ 0x40000) := by decide

theorem witness_ShortImmediateIsSignExtended_p1 :
    ((0x25BFFFFF : Dword).getLsbD 23 = true ∧ formatOf 0x25BFFFFF = .p1 ∧ (0x25BFFFFF : Dword).extractLsb' 0 23 ≠ 0x400000) ∧
    ((0x25C00001 : Dword).getLsbD 23 = true ∧ formatOf 0x25C00001 = .p1 ∧ (0x25C00001 : Dword).extractLsb' 0 23 ≠ 0x400000) := by decide

theorem witness_LongImmediateIsNextDword :
    (let w := (machine [] [] 0xAAAA555580C00010).fetchedWord
     w.getLsbD 23 = true ∧ formatOf w = .p3 ∧ w.extractLsb' 8 15 = 0x4000) ∧
    (let w := (machine [] [] 0xFFFC000040C00001).fetchedWord
     w.getLsbD 23 = true ∧ formatOf w = .p2 ∧ w.extractLsb' 4 19 = 0x40000) ∧
    (let w := (machine [] [] 0xBEBECAFE26C00000).fetchedWord
     w.getLsbD 23 = true ∧ formatOf w = .p1 ∧ w.extractLsb' 0 23 = 0x400000) := by decide

theorem ready_of {s : State} (h : s.env = [] ∧ s.sleeping = false ∧ s.pc.extractLsb' 0 2 = 0) : s.Ready :=
  ⟨by simp [State.Quiet, h.1], h.2⟩

theorem notRecognised_bounds : ∀ w ∈ [0x99000000, 0xFF000000, 0x55000000, 0x7F000000, 0x2A000000, 0x3F000000, 0x03000000,
    0x1F000000, 0x41800021, 0x20800001, 0x24800005, 0x00000001, 0x02800000],
    NotRecognised (machine [] [] w).fetchedWord := by unfold NotRecognised; decide

theorem witness_NotRecognisedFaults (w : Nat) (h : w ∈ [0x99000000, 0x41800021, 0x00000001]) :
    (machine [] [] w).Ready ∧ NotRecognised (machine [] [] w).fetchedWord := by
  refine ⟨?_, notRecognised_bounds w (by revert w; decide)⟩
  revert w
  unfold State.Ready State.Quiet
  decide +kernel

theorem witness_StoredDwordIsLoadedAndFetched : RamAt (machine [(.r2, 0xFFFFFFFC)] [] 0)
    ((machine [(.r2, 0xFFFFFFFC)] [] 0).indexed .r2 (.imm 2)) 4 := fun _ _ => kindAt_wholeSpace rfl _

/-- A machine with ROM at 0x2010 whose instruction stores there. -/
def romMachine : State :=
  { machine [(.r1, 0x01020304)] [] 0x48820101 with memMap := { base := 0x2010, size := 2, kind := .rom } :: wholeSpaceRam }

theorem witness_OnlyRamEverChanges : (∃ t, step romMachine = .next t) ∧ romMachine.kindAt 0x2011 ≠ .ram :=
  ⟨next_of_gives _ (by decide), by decide⟩

theorem witness_OverflowIsSignedOverflow : Reg.r1 ≠ Reg.flags := by decide

theorem witness_CarryChainsTo64Bits : Reg.r1 ≠ .flags ∧ Reg.r1 ≠ Reg.flags ∧ Reg.r3 ≠ Reg.r1 ∧ Reg.r5 ≠ Reg.r1 ∧
    Reg.r3 ≠ .flags ∧ Reg.r5 ≠ .flags := by decide

theorem witness_UnsignedDivision : (machine [(.r2, 5)] [] 0).opn (.reg .r3) = 0 ∧
    (machine [(.r2, 5)] [] 0).opn (.imm 7) ≠ 0 ∧ Reg.r1 ≠ Reg.y := by decide

theorem witness_SignedDivision_ordinary : (machine [(.r2, 5)] [] 0).opn (.reg .r3) = 0 ∧
    (machine [(.r2, 5)] [] 0).opn (.imm 7) ≠ 0 ∧ Reg.r1 ≠ Reg.y ∧
    ¬(((machine [(.r2, 5)] [] 0).reg .r2).toInt = -2 ^ 31 ∧ ((machine [(.r2, 5)] [] 0).opn (.imm 7)).toInt = -1) := by
  decide

theorem witness_SignedDivision_wraps :
    let s := machine [(.r2, 0x80000000), (.r3, 0xFFFFFFFF)] [] 0
    s.opn (.reg .r3) ≠ 0 ∧ (s.reg .r2).toInt = -2 ^ 31 ∧ (s.opn (.reg .r3)).toInt = -1 := by decide

theorem witness_TestsDecideTheSkip_holds : (machine [(.r1, 5), (.r2, 5)] [] 0).reg .r1 =
    (machine [(.r1, 5), (.r2, 5)] [] 0).opn (.reg .r2) := by decide

theorem witness_TestsDecideTheSkip_fails :
    (machine [(.r1, 1)] [] 0x4B0000334B000021).reg .r1 ≠ (machine [(.r1, 1)] [] 0x4B0000334B000021).opn (.reg .r2) ∧
    SkipEnds (machine [(.r1, 1)] [] 0x4B0000334B000021) 0x1004 [0x1004, 0x1008] 0x100C :=
  ⟨by decide, by unfold SkipEnds; decide⟩

/-- A memory that holds the byte `b` at each of the first `n` addresses. -/
def constantMemory (n : Nat) (b : Byte) : Memory := (List.range n).map (fun a => (a, b))

theorem read_constant (b : Byte) (l : List Nat) (a : Nat) (h : a ∈ l) :
    Memory.read (l.map (fun k => (k, b))) a = b := by
  induction l with
  | nil => cases h
  | cons k l ih =>
    by_cases hk : k = a
    · simp [Memory.read, hk]
    · have : a ∈ l := (List.mem_cons.mp h).resolve_left (fun e => hk e.symm)
      simp [Memory.read, hk, ih this]

theorem read_constantMemory (n : Nat) (b : Byte) (a : Nat) (h : a < n) : (constantMemory n b).read a = b :=
  read_constant b _ a (List.mem_range.mpr h)

/-- The 2^32 bytes of a memory that holds 0x4B everywhere. -/
@[irreducible] def endlessMemory : Memory := constantMemory (2 ^ 32) 0x4B

theorem read_endlessMemory (a : Dword) : endlessMemory.read a.toNat = 0x4B := by
  unfold endlessMemory
  exact read_constantMemory _ _ _ a.isLt

/-- A machine all of whose memory is IFEQ. -/
def endless : State := { State.reset with regs := { RegFile.zero with y := 1 }, mem := endlessMemory }

theorem endless_mem : endless.beginStep.logFetch.mem = endlessMemory := by rw [logFetch_mem, beginStep_mem, endless]

theorem endless_map : endless.beginStep.logFetch.memMap = wholeSpaceRam := by rw [logFetch_memMap]; rfl

/-- Every dword of this memory is IFEQ. -/
theorem readDword_endless {s : State} (hm : s.mem = endlessMemory) (hp : s.memMap = wholeSpaceRam) (why : Access) (a : Dword) :
    s.readDword why a = 0x4B4B4B4B := by
  have h (c : Dword) : s.readByte why c = 0x4B := by
    rw [State.readByte, kindAt_wholeSpace hp, hm, read_endlessMemory]
    rfl
  simp only [State.readDword, h]
  rfl

theorem skipFrom_endless {s : State} (hm : s.mem = endlessMemory) (hp : s.memMap = wholeSpaceRam) (fuel : Nat) :
    ∀ a : Dword, s.skipFrom fuel a = none := by
  induction fuel with
  | zero => intro a; rfl
  | succ fuel ih =>
    intro a
    rw [skipFrom_succ, ih, State.skippedWord, readDword_endless hm hp, if_pos (by decide)]
    rfl

theorem exec_endless {s : State} (hm : s.mem = endlessMemory) (hp : s.memMap = wholeSpaceRam) (hr : s.reg .y ≠ s.reg .r4) :
    exec (.ifeq .y (.reg .r4)) s = .fault (.skipNeverEnds s.pc) := by
  have hf : (s.reg .y == s.opn (.reg .r4)) = false := beq_eq_false_iff_ne.mpr hr
  rcases executeIf_cases s (s.reg .y == s.opn (.reg .r4)) (.reg .r4) with ⟨h, -⟩ | ⟨-, _, _, h, -⟩ | ⟨-, -, h⟩
  · rw [hf] at h; cases h
  · unfold SkipEnds at h; rw [skipFrom_endless hm hp] at h; cases h
  · exact h

theorem endless_registers : endless.reg .y ≠ endless.reg .r4 := by
  show (1 : Dword) ≠ 0
  decide

theorem witness_TestsDecideTheSkip_never : endless.reg .y ≠ endless.opn (.reg .r4) ∧
    ∀ visited target, ¬SkipEnds endless (endless.npc (.reg .r4)) visited target :=
  ⟨endless_registers, fun _ _ h => by unfold SkipEnds at h; rw [skipFrom_endless rfl rfl] at h; cases h⟩

theorem witness_SkipIsTheUnboundedLoop :
    (let s := machine [] [(0x1000, 0x4A000000), (0x1004, 0x53000000)] 0x4A000000
     ¬(0x4B ≤ ((s.readDword .skip 0x1000).extractLsb' 24 8).toNat ∧
       ((s.readDword .skip 0x1000).extractLsb' 24 8).toNat ≤ 0x52)) ∧
    (let s := machine [] [] 0x520000004B000000
     (0x4B ≤ ((s.readDword .skip 0x1000).extractLsb' 24 8).toNat ∧
       ((s.readDword .skip 0x1000).extractLsb' 24 8).toNat ≤ 0x52) ∧
     SkipEnds s 0x1004 [0x1004, 0x1008] 0x100C ∧ SkipEnds s 0x1000 [0x1000, 0x1004, 0x1008] 0x100C) := by
  unfold SkipEnds
  decide

theorem witness_RetAfterCallResumes : RamAt State.reset (State.reset.reg .sp - 4) 4 := fun _ _ => kindAt_wholeSpace rfl _

/-- EI set, IF clear, the table at 0x400 with one handler, for message 0x21, and the stack at 0x8000. -/
def accepting : State := scenario 0x100 [] [(0x484, 0x2000)] 0x29800021

theorem accepting_accepts : accepting.Accepts := by unfold State.Accepts; decide

theorem witness_IntEntersHandler : accepting.Accepts ∧ accepting.readDword (.vector .software)
    (accepting.reg .ia + 4 * ((accepting.opn (.imm 0x21)).extractLsb' 0 8).setWidth 32) ≠ 0 :=
  ⟨accepting_accepts, by decide⟩

theorem witness_IntNotAcceptedIsNop : ¬(scenario 0 [] [] 0).Accepts ∧ ¬(scenario 0x108 [] [] 0).Accepts ∧
    (accepting.Accepts ∧ accepting.readDword (.vector .software)
      (accepting.reg .ia + 4 * ((accepting.opn (.imm 0x22)).extractLsb' 0 8).setWidth 32) = 0) :=
  ⟨by unfold State.Accepts; decide, by unfold State.Accepts; decide, accepting_accepts, by decide⟩

theorem witness_TakeInterruptEntersHandler (source : Source) : accepting.Accepts ∧
    accepting.readDword (.vector source) (accepting.reg .ia + 4 * ((0x21 : Dword).extractLsb' 0 8).setWidth 32) ≠ 0 ∧
    accepting.readDword (.vector source) (accepting.reg .ia + 4 * ((0xFF : Dword).extractLsb' 0 8).setWidth 32) = 0 := by
  refine ⟨accepting_accepts, ?_⟩
  cases source <;> decide

theorem witness_RfiUndoesInterruptEntry (source : Source) : accepting.Accepts ∧
    accepting.readDword (.vector source) (accepting.reg .ia + 4 * ((0x21 : Dword).extractLsb' 0 8).setWidth 32) ≠ 0 ∧
    RamAt accepting (accepting.reg .sp - 8) 8 :=
  ⟨accepting_accepts, (witness_TakeInterruptEntersHandler source).2.1, fun _ _ => kindAt_wholeSpace rfl _⟩

theorem witness_StepRunsDecodedInstruction_next : accepting.Ready ∧ (Instr.int (.imm 0x21)).wf = true ∧
    decodeDwords accepting.fetchedWord accepting.fetchedLiteral = .ok (.int (.imm 0x21)) ∧
    ∃ t, exec (.int (.imm 0x21)) accepting.beginStep.logFetch = .next t :=
  ⟨ready_of ⟨rfl, rfl, rfl⟩, by decide, by decide, next_of_gives _ (by decide)⟩

theorem decode_endless {s : State} (hm : s.mem = endlessMemory) (hp : s.memMap = wholeSpaceRam) :
    decodeDwords s.fetchedWord s.fetchedLiteral = .ok (.ifeq .y (.reg .r4)) := by
  simp only [State.fetchedLiteral, State.fetchedWord, readDword_endless hm hp]
  rfl

theorem witness_StepRunsDecodedInstruction_fault : endless.Ready ∧ (Instr.ifeq .y (.reg .r4)).wf = true ∧
    decodeDwords endless.fetchedWord endless.fetchedLiteral = .ok (.ifeq .y (.reg .r4)) ∧
    exec (.ifeq .y (.reg .r4)) endless.beginStep.logFetch = .fault (.skipNeverEnds endless.beginStep.logFetch.pc) :=
  ⟨ready_of ⟨rfl, rfl, rfl⟩, rfl, decode_endless rfl rfl,
    exec_endless endless_mem endless_map
      (by rw [reg_logFetch, reg_logFetch]; exact endless_registers)⟩

theorem witness_StepStopsOnlyAsNamed_fetch :
    stop { machine [] [] 0 with pc := 0x1002 } = some (.misalignedFetch 0x1002) ∧
    stop (machine [] [] 0x24800005) = some (.unrecognisedInstruction 0x1000 0x24800005) := by decide

theorem executeNext_endless {s : State} (hm : s.mem = endlessMemory) (hp : s.memMap = wholeSpaceRam) (hs : s.sleeping = false)
    (ha : s.pc.extractLsb' 0 2 = 0) (hr : s.reg .y ≠ s.reg .r4) : s.executeNext = .fault (.skipNeverEnds s.pc) := by
  have he : exec (.ifeq .y (.reg .r4)) s.logFetch = .fault (.skipNeverEnds s.pc) := by
    rw [exec_endless (by rw [logFetch_mem, hm]) (by rw [logFetch_memMap, hp]) (by rwa [reg_logFetch, reg_logFetch]),
      logFetch_pc]
  unfold State.executeNext
  rw [hs, if_neg Bool.false_ne_true, if_neg (fun h => h ha), decode_endless hm hp]
  simp only [he]

theorem witness_EveryInstructionCompletes_stops : FailedTest (.ifeq .y (.reg .r4)) (.reg .r4) endless ∧
    SkipNeverEnds endless (endless.npc (.reg .r4)) :=
  ⟨⟨.y, .inl ⟨rfl, endless_registers⟩⟩, witness_TestsDecideTheSkip_never.2⟩

theorem witness_StepStopsOnlyAsNamed_skip : step endless = .fault (.skipNeverEnds endless.pc) := by
  rw [step_boundary endless none rfl, State.boundary, executeNext_endless (by rw [beginStep_mem, endless])
    (by rw [beginStep_memMap, endless]; rfl) (by rw [beginStep_sleeping, endless]; rfl)
    (by rw [beginStep_pc, endless]; rfl) (by rw [reg_beginStep, reg_beginStep]; exact endless_registers), beginStep_pc,
    finishStep]

theorem witness_NopStepOnlyAdvances : (machine [] [] 0x40000000).Ready ∧
    (machine [] [] 0x40000000).fetchedWord = 0x40000000 ∧ (machine [] [] 0x40000000).flag .singleStep = false :=
  ⟨ready_of ⟨rfl, rfl, rfl⟩, by decide, by decide⟩

/-- A machine that is offered the message 0x21. -/
def offered (flags : Dword) : State := scenario flags [.boundary (some 0x21)] [(0x484, 0x2000)] 0

theorem witness_HardwareInterruptIsTaken : (offered 0x100).Offers 0x21 ∧ (offered 0x100).Accepts ∧
    (offered 0x100).readDword (.vector .hardware)
      ((offered 0x100).reg .ia + 4 * ((0x21 : Dword).extractLsb' 0 8).setWidth 32) ≠ 0 :=
  ⟨rfl, by unfold State.Accepts; decide, by decide⟩

theorem witness_ZeroVectorAbortsHardwareInterrupt :
    let s := scenario 0x100 [.boundary (some 0x22)] [] 0
    s.Offers 0x22 ∧ s.Accepts ∧
      s.readDword (.vector .hardware) (s.reg .ia + 4 * ((0x22 : Dword).extractLsb' 0 8).setWidth 32) = 0 :=
  ⟨rfl, by unfold State.Accepts; decide, by decide⟩

theorem witness_UnacceptedOfferIsIgnored : ((offered 0).Offers 0x21 ∧ ¬(offered 0).Accepts) ∧
    ((offered 0x108).Offers 0x21 ∧ ¬(offered 0x108).Accepts) :=
  ⟨⟨rfl, by unfold State.Accepts; decide⟩, rfl, by unfold State.Accepts; decide⟩

/-- A machine about to execute `MOV %r1, 1` with a handler for message 0. -/
def traced (flags : Dword) : State := scenario flags [] [(0x400, 0x4000)] 0x40800011

/-- What the MOV leaves before the trap. -/
def movedState (flags : Dword) : State := (traced flags).beginStep.logFetch.retire .r1 1 (.imm 1)

theorem traced_moves (flags : Dword) : exec (.mov .r1 (.imm 1)) (traced flags).beginStep.logFetch =
    .next (movedState flags) := rfl

theorem witness_SingleStepTrapFollowsInstruction_traps : (traced 0x300).Ready ∧
    decodeDwords (traced 0x300).fetchedWord (traced 0x300).fetchedLiteral = .ok (.mov .r1 (.imm 1)) ∧
    exec (.mov .r1 (.imm 1)) (traced 0x300).beginStep.logFetch = .next (movedState 0x300) ∧
    (traced 0x300).flag .singleStep = true ∧ (traced 0x300).flag .interrupt = false ∧ (movedState 0x300).Accepts ∧
    (movedState 0x300).readDword (.vector .singleStep) ((movedState 0x300).reg .ia) ≠ 0 :=
  ⟨ready_of ⟨rfl, rfl, rfl⟩, by decide, traced_moves _, by decide, by decide, by unfold State.Accepts; decide, by decide⟩

theorem witness_SingleStepTrapFollowsInstruction_zero :
    let s := scenario 0x300 [] [] 0x40800011
    let t := s.beginStep.logFetch.retire .r1 1 (.imm 1)
    s.Ready ∧ decodeDwords s.fetchedWord s.fetchedLiteral = .ok (.mov .r1 (.imm 1)) ∧
      exec (.mov .r1 (.imm 1)) s.beginStep.logFetch = .next t ∧ s.flag .singleStep = true ∧ s.flag .interrupt = false ∧
      t.Accepts ∧ t.readDword (.vector .singleStep) (t.reg .ia) = 0 :=
  ⟨ready_of ⟨rfl, rfl, rfl⟩, by decide, rfl, by decide, by decide, by unfold State.Accepts; decide, by decide⟩

theorem witness_SingleStepTrapFollowsInstruction_dropped : (traced 0x200).Ready ∧
    decodeDwords (traced 0x200).fetchedWord (traced 0x200).fetchedLiteral = .ok (.mov .r1 (.imm 1)) ∧
    exec (.mov .r1 (.imm 1)) (traced 0x200).beginStep.logFetch = .next (movedState 0x200) ∧
    (traced 0x200).flag .singleStep = true ∧ (traced 0x200).flag .interrupt = false ∧ ¬(movedState 0x200).Accepts :=
  ⟨ready_of ⟨rfl, rfl, rfl⟩, by decide, traced_moves _, by decide, by decide, by unfold State.Accepts; decide⟩

theorem witness_SingleStepTrapFollowsInstruction_passes :
    ((traced 0x100).Ready ∧
      decodeDwords (traced 0x100).fetchedWord (traced 0x100).fetchedLiteral = .ok (.mov .r1 (.imm 1)) ∧
      (traced 0x100).flag .singleStep = false) ∧
    ((traced 0x308).Ready ∧
      decodeDwords (traced 0x308).fetchedWord (traced 0x308).fetchedLiteral = .ok (.mov .r1 (.imm 1)) ∧
      (traced 0x308).flag .interrupt = true) :=
  ⟨⟨ready_of ⟨rfl, rfl, rfl⟩, by decide, by decide⟩, ready_of ⟨rfl, rfl, rfl⟩, by decide, by decide⟩

/-- A machine awake at an address. -/
def awakeAt (pc : Dword) : State := { State.reset with pc := pc }

theorem witness_MisalignedFetchFaults :
    ((awakeAt 1).Quiet ∧ (awakeAt 1).sleeping = false ∧ ¬4 ∣ (awakeAt 1).pc.toNat) ∧
    ((awakeAt 2).Quiet ∧ (awakeAt 2).sleeping = false ∧ ¬4 ∣ (awakeAt 2).pc.toNat) ∧
    ((awakeAt 3).Quiet ∧ (awakeAt 3).sleeping = false ∧ ¬4 ∣ (awakeAt 3).pc.toNat) :=
  ⟨⟨rfl, rfl, by decide⟩, ⟨rfl, rfl, by decide⟩, rfl, rfl, by decide⟩

/-- Asleep with EI = 0, offered an interrupt and then held by `_Wait`. -/
def asleep (flags : Dword) : State :=
  { scenario flags [.boundary (some 0x21), .wait] [] 0 with sleeping := true }

theorem asleep_env (flags : Dword) : ∀ m ∈ (asleep flags).env, ∀ hw landed, m ≠ .reset hw landed := by
  intro m hm hw landed
  rcases List.mem_cons.mp hm with rfl | hm
  · simp
  · rw [List.mem_singleton.mp hm]; simp

theorem witness_SleepingOrHeldCpuKeepsItsState_unaccepting :
    ((asleep 0).sleeping = true ∧ ¬(asleep 0).Accepts ∧
      ∀ m ∈ (asleep 0).env, ∀ hw landed, m ≠ .reset hw landed) ∧
    ((asleep 0x108).sleeping = true ∧ ¬(asleep 0x108).Accepts ∧
      ∀ m ∈ (asleep 0x108).env, ∀ hw landed, m ≠ .reset hw landed) :=
  ⟨⟨rfl, by unfold State.Accepts; decide, asleep_env 0⟩, rfl, by unfold State.Accepts; decide, asleep_env 0x108⟩

/-- Asleep with EI = 1 and IF = 0 at the end of its run: only quiet boundaries and waits are to come. -/
def endedRun : State := { scenario 0x100 [.boundary none, .wait] [] 0 with sleeping := true }

theorem witness_SleepingOrHeldCpuKeepsItsState_ended : endedRun.Accepts ∧ endedRun.Ended ∧
    ∀ m ∈ endedRun.env, ∀ hw landed, m ≠ .reset hw landed := by
  refine ⟨by unfold State.Accepts; decide, ⟨rfl, fun msg h => ?_⟩, fun m hm hw landed => ?_⟩
  · rcases List.mem_cons.mp h with h | h
    · cases h
    · cases List.mem_singleton.mp h
  · rcases List.mem_cons.mp hm with rfl | hm
    · simp
    · rw [List.mem_singleton.mp hm]; simp

theorem witness_SleepingOrHeldCpuKeepsItsState_held :
    (scenario 0 [.wait] [] 0).env.head? = some .wait ∧ (scenario 0 [.wait] [] 0).sleeping = false := ⟨rfl, rfl⟩

/-- Another master writes one byte twice. -/
def sharedBus : State :=
  { scenario 0 [.masters [(0x2000, 1), (0x2000, 2)]] [] 0 with otherMasters := true }

theorem witness_SleepingOrHeldCpuKeepsItsState_masters :
    sharedBus.env.head? = some (.masters [(0x2000, 1), (0x2000, 2)]) ∧ sharedBus.otherMasters = true ∧
    [((0x2000 : Dword), (1 : Byte)), (0x2000, 2)] = [(0x2000, 1)] ++ (0x2000, 2) :: [] ∧
    (0x2000 : Dword) ∉ ([] : List ByteWrite).map Prod.fst ∧ sharedBus.kindAt 0x2000 = .ram ∧
    (0x2001 : Dword) ∉ [((0x2000 : Dword), (1 : Byte)), (0x2000, 2)].map Prod.fst :=
  ⟨rfl, rfl, rfl, by decide, kindAt_wholeSpace rfl _, by decide⟩

/-- A store of four bytes cut short by reset after the one at 0x2009, or with that byte left at any other value. -/
def cutShort (w : Nat) : State :=
  { machine [(.r2, 0x2000), (.r1, 0xCAFEBABE)] [] w with env := [.reset none [(0x2009, 0x5A)]] }

theorem witness_ResetEdgeClearsCpu_landed :
    (cutShort 0x96800821).env.head? = some (.reset none [(0x2009, 0x5A)]) ∧
    (∃ u, (cutShort 0x96800821).beginStep.boundary none = .next u) ∧
    (0x2009 : Dword) ∈ (cutShort 0x96800821).beginStep.stepWrites none ∧
    (0x200C : Dword) ∉ (cutShort 0x96800821).beginStep.stepWrites none ∧
    (cutShort 0x96800821).kindAt 0x2009 = .ram ∧ (0x2008 : Dword) ∉ [((0x2009 : Dword), (0x5A : Byte))].map Prod.fst :=
  ⟨rfl, next_of_gives _ (by decide), by decide, by decide, kindAt_wholeSpace rfl _, by decide⟩

theorem witness_ResetEdgeClearsCpu_stopped : (cutShort 0x99000000).env.head? = some (.reset none [(0x2009, 0x5A)]) ∧
    ∀ u, (cutShort 0x99000000).beginStep.boundary none ≠ .next u := by
  refine ⟨rfl, fun u h => ?_⟩
  have : gives ((cutShort 0x99000000).beginStep.boundary none) = false := by decide
  rw [h] at this
  cases this

theorem witness_StepKeepsInvariant : (cutShort 0x96800821).Inv ∧ ∃ t, step (cutShort 0x96800821) = .next t :=
  ⟨by unfold State.Inv; decide, next_of_gives _ (by decide)⟩

theorem witness_FlagsAreWrittenOnlyAsListed : (∃ t, exec (.add .r1 .r2 (.reg .r3)) State.reset = .next t) ∧
    Reg.flags ∉ destinations (.add .r1 .r2 (.reg .r3)) :=
  ⟨next_of_gives _ (by decide), by decide⟩

theorem witness_RegistersAreWrittenOnlyAsListed :
    (∃ t, exec (.mul .r1 .r2 (.reg .r3)) State.reset = .next t) ∧ Reg.flags ∉ destinations (.mul .r1 .r2 (.reg .r3)) ∧
      Reg.flags ∉ implicitRegs (.mul .r1 .r2 (.reg .r3)) ∧ implicitFlags (.mul .r1 .r2 (.reg .r3)) = [] :=
  ⟨next_of_gives _ (by decide), by decide, by decide, by decide⟩

theorem witness_PopLoadsRegister : Reg.r1 ≠ Reg.sp := by decide

/-! ### What the host asks: a word decodes to its row's instruction, and the first step runs it -/

theorem test_withFetchWord : after (State.reset.withFetchWord 32 0x40FFFFF1) [.r1] = some ([0xFFFFFFFF], 4) := by decide

theorem test_withFetchWord_literal : after (State.reset.withFetchWord 64 0xFFFC000040C00001) [.r1] =
    some ([0xFFFC0000], 8) := by decide

end Sys2Proof.Tests
end

section
/-! PROOFS. The short immediates of 30_encoding.md (R88, R89): the Rn field of an instruction with M = 1, read as a signed
number. The three formats differ in the width of the field only, so each fact is proved once, for every width. -/

namespace Sys2Proof.Machine

theorem marker_p3 : marker 15 = 0x4000 := by decide

theorem marker_p2 : marker 19 = 0x40000 := by decide

theorem marker_p1 : marker 23 = 0x400000 := by decide

/-- The marker is the one value that takes the lower end of the two's-complement range away (R89). -/
theorem toInt_marker {w : Nat} (hw : 0 < w) : (marker w).toInt = -2 ^ (w - 1) :=
  BitVec.toInt_intMin_of_pos hw

theorem neg_two_pow_lt_toInt_of_ne_marker {w : Nat} (hw : 0 < w) {field : BitVec w} (h : field ≠ marker w) :
    -2 ^ (w - 1) < field.toInt := by
  have hne : (marker w).toInt ≠ field.toInt := BitVec.toInt_ne.mpr h.symm
  rw [toInt_marker hw] at hne
  exact lt_of_le_of_ne (BitVec.le_toInt field) hne

theorem operandOf_short {w : Nat} {field : BitVec w} (h : field ≠ marker w) (literal : Dword) :
    operandOf true field literal = .imm (field.signExtend 32) := by
  simp [operandOf, h]

/-- R88 for a field of any width up to a dword's. -/
theorem opn_operandOf_short (s : State) {w : Nat} (hw : 0 < w) (hw32 : w ≤ 32) {field : BitVec w}
    (h : field ≠ marker w) (literal : Dword) :
    (s.opn (operandOf true field literal)).toInt = field.toInt ∧
      -2 ^ (w - 1) < field.toInt ∧ field.toInt < 2 ^ (w - 1) := by
  refine ⟨?_, neg_two_pow_lt_toInt_of_ne_marker hw h, BitVec.toInt_lt⟩
  rw [operandOf_short h]
  exact BitVec.toInt_signExtend_of_le hw32

/-- Settles O4: each format is the general rule at its field's width, 15, 19 or 23 bits. -/
theorem shortImmediateIsSignExtended : Obligations.ShortImmediateIsSignExtended := by
  intro ins literal s hM
  have hm : mBit ins = true := hM
  rw [hm]
  refine ⟨fun _ hfield => ?_, fun _ hfield => ?_, fun _ hfield => ?_⟩
  · rw [← marker_p3] at hfield
    obtain ⟨hvalue, hlow, hhigh⟩ := opn_operandOf_short s (by decide) (by decide) hfield literal
    exact ⟨hvalue, by omega, by omega⟩
  · rw [← marker_p2] at hfield
    obtain ⟨hvalue, hlow, hhigh⟩ := opn_operandOf_short s (by decide) (by decide) hfield literal
    exact ⟨hvalue, by omega, by omega⟩
  · rw [← marker_p1] at hfield
    obtain ⟨hvalue, hlow, hhigh⟩ := opn_operandOf_short s (by decide) (by decide) hfield literal
    exact ⟨hvalue, by omega, by omega⟩

end Sys2Proof.Machine
end

section
/-! PROOFS. The RAM instructions of 40_ram.md. Three rules carry the family: an opcode byte determines the instruction through
its format's opcode map (R81, R92, R93); a load is a bus read followed by `x[rd] <- v; pc <- npc` (R122, R125); a store is
`MemWrite` followed by `pc <- npc` (R122, R124). -/

namespace Sys2Proof.Machine

/-! ### From the opcode map to every dword with that opcode byte -/

theorem decodeDwords_p3 {ins : Dword} (h : formatOf ins = .p3) (literal : Dword) : decodeDwords ins literal =
    decodeP3 (opcodeOf ins) (rdOf ins) (rsOf ins) (operandOf (mBit ins) (fieldP3 ins) literal) := by
  simp only [decodeDwords, h]

theorem decodeDwords_p2 {ins : Dword} (h : formatOf ins = .p2) (literal : Dword) : decodeDwords ins literal =
    decodeP2 (opcodeOf ins) (rdOf ins) (operandOf (mBit ins) (fieldP2 ins) literal) := by
  simp only [decodeDwords, h]

theorem opcodeP3_of_decodeP3 {op : BitVec 8} {f : Reg → Reg → Operand → Instr} (h7 : op.getLsbD 7 = true)
    (hmap : ∀ rd rs rn, decodeP3 op rd rs rn = .ok (f rd rs rn)) : OpcodeP3 op f := by
  intro ins literal hbyte
  have hop : opcodeOf ins = op := hbyte
  have hformat : formatOf ins = .p3 := by rw [formatOf_opcode, hop, if_pos h7]
  rw [decodeDwords_p3 hformat, hop]
  exact hmap _ _ _

theorem opcodeP2_of_decodeP2 {op : BitVec 8} {f : Reg → Operand → Instr} (h7 : op.getLsbD 7 = false)
    (h6 : op.getLsbD 6 = true) (hmap : ∀ rd rn, decodeP2 op rd rn = .ok (f rd rn)) : OpcodeP2 op f := by
  intro ins literal hbyte
  have hop : opcodeOf ins = op := hbyte
  have hformat : formatOf ins = .p2 := by rw [formatOf_opcode, hop, h7, if_neg Bool.false_ne_true, if_pos h6]
  rw [decodeDwords_p2 hformat, hop]
  exact hmap _ _

/-! ### Loads -/

/-- A write of `rd` right after a data read of `n` bytes is a load of `n` bytes. -/
theorem loaded_of_writesOnly_log {s t : State} {rd : Reg} {v ea pc : Dword} {n : Nat}
    (h : WritesOnly rd v pc (s.log (.read .data ea n)) t) : Loaded rd v ea n pc s t := by
  obtain ⟨hrd, hregs, hmem, hbus, hsleep, hplatform, hpc⟩ := h
  exact ⟨hrd, hregs, hmem, hbus, hsleep, hplatform, hpc⟩

theorem load_spec (s : State) (rd : Reg) (ea : Dword) (rn : Operand) :
    Loaded rd (s.readDword .data ea) ea 4 (s.npc rn) s (s.load rd ea rn) :=
  loaded_of_writesOnly_log (retire_spec (s.log (.read .data ea 4)) rd (s.readDword .data ea) rn)

/-- Settles O11: both forms are `State.load`, at `Rs + Rn` and at `Rn`. -/
theorem loadReadsDword : Obligations.LoadReadsDword := by
  refine ⟨⟨?indexedOpcode, fun s rd rs rn => ⟨_, rfl, load_spec s rd (s.indexed rs rn) rn⟩⟩,
    ?directOpcode, fun s rd rn => ⟨_, rfl, load_spec s rd (s.direct rn) rn⟩⟩
  case indexedOpcode => exact opcodeP3_of_decodeP3 (by decide) fun _ _ _ => rfl
  case directOpcode => exact opcodeP2_of_decodeP2 (by decide) (by decide) fun _ _ => rfl

/-! ### Stores -/

/-- A store leaves `pc` alone, so that `pc <- npc` after it goes to the `npc` of the state before it. -/
theorem stored_advance {s t : State} {ea v : Dword} {n : Nat} (h : Stored ea n v s.pc s t) (rn : Operand) :
    Stored ea n v (s.npc rn) s (t.advance rn) := by
  obtain ⟨hregs, hholds, houtside, hbus, hsleep, hplatform, hpc⟩ := h
  have hnpc : t.npc rn = s.npc rn := by rw [State.npc, hpc, State.npc]
  exact ⟨hregs, hholds, houtside, hbus, hsleep, hplatform, hnpc⟩

/-- Settles O13: the store of each width at `Rs + Rn`, then `pc <- npc`. -/
theorem indexedStoresWriteMemory : Obligations.IndexedStoresWriteMemory := by
  refine ⟨⟨?_, ?_, ?_⟩, fun s rd rs rn => ⟨⟨_, rfl, ?store⟩, ⟨_, rfl, ?storew⟩, ⟨_, rfl, ?storeb⟩⟩⟩
  case store => exact stored_advance (storeDword_spec s (s.indexed rs rn) (s.reg rd)) rn
  case storew => exact stored_advance (storeWord_spec s (s.indexed rs rn) (s.reg rd)) rn
  case storeb => exact stored_advance (storeByte_spec s (s.indexed rs rn) (s.reg rd)) rn
  all_goals exact opcodeP3_of_decodeP3 (by decide) fun _ _ _ => rfl

/-- Settles O14: the store of each width at `Rn`, then `pc <- npc`. -/
theorem directStoresWriteMemory : Obligations.DirectStoresWriteMemory := by
  refine ⟨⟨?_, ?_, ?_⟩, fun s rd rn => ⟨⟨_, rfl, ?store⟩, ⟨_, rfl, ?storew⟩, ⟨_, rfl, ?storeb⟩⟩⟩
  case store => exact stored_advance (storeDword_spec s (s.direct rn) (s.reg rd)) rn
  case storew => exact stored_advance (storeWord_spec s (s.direct rn) (s.reg rd)) rn
  case storeb => exact stored_advance (storeByte_spec s (s.direct rn) (s.reg rd)) rn
  all_goals exact opcodeP2_of_decodeP2 (by decide) (by decide) fun _ _ => rfl

end Sys2Proof.Machine
end

section
/-! PROOFS. Register manipulation, 41_register.md: MOV and NOT are `State.retire` (R130, R140); XCHGW and XCHGB are the
same write with a register operand (R134, R135); SWP is two writes, the second over the first (R131). The last three
exist with M = 0 only, which is one fact about `needReg` for every field that holds the operand (R97). -/

namespace Sys2Proof.Machine

/-! ### Instructions whose operand must be a register -/

theorem setWidth_fieldP2 (ins : Dword) : (fieldP2 ins).setWidth 4 = ins.extractLsb' 4 4 :=
  BitVec.setWidth_extractLsb'_of_le (by decide)

theorem setWidth_fieldP1 (ins : Dword) : (fieldP1 ins).setWidth 4 = ins.extractLsb' 0 4 :=
  BitVec.setWidth_extractLsb'_of_le (by decide)

/-- R97 for a field of any width: neither of the two operand forms of M = 1 is a register. -/
theorem needReg_operandOf {w : Nat} (m : Bool) (field : BitVec w) (literal : Dword) (f : Reg → Instr) :
    needReg (operandOf m field literal) f =
      if m then .error .immediateForbidden else .ok (f (.ofBits (field.setWidth 4))) := by
  cases m with
  | false => rfl
  | true =>
    by_cases hmarker : field = marker w
    · simp [operandOf, hmarker, needReg]
    · simp [operandOf_short hmarker, needReg]

theorem decodeDwords_p1 {ins : Dword} (h : formatOf ins = .p1) (literal : Dword) : decodeDwords ins literal =
    decodeP1 (opcodeOf ins) (operandOf (mBit ins) (fieldP1 ins) literal) := by
  simp only [decodeDwords, h]

theorem opcodeP2Reg_of_decodeP2 {op : BitVec 8} {f : Reg → Reg → Instr} (h7 : op.getLsbD 7 = false)
    (h6 : op.getLsbD 6 = true) (hmap : ∀ rd rn, decodeP2 op rd rn = needReg rn (f rd)) : OpcodeP2Reg op f := by
  intro ins literal hbyte
  have hop : opcodeOf ins = op := hbyte
  have hformat : formatOf ins = .p2 := by rw [formatOf_opcode, hop, h7, if_neg Bool.false_ne_true, if_pos h6]
  rw [decodeDwords_p2 hformat, hop, hmap, needReg_operandOf, setWidth_fieldP2]
  rfl

theorem opcodeP1Reg_of_decodeP1 {op : BitVec 8} {f : Reg → Instr} (h7 : op.getLsbD 7 = false)
    (h6 : op.getLsbD 6 = false) (h5 : op.getLsbD 5 = true) (hmap : ∀ rn, decodeP1 op rn = needReg rn f) :
    OpcodeP1Reg op f := by
  intro ins literal hbyte
  have hop : opcodeOf ins = op := hbyte
  have hformat : formatOf ins = .p1 := by
    rw [formatOf_opcode, hop, h7, h6, if_neg Bool.false_ne_true, if_neg Bool.false_ne_true, if_pos h5]
  rw [decodeDwords_p1 hformat, hop, hmap, needReg_operandOf, setWidth_fieldP1]
  rfl

/-! ### Writes of one and of two registers -/

/-- `x[r] <- v; pc <- pc + 4` is `State.retire` with a register operand, which takes no literal dword. -/
theorem setReg_advance4_spec (s : State) (r : Reg) (v : Dword) :
    WritesOnly r v (s.pc + 4) s ((s.setReg r v).advance4) :=
  retire_spec s r v (.reg r)

/-- `x[p] <- v; x[q] <- w; pc <- npc`: everything it does. Where `p` is `q`, the second write wins. -/
theorem setReg_retire_spec (s : State) (p q : Reg) (v w : Dword) (rn : Operand) :
    ((s.setReg p v).retire q w rn).reg p = (if p = q then w else v) ∧
      ((s.setReg p v).retire q w rn).reg q = w ∧
      RegsExcept [p, q] s ((s.setReg p v).retire q w rn) ∧
      NoAccess (s.npc rn) s ((s.setReg p v).retire q w rn) := by
  obtain ⟨hq, hregs, hframe⟩ := retire_spec (s.setReg p v) q w rn
  refine ⟨?first, hq, fun r hr => ?others, hframe⟩
  case first =>
    split
    next hsame => subst hsame; exact hq
    next hne => rw [hregs p (by simpa using hne), reg_setReg, if_pos rfl]
  case others =>
    obtain ⟨hrp, hrq⟩ : r ≠ p ∧ r ≠ q := by simpa using hr
    rw [hregs r (by simpa using hrq), reg_setReg, if_neg hrp]

/-! ### The values XCHGW and XCHGB write, as numbers -/

theorem toNat_append_eq_add {m n : Nat} (hi : BitVec m) (lo : BitVec n) :
    (hi ++ lo).toNat = hi.toNat * 2 ^ n + lo.toNat := by
  rw [BitVec.toNat_append, Nat.shiftLeft_eq, Nat.mul_comm, Nat.two_pow_add_eq_or_of_lt lo.isLt]

theorem toNat_swapWords (v : Dword) : (swapWords v).toNat = v.toNat % 2 ^ 16 * 2 ^ 16 + v.toNat / 2 ^ 16 := by
  have hv := v.isLt
  rw [swapWords, toNat_append_eq_add, BitVec.extractLsb'_toNat, BitVec.extractLsb'_toNat, Nat.shiftRight_zero,
    Nat.shiftRight_eq_div_pow]
  omega

theorem toNat_swapLowBytes (v : Dword) : (swapLowBytes v).toNat =
    v.toNat / 2 ^ 16 * 2 ^ 16 + v.toNat % 2 ^ 8 * 2 ^ 8 + v.toNat / 2 ^ 8 % 2 ^ 8 := by
  have hv := v.isLt
  rw [swapLowBytes, toNat_append_eq_add, toNat_append_eq_add, BitVec.extractLsb'_toNat, BitVec.extractLsb'_toNat,
    BitVec.extractLsb'_toNat, Nat.shiftRight_zero, Nat.shiftRight_eq_div_pow, Nat.shiftRight_eq_div_pow]
  omega

/-! ### The obligations -/

/-- Settles O15: both are `State.retire`, of the operand and of its complement. -/
theorem movAndNotWriteRd : Obligations.MovAndNotWriteRd := by
  refine ⟨⟨?mov, fun s rd rn => ⟨_, rfl, retire_spec s rd (s.opn rn) rn⟩⟩,
    ?not, fun s rd rn => ⟨_, rfl, retire_spec s rd (~~~(s.opn rn)) rn⟩⟩
  case mov => exact opcodeP2_of_decodeP2 (by decide) (by decide) fun _ _ => rfl
  case not => exact opcodeP2_of_decodeP2 (by decide) (by decide) fun _ _ => rfl

/-- Settles O16: `Rn`'s old value goes into `Rd`, then `Rd`'s old value into `Rn`; with `rd = rn` the two are one value. -/
theorem swpExchangesRegisters : Obligations.SwpExchangesRegisters := by
  refine ⟨opcodeP2Reg_of_decodeP2 (by decide) (by decide) fun _ _ => rfl, fun s rd rn => ?_⟩
  obtain ⟨hrd, hrn, hregs, hframe⟩ := setReg_retire_spec s rd rn (s.reg rn) (s.reg rd) (.reg rn)
  refine ⟨_, rfl, hrd.trans ?_, hrn, hregs, hframe⟩
  split
  next hsame => rw [hsame]
  next => rfl

/-- Settles O18: one register write each, of `swapWords` and of `swapLowBytes`. -/
theorem exchangesWithinRegister : Obligations.ExchangesWithinRegister := by
  refine ⟨⟨?wordsOpcode, fun s rn => ⟨_, _, rfl, setReg_advance4_spec s rn _, toNat_swapWords (s.reg rn)⟩⟩,
    ?bytesOpcode, fun s rn => ⟨_, _, rfl, setReg_advance4_spec s rn _, toNat_swapLowBytes (s.reg rn)⟩⟩
  case wordsOpcode => exact opcodeP1Reg_of_decodeP1 (by decide) (by decide) (by decide) fun _ => rfl
  case bytesOpcode => exact opcodeP1Reg_of_decodeP1 (by decide) (by decide) (by decide) fun _ => rfl

end Sys2Proof.Machine
end

section
/-! PROOFS. The bitwise instructions of 42_alu.md, AND, OR, XOR and BITC (R141 to R144): each is one `State.retire` of a
value computed from `x[rs]` and `opn`. -/

namespace Sys2Proof.Machine

/-- Settles O19: each is `State.retire` of its bitwise combination of `x[rs]` and `opn`; BITC complements `opn` first. -/
theorem logicWritesRd : Obligations.LogicWritesRd := by
  refine ⟨⟨?_, ?_, ?_, ?_⟩,
    fun s rd rs rn => ⟨⟨_, rfl, ?and⟩, ⟨_, rfl, ?or⟩, ⟨_, rfl, ?xor⟩, ⟨_, rfl, ?bitc⟩⟩⟩
  case and => exact retire_spec s rd (s.reg rs &&& s.opn rn) rn
  case or => exact retire_spec s rd (s.reg rs ||| s.opn rn) rn
  case xor => exact retire_spec s rd (s.reg rs ^^^ s.opn rn) rn
  case bitc => exact retire_spec s rd (s.reg rs &&& ~~~(s.opn rn)) rn
  all_goals exact opcodeP3_of_decodeP3 (by decide) fun _ _ _ => rfl

end Sys2Proof.Machine
end

section
/-! PROOFS. The absolute jumps of 44_jump_call.md (R185, R187): each is one write of `pc`, with the target's two low bits
cleared (R192). -/

namespace Sys2Proof.Machine

theorem opcodeP1_of_decodeP1 {op : BitVec 8} {f : Operand → Instr} (h7 : op.getLsbD 7 = false)
    (h6 : op.getLsbD 6 = false) (h5 : op.getLsbD 5 = true) (hmap : ∀ rn, decodeP1 op rn = .ok (f rn)) :
    OpcodeP1 op f := by
  intro ins literal hbyte
  have hop : opcodeOf ins = op := hbyte
  have hformat : formatOf ins = .p1 := by
    simp only [formatOf_opcode, hop, h7, h6, h5, Bool.false_eq_true, if_false, if_true]
  rw [decodeDwords_p1 hformat, hop]
  exact hmap _

/-- `pc <- target`: everything it does. -/
theorem setPc_spec (s : State) (target : Dword) :
    RegsExcept [] s (s.setPc target) ∧ NoAccess target s (s.setPc target) :=
  ⟨fun r _ => reg_setPc s target r, memorySame_of_eq (setPc_mem s target) (setPc_memMap s target) (setPc_tick s target),
    setPc_bus s target, setPc_sleeping s target,
    ⟨setPc_memMap s target, setPc_otherMasters s target, setPc_env s target, setPc_tick s target⟩, setPc_pc s target⟩

/-- Settles O31: both are `State.setPc`, to `alignTarget` of the sum and of the operand. -/
theorem absoluteJumpsSetPc : Obligations.AbsoluteJumpsSetPc := by
  refine ⟨⟨?sumOpcode, ?operandOpcode⟩, fun s rd rn => ⟨⟨_, rfl, ?sum⟩, ⟨_, rfl, ?operand⟩⟩⟩
  case sumOpcode => exact opcodeP2_of_decodeP2 (by decide) (by decide) fun _ _ => rfl
  case operandOpcode => exact opcodeP1_of_decodeP1 (by decide) (by decide) (by decide) fun _ => rfl
  case sum => exact setPc_spec s (alignTarget (s.reg rd + s.opn rn))
  case operand => exact setPc_spec s (alignTarget (s.opn rn))

end Sys2Proof.Machine
end

section
/-! PROOFS. The INT of 46_special_interrupt.md where no handler is entered (60_exceptions.md, R228, R229): `pc <- npc`, and
the vector read where the interrupt was accepted. Acceptance and the handler's address depend neither on `pc` nor on the
bus record, so the state before the INT decides both. -/

namespace Sys2Proof.Machine

theorem accepts_advance (s : State) (rn : Operand) : (s.advance rn).Accepts ↔ s.Accepts := by
  simp only [State.Accepts, State.advance, flag_setPc]

theorem handler_advance (s : State) (rn : Operand) (source : Source) (msg : Dword) :
    (s.advance rn).handler source msg = s.handler source msg :=
  readDword_setPc s (s.npc rn) (.vector source) (s.vectorAddress msg)

theorem execInt_unaccepted {s : State} (h : ¬s.Accepts) (rn : Operand) : execInt rn s = .next (s.advance rn) := by
  rw [execInt, takeInterrupt_unaccepted _ _ _ (mt (accepts_advance s rn).mp h)]

theorem execInt_aborted {s : State} {rn : Operand} (h : s.Accepts) (hzero : s.handler .software (s.opn rn) = 0) :
    execInt rn s = .next ((s.advance rn).log (.read (.vector .software) (s.vectorAddress (s.opn rn)) 4)) := by
  have hnone : (s.advance rn).handler .software (s.opn rn) = 0 := (handler_advance s rn _ _).trans hzero
  rw [execInt, takeInterrupt_aborted _ _ _ ((accepts_advance s rn).mpr h) hnone]
  rfl

/-- Settles O41: both are `pc <- npc`, whose frame is that of `State.setPc`; the zero entry adds the vector read to the bus
record. -/
theorem intNotAcceptedIsNop : Obligations.IntNotAcceptedIsNop := by
  intro s rn
  obtain ⟨hregs, hframe⟩ := setPc_spec s (s.npc rn)
  refine ⟨fun hrefused => ⟨_, execInt_unaccepted hrefused rn, hregs, hframe⟩,
    fun haccepts hzero => ⟨_, execInt_aborted haccepts hzero, ?_⟩, rfl⟩
  obtain ⟨hmem, hbus, hsleep, hplatform, hpc⟩ := hframe
  exact ⟨hregs, hmem, hsleep, hplatform, hpc, congrArg (· ++ _) hbus⟩

end Sys2Proof.Machine
end

section
/-! PROOFS. Decoding inverts encoding (30_encoding.md R106): each format puts the opcode, the operand and the register
numbers into fields the decoder reads back, so the round trip of an instruction is its row of the opcode map. -/

namespace Sys2Proof.Machine

/-! ### One operand and one register number -/

theorem ofBits_toBits (r : Reg) : Reg.ofBits r.toBits = r := by cases r <;> rfl

/-- A well-formed operand is what its M bit, its field and its literal dword say, in a field of any width from 4 on. -/
theorem operandOf_encoded {w : Nat} (hw : 4 ≤ w) {rn : Operand} (h : rn.wf w = true) :
    operandOf (rn.mBit == 1) (rn.field w) (rn.literal.headD 0) = rn := by
  cases rn with
  | reg r =>
    have hnumber : (r.toBits.setWidth w).setWidth 4 = r.toBits := by
      rw [BitVec.setWidth_setWidth_of_le _ hw, BitVec.setWidth_eq]
    exact congrArg Operand.reg ((congrArg Reg.ofBits hnumber).trans (ofBits_toBits r))
  | imm v =>
    have hshort : v.setWidth w ≠ marker w := by simpa using imm_field_ne_marker w v h
    have hvalue : (v.setWidth w).signExtend 32 = v := by
      simp only [Operand.wf, immFits, Bool.and_eq_true, beq_iff_eq] at h
      exact h.1
    exact (operandOf_short hshort 0).trans (congrArg Operand.imm hvalue)
  | lit v => simp [operandOf, Operand.mBit, Operand.field, Operand.literal]

/-! ### The register numbers of an encoded dword -/

theorem p3_rs (op : BitVec 8) (m : BitVec 1) (f : BitVec 15) (rs rd : BitVec 4) :
    (op ++ m ++ f ++ rs ++ rd : Dword).extractLsb' 4 4 = rs := by
  ext i hi
  rw [BitVec.getElem_extractLsb', p3_bit, if_neg (by omega), if_pos (by omega), show 4 + i - 4 = i by omega,
    BitVec.getLsbD_eq_getElem]

theorem p3_rd (op : BitVec 8) (m : BitVec 1) (f : BitVec 15) (rs rd : BitVec 4) :
    (op ++ m ++ f ++ rs ++ rd : Dword).extractLsb' 0 4 = rd := by
  ext i hi
  rw [BitVec.getElem_extractLsb', p3_bit, Nat.zero_add, if_pos hi, BitVec.getLsbD_eq_getElem]

theorem p2_rd (op : BitVec 8) (m : BitVec 1) (f : BitVec 19) (rd : BitVec 4) :
    (op ++ m ++ f ++ rd : Dword).extractLsb' 0 4 = rd := by
  ext i hi
  rw [BitVec.getElem_extractLsb', p2_bit, Nat.zero_add, if_pos hi, BitVec.getLsbD_eq_getElem]

/-! ### The format of an opcode byte -/

theorem formatOf_p3 {ins : Dword} {op : BitVec 8} (hop : opcodeOf ins = op) (h7 : op.getLsbD 7 = true) :
    formatOf ins = .p3 := by
  rw [formatOf_opcode, hop, if_pos h7]

theorem formatOf_p2 {ins : Dword} {op : BitVec 8} (hop : opcodeOf ins = op) (h7 : op.getLsbD 7 = false)
    (h6 : op.getLsbD 6 = true) : formatOf ins = .p2 := by
  rw [formatOf_opcode, hop, h7, if_neg Bool.false_ne_true, if_pos h6]

theorem formatOf_p1 {ins : Dword} {op : BitVec 8} (hop : opcodeOf ins = op) (h7 : op.getLsbD 7 = false)
    (h6 : op.getLsbD 6 = false) (h5 : op.getLsbD 5 = true) : formatOf ins = .p1 := by
  rw [formatOf_opcode, hop, h7, h6, if_neg Bool.false_ne_true, if_neg Bool.false_ne_true, if_pos h5]

/-! ### The encodings of the four formats -/

/-- One or two dwords that decode to `i`: the first tells whether there is a second (R91). -/
def DecodesTo (i : Instr) (dwords : List Dword) : Prop :=
  ∃ ins literal, dwords = ins :: literal ∧ literal.length = (hasLiteral ins).toNat ∧
    decodeDwords ins (literal.headD 0) = .ok i

theorem decodesTo_p3 {op : BitVec 8} {rd rs : Reg} {rn : Operand} {i : Instr} (h : rn.wf 15 = true)
    (h7 : op.getLsbD 7 = true) (hmap : decodeP3 op rd rs rn = .ok i) : DecodesTo i (encodeP3 op rd rs rn) := by
  refine ⟨_, rn.literal, rfl, ?length, ?decoded⟩
  case length =>
    rw [rn.literal_length, ← rn.marks 15 h, hasLiteral, formatOf_p3 (p3_opcode ..) h7]
    simp only [mBit, fieldP3, p3_m, p3_field]
  case decoded =>
    rw [decodeDwords_p3 (formatOf_p3 (p3_opcode ..) h7)]
    simp only [opcodeOf, rdOf, rsOf, mBit, fieldP3, p3_opcode, p3_rd, p3_rs, p3_m, p3_field, ofBits_toBits,
      operandOf_encoded (by decide : 4 ≤ 15) h, hmap]

theorem decodesTo_p2 {op : BitVec 8} {rd : Reg} {rn : Operand} {i : Instr} (h : rn.wf 19 = true)
    (h7 : op.getLsbD 7 = false) (h6 : op.getLsbD 6 = true) (hmap : decodeP2 op rd rn = .ok i) :
    DecodesTo i (encodeP2 op rd rn) := by
  refine ⟨_, rn.literal, rfl, ?length, ?decoded⟩
  case length =>
    rw [rn.literal_length, ← rn.marks 19 h, hasLiteral, formatOf_p2 (p2_opcode ..) h7 h6]
    simp only [mBit, fieldP2, p2_m, p2_field]
  case decoded =>
    rw [decodeDwords_p2 (formatOf_p2 (p2_opcode ..) h7 h6)]
    simp only [opcodeOf, rdOf, mBit, fieldP2, p2_opcode, p2_rd, p2_m, p2_field, ofBits_toBits,
      operandOf_encoded (by decide : 4 ≤ 19) h, hmap]

theorem decodesTo_p1 {op : BitVec 8} {rn : Operand} {i : Instr} (h : rn.wf 23 = true) (h7 : op.getLsbD 7 = false)
    (h6 : op.getLsbD 6 = false) (h5 : op.getLsbD 5 = true) (hmap : decodeP1 op rn = .ok i) :
    DecodesTo i (encodeP1 op rn) := by
  refine ⟨_, rn.literal, rfl, ?length, ?decoded⟩
  case length =>
    rw [rn.literal_length, ← rn.marks 23 h, hasLiteral, formatOf_p1 (p1_opcode ..) h7 h6 h5]
    simp only [mBit, fieldP1, p1_m, p1_field]
  case decoded =>
    rw [decodeDwords_p1 (formatOf_p1 (p1_opcode ..) h7 h6 h5)]
    simp only [opcodeOf, mBit, fieldP1, p1_opcode, p1_m, p1_field, operandOf_encoded (by decide : 4 ≤ 23) h, hmap]

/-- Every row of the opcode map, by its format: P3, P2 and P1 with any operand, P2 and P1 with a register only, NP. -/
theorem decodesTo_encode {i : Instr} (h : i.wf = true) : DecodesTo i (encode i) := by
  cases i
  case and | or | xor | bitc | add | addc | sub | subb | rsb | rsbb | lls | lrs | ars | rotl | rotr | mul | smul | div
      | sdiv | loadP3 | loadwP3 | loadbP3 | storeP3 | storewP3 | storebP3 =>
    exact decodesTo_p3 h (by decide) rfl
  case mov | not | sigxb | sigxw | loadP2 | loadwP2 | loadbP2 | storeP2 | storewP2 | storebP2 | ifeq | ifneq | ifl | ifsl
      | ifle | ifsle | ifbits | ifclear | jmpP2 | callP2 =>
    exact decodesTo_p2 h (by decide) (by decide) rfl
  case swp => exact decodesTo_p2 rfl (by decide) (by decide) rfl
  case jmpP1 | callP1 | rjmp | rcall | int => exact decodesTo_p1 h (by decide) (by decide) (by decide) rfl
  case xchgb | xchgw | getpc | pop | push => exact decodesTo_p1 rfl (by decide) (by decide) (by decide) rfl
  case sleep | ret | rfi => exact ⟨_, [], rfl, by decide, by rfl⟩

/-! ### From dwords to bytes -/

theorem decode_bytes_short {ins : Dword} {i : Instr} (hlit : hasLiteral ins = false) (h : decodeDwords ins 0 = .ok i)
    (rest : List Byte) : decode (bytesOfDword ins ++ rest) = .ok (i, rest) := by
  have hnone : decodeDwords ins 0#32 = .ok i := h
  simp [bytesOfDword, decode, dwordOfBytes_extract, hlit, hnone]

theorem decode_bytes_long {ins literal : Dword} {i : Instr} (hlit : hasLiteral ins = true)
    (h : decodeDwords ins literal = .ok i) (rest : List Byte) :
    decode (bytesOfDword ins ++ (bytesOfDword literal ++ rest)) = .ok (i, rest) := by
  simp [bytesOfDword, decode, dwordOfBytes_extract, hlit, h]

theorem decode_of_decodesTo {i : Instr} {dwords : List Dword} (h : DecodesTo i dwords) (rest : List Byte) :
    decode (dwords.flatMap bytesOfDword ++ rest) = .ok (i, rest) := by
  obtain ⟨ins, literal, rfl, hlength, hdecoded⟩ := h
  match literal, hlength, hdecoded with
  | [], hlength, hdecoded =>
    have hlit : hasLiteral ins = false := by simpa using hlength.symm
    simpa using decode_bytes_short hlit hdecoded rest
  | [v], hlength, hdecoded =>
    have hlit : hasLiteral ins = true := by simpa using hlength.symm
    simpa using decode_bytes_long hlit hdecoded rest
  | _ :: _ :: _, hlength, _ =>
    have hle := Bool.toNat_le (hasLiteral ins)
    simp only [List.length_cons] at hlength
    omega

/-- Settles O1: the dwords of the encoding decode to the instruction, whatever its format, and decoding reads them back
from their bytes. -/
theorem decodeInvertsEncode : Obligations.DecodeInvertsEncode :=
  fun _ rest hwf => decode_of_decodesTo (decodesTo_encode hwf) rest

end Sys2Proof.Machine
end

section
/-! PROOFS. What an instruction and a step may change, said once. `MemoryWritten`: memory changes by writes of single
bytes only, and the platform's parameters stay. `Frame`: beside that, no register outside a list and no field of `%flags`
outside a list changes. Every operation of the model keeps a frame, so each instruction's frame is the chain of its
operations. -/

namespace Sys2Proof.Machine

/-! ### Memory changes by writes of bytes only -/

/-- The memory of `t` is that of `s` after some writes of single bytes, and the platform's parameters are the same. -/
def MemoryWritten (s t : State) : Prop := ParametersSame s t ∧ ∃ cells, t.mem = (s.writeCells cells).mem

theorem MemoryWritten.of_mem_eq {s t : State} (hparams : ParametersSame s t) (hmem : t.mem = s.mem) : MemoryWritten s t :=
  ⟨hparams, [], hmem⟩

theorem MemoryWritten.refl (s : State) : MemoryWritten s s := .of_mem_eq ⟨rfl, rfl⟩ rfl

/-- What a write of bytes leaves in memory depends on memory and the map only. -/
theorem writeCells_mem_congr (cells : List ByteWrite) : ∀ {s t : State}, t.memMap = s.memMap → t.mem = s.mem →
    (t.writeCells cells).mem = (s.writeCells cells).mem := by
  induction cells with
  | nil => intro s t _ hmem; exact hmem
  | cons c cells ih =>
    intro s t hmap hmem
    refine ih (by simpa using hmap) ?_
    rw [writeByte_eq, writeByte_eq, kindAt_congr hmap, hmem]

theorem MemoryWritten.trans {s t u : State} (hst : MemoryWritten s t) (htu : MemoryWritten t u) : MemoryWritten s u := by
  obtain ⟨⟨hmap, hmasters⟩, before, hbefore⟩ := hst
  obtain ⟨⟨hmap', hmasters'⟩, after, hafter⟩ := htu
  refine ⟨⟨hmap'.trans hmap, hmasters'.trans hmasters⟩, before ++ after, ?_⟩
  have hcells : t.memMap = (s.writeCells before).memMap := by rw [hmap, writeCells_memMap]
  rw [hafter, writeCells_append]
  exact writeCells_mem_congr after hcells hbefore

theorem memoryWritten_writeCells (s : State) (cells : List ByteWrite) : MemoryWritten s (s.writeCells cells) :=
  ⟨⟨writeCells_memMap cells s, writeCells_otherMasters cells s⟩, cells, rfl⟩

theorem memoryWritten_writeBytes (bytes : List Byte) : ∀ (s : State) (a : Dword),
    MemoryWritten s (s.writeBytes a bytes) := by
  induction bytes with
  | nil => intro s a; exact .refl s
  | cons b bytes ih =>
    intro s a
    exact (memoryWritten_writeCells s [(a, b)]).trans (ih (s.writeByte a b) (a + 1))

theorem MemoryWritten.wf {s t : State} (h : MemoryWritten s t) (hwf : s.mem.wf) : t.mem.wf := by
  obtain ⟨-, cells, hmem⟩ := h
  rw [hmem]
  exact writeCells_wf cells s hwf

theorem ram_of_writable {k : RegionKind} (h : k.writable = true) : k = .ram := by
  cases k
  case ram => rfl
  case rom | device | absent => cases h

/-- A write of bytes changes none at an address that is not RAM (R54, R61). -/
theorem read_writeCells_of_not_ram (cells : List ByteWrite) : ∀ (s : State) (a : Dword), s.kindAt a ≠ .ram →
    (s.writeCells cells).mem.read a.toNat = s.mem.read a.toNat := by
  induction cells with
  | nil => intro s a _; rfl
  | cons c cells ih =>
    intro s a hkind
    have hmiss : ¬(a = c.1 ∧ (s.kindAt c.1).writable = true) := by
      rintro ⟨rfl, hwritable⟩
      exact hkind (ram_of_writable hwritable)
    rw [State.writeCells, ih _ _ (by rwa [kindAt_writeByte]), read_writeByte, if_neg hmiss]

theorem MemoryWritten.read_of_not_ram {s t : State} (h : MemoryWritten s t) {a : Dword} (ha : s.kindAt a ≠ .ram) :
    t.mem.read a.toNat = s.mem.read a.toNat := by
  obtain ⟨-, cells, hmem⟩ := h
  rw [hmem]
  exact read_writeCells_of_not_ram cells s a ha

/-! ### The frame of an instruction, operation by operation -/

/-- From `s` to `t` memory changed by writes of bytes only, every register outside `rs` but `%flags` is as before, and so
is every bit of `%flags` outside the fields `fs`, unless `rs` holds `%flags` itself. -/
structure Frame (rs : List Reg) (fs : List Flag) (s t : State) : Prop where
  mem : MemoryWritten s t
  reg : ∀ r, r ∉ rs → r ≠ .flags → t.reg r = s.reg r
  flags : .flags ∉ rs → FlagBitsExcept fs s t

section
variable {rs : List Reg} {fs : List Flag} {s t u : State}

theorem Frame.refl (s : State) : Frame rs fs s s := ⟨.refl s, fun _ _ _ => rfl, fun _ _ _ => rfl⟩

/-- An update that leaves the registers, memory and the parameters alone keeps the frame. -/
theorem Frame.same (h : Frame rs fs s t) (hregs : u.regs = t.regs) (hmem : u.mem = t.mem)
    (hparams : ParametersSame t u) : Frame rs fs s u := by
  have hreg (r : Reg) : u.reg r = t.reg r := congrArg (RegFile.get · r) hregs
  exact ⟨h.mem.trans (.of_mem_eq hparams hmem), fun r hr hne => (hreg r).trans (h.reg r hr hne),
    fun hf k hk => (congrArg (·.getLsbD k) (hreg .flags)).trans (h.flags hf k hk)⟩

theorem Frame.setPc (h : Frame rs fs s t) (pc : Dword) : Frame rs fs s (t.setPc pc) := h.same rfl rfl ⟨rfl, rfl⟩

theorem Frame.setSleeping (h : Frame rs fs s t) (b : Bool) : Frame rs fs s (t.setSleeping b) :=
  h.same rfl rfl ⟨rfl, rfl⟩

theorem Frame.log (h : Frame rs fs s t) (e : BusEvent) : Frame rs fs s (t.log e) := h.same rfl rfl ⟨rfl, rfl⟩

theorem Frame.logSkipped (h : Frame rs fs s t) (visited : List Dword) : Frame rs fs s (t.logSkipped visited) :=
  h.same rfl rfl ⟨rfl, rfl⟩

theorem Frame.advance (h : Frame rs fs s t) (rn : Operand) : Frame rs fs s (t.advance rn) := h.setPc _

theorem Frame.setReg (h : Frame rs fs s t) {r : Reg} (hr : r ∈ rs) (v : Dword) : Frame rs fs s (t.setReg r v) := by
  refine ⟨h.mem.trans (.of_mem_eq ⟨rfl, rfl⟩ rfl), fun q hq hne => ?_, fun hf k hk => ?_⟩
  · rw [reg_setReg, if_neg (ne_of_mem_of_not_mem hr hq).symm, h.reg q hq hne]
  · rw [reg_setReg, if_neg (ne_of_mem_of_not_mem hr hf).symm, h.flags hf k hk]

theorem Frame.setFlag (h : Frame rs fs s t) {f : Flag} (hf : f ∈ fs) (b : Bool) : Frame rs fs s (t.setFlag f b) := by
  refine ⟨h.mem.trans (.of_mem_eq ⟨rfl, rfl⟩ rfl), fun q hq hne => ?_, fun hflags k hk => ?_⟩
  · rw [reg_setFlag_of_ne _ _ _ _ hne, h.reg q hq hne]
  · rw [flagBit_setFlag, if_neg (hk f hf), h.flags hflags k hk]

theorem Frame.retire (h : Frame rs fs s t) {rd : Reg} (hr : rd ∈ rs) (v : Dword) (rn : Operand) :
    Frame rs fs s (t.retire rd v rn) := (h.setReg hr v).advance rn

theorem Frame.writeBytes (h : Frame rs fs s t) (a : Dword) (bytes : List Byte) :
    Frame rs fs s (t.writeBytes a bytes) := by
  have hreg (r : Reg) : (t.writeBytes a bytes).reg r = t.reg r := by simp [State.reg]
  exact ⟨h.mem.trans (memoryWritten_writeBytes bytes t a), fun r hr hne => (hreg r).trans (h.reg r hr hne),
    fun hf k hk => (congrArg (·.getLsbD k) (hreg .flags)).trans (h.flags hf k hk)⟩

theorem Frame.push (h : Frame rs fs s t) (hsp : .sp ∈ rs) (v : Dword) : Frame rs fs s (t.push v) :=
  ((h.setReg hsp _).writeBytes _ _).log _

theorem Frame.pop (h : Frame rs fs s t) (hsp : .sp ∈ rs) : Frame rs fs s t.pop := (h.log _).setReg hsp _

theorem Frame.readVector (h : Frame rs fs s t) (source : Source) (msg : Dword) :
    Frame rs fs s (t.readVector source msg) := by
  cases source
  case hardware => exact (h.log _).log _
  case software | singleStep => exact h.log _

theorem Frame.abortInterrupt (h : Frame rs fs s t) (source : Source) : Frame rs fs s (t.abortInterrupt source) := by
  cases source
  case hardware => exact h.log _
  case software | singleStep => exact h

theorem Frame.enterHandler (h : Frame rs fs s t) (h0 : .r0 ∈ rs) (hsp : .sp ∈ rs) (hi : .interrupt ∈ fs)
    (msg vec : Dword) : Frame rs fs s (t.enterHandler msg vec) :=
  (((((h.push hsp _).push hsp _).setReg h0 msg).setPc vec).setFlag hi true).setSleeping false

theorem Frame.takeInterrupt (h : Frame rs fs s t) (h0 : .r0 ∈ rs) (hsp : .sp ∈ rs) (hi : .interrupt ∈ fs)
    (source : Source) (msg : Dword) : Frame rs fs s (t.takeInterrupt source msg) := by
  unfold State.takeInterrupt
  split
  · split
    · exact (h.readVector source msg).abortInterrupt source
    · exact (h.readVector source msg).enterHandler h0 hsp hi msg _
  · exact h

theorem Frame.returnFromInterrupt (h : Frame rs fs s t) (h0 : .r0 ∈ rs) (hsp : .sp ∈ rs) (hi : .interrupt ∈ fs) :
    Frame rs fs s t.returnFromInterrupt :=
  (((h.pop hsp).pop hsp).setPc _ |>.setReg h0 _).setFlag hi false

theorem Frame.retireDivision (h : Frame rs fs s t) {rd : Reg} (hrd : rd ∈ rs) (hy : .y ∈ rs) (hd : .divError ∈ fs)
    (b q rem : Dword) (rn : Operand) : Frame rs fs s (t.retireDivision rd b q rem rn) := by
  unfold State.retireDivision
  split
  · exact (h.setFlag hd true).advance rn
  · exact (((h.setFlag hd false).setReg hrd q).setReg hy rem).advance rn

theorem Frame.of_executeIf {holds : Bool} {rn : Operand} (h : t.executeIf holds rn = .next u) : Frame rs fs t u := by
  rcases executeIf_cases t holds rn with ⟨-, hnext⟩ | ⟨-, visited, target, -, hnext⟩ | ⟨-, -, hfault⟩
  · cases hnext.symm.trans h
    exact (Frame.refl t).advance rn
  · cases hnext.symm.trans h
    exact ((Frame.refl t).logSkipped visited).setPc target
  · cases hfault.symm.trans h

end

/-! ### Every instruction -/

/-- The registers that the tables of Sys2Proof/Safety.lean let an instruction write, beside `%flags` field by field. -/
def writtenRegs (i : Instr) : List Reg := destinations i ++ implicitRegs i

@[simp] theorem mem_writtenRegs {r : Reg} {i : Instr} :
    r ∈ writtenRegs i ↔ r ∈ destinations i ∨ r ∈ implicitRegs i := List.mem_append

/-- Every instruction keeps to the tables `destinations`, `implicitRegs` and `implicitFlags`. -/
theorem exec_frame {i : Instr} {s t : State} (h : exec i s = .next t) : Frame (writtenRegs i) (implicitFlags i) s t := by
  have start : Frame (writtenRegs i) (implicitFlags i) s s := .refl s
  cases i
  case ifeq | ifneq | ifl | ifsl | ifle | ifsle | ifbits | ifclear => exact .of_executeIf h
  all_goals cases h
  case and rd rs rn | or rd rs rn | xor rd rs rn | bitc rd rs rn | rotl rd rs rn | rotr rd rs rn | mov rd rn | not rd rn
      | sigxb rd rn | sigxw rd rn =>
    exact start.retire (by simp [destinations]) _ rn
  case add rd rs rn | addc rd rs rn | sub rd rs rn | subb rd rs rn | rsb rd rs rn | rsbb rd rs rn =>
    exact ((start.setFlag (by simp [implicitFlags]) _).setFlag (by simp [implicitFlags]) _).retire
      (by simp [destinations]) _ rn
  case lls rd rs rn | lrs rd rs rn | ars rd rs rn =>
    exact (start.setFlag (by simp [implicitFlags]) _).retire (by simp [destinations]) _ rn
  case mul rd rs rn | smul rd rs rn =>
    exact ((start.setReg (by simp [destinations]) _).setReg (by simp [implicitRegs]) _).advance rn
  case div rd rs rn | sdiv rd rs rn =>
    exact start.retireDivision (by simp [destinations]) (by simp [implicitRegs])
      (by simp [implicitFlags]) _ _ _ rn
  case loadP3 rd rs rn | loadwP3 rd rs rn | loadbP3 rd rs rn | loadP2 rd rn | loadwP2 rd rn | loadbP2 rd rn =>
    exact (start.log _).retire (by simp [destinations]) _ rn
  case storeP3 rd rs rn | storewP3 rd rs rn | storebP3 rd rs rn | storeP2 rd rn | storewP2 rd rn | storebP2 rd rn =>
    exact ((start.writeBytes _ _).log _).advance rn
  case swp rd rn =>
    exact ((start.setReg (by simp [destinations]) _).setReg (by simp [destinations]) _).setPc _
  case xchgb rn | xchgw rn | getpc rn => exact (start.setReg (by simp [destinations]) _).setPc _
  case jmpP2 | jmpP1 | rjmp => exact start.setPc _
  case callP2 rd rn | callP1 rn | rcall rn => exact (start.push (by simp [implicitRegs]) _).setPc _
  case pop rn =>
    exact ((start.pop (by simp [implicitRegs])).setReg (by simp [destinations]) _).setPc _
  case push rn => exact (start.push (by simp [implicitRegs]) _).setPc _
  case ret => exact (start.pop (by simp [implicitRegs])).setPc _
  case int rn =>
    exact (start.advance rn).takeInterrupt (by simp [implicitRegs]) (by simp [implicitRegs])
      (by simp [implicitFlags]) .software _
  case sleep => exact (start.setPc _).setSleeping true
  case rfi =>
    exact start.returnFromInterrupt (by simp [implicitRegs]) (by simp [implicitRegs])
      (by simp [implicitFlags])

theorem flags_not_mem_implicitRegs (i : Instr) : .flags ∉ implicitRegs i := by cases i <;> simp [implicitRegs]

/-- Settles O57: the flags part of the frame; no table of implicit registers holds `%flags`. -/
theorem flagsAreWrittenOnlyAsListed : Obligations.FlagsAreWrittenOnlyAsListed := by
  intro i s t h hdest
  exact (exec_frame h).flags (by simp [hdest, flags_not_mem_implicitRegs])

/-- Settles O58: the register part of the frame; `%flags` with an empty table of fields keeps each of its bits. -/
theorem registersAreWrittenOnlyAsListed : Obligations.RegistersAreWrittenOnlyAsListed := by
  intro i s t r h hdest himplicit hflags
  by_cases hr : r = .flags
  · subst hr
    have hbits := flagsAreWrittenOnlyAsListed i s t h hdest
    rw [hflags rfl] at hbits
    exact BitVec.eq_of_getLsbD_eq fun k _ => hbits k (by simp)
  · exact (exec_frame h).reg r (by simp [hdest, himplicit]) hr

/-! ### Every step -/

theorem takeInterrupt_memoryWritten (s : State) (source : Source) (msg : Dword) :
    MemoryWritten s (s.takeInterrupt source msg) :=
  ((Frame.refl s).takeInterrupt (rs := [.r0, .sp]) (fs := [.interrupt]) (by simp) (by simp) (by simp) source msg).mem

theorem afterInstruction_memoryWritten (s : State) (armed : Bool) : MemoryWritten s (s.afterInstruction armed) := by
  unfold State.afterInstruction
  split
  · exact takeInterrupt_memoryWritten s .singleStep 0
  · exact .refl s

theorem logFetch_memoryWritten (s : State) : MemoryWritten s s.logFetch :=
  .of_mem_eq ⟨logFetch_memMap s, logFetch_otherMasters s⟩ (logFetch_mem s)

theorem executeNext_memoryWritten {s t : State} (h : s.executeNext = .next t) : MemoryWritten s t := by
  rcases executeNext_next h with ⟨-, rfl⟩ | ⟨i, u, -, -, -, hexec, rfl⟩
  · exact .refl t
  · exact ((logFetch_memoryWritten s).trans (exec_frame hexec).mem).trans (afterInstruction_memoryWritten u _)

theorem boundary_memoryWritten {s t : State} {hw : Option Dword} (h : s.boundary hw = .next t) : MemoryWritten s t := by
  rcases boundary_cases s hw with ⟨msg, -, -, htaken⟩ | ⟨-, hnext⟩
  · cases htaken.symm.trans h
    exact takeInterrupt_memoryWritten s .hardware msg
  · exact executeNext_memoryWritten (hnext.symm.trans h)

theorem move_memoryWritten {s t : State} {m : EnvMove} (h : s.move m = .next t) : MemoryWritten s t := by
  cases m with
  | boundary hw => exact boundary_memoryWritten h
  | reset hw landed =>
    cases h
    exact (memoryWritten_writeCells s _).trans (.of_mem_eq ⟨rfl, rfl⟩ rfl)
  | wait => cases h; exact .refl s
  | masters writes =>
    cases h
    unfold State.mastersWrite
    split
    · exact memoryWritten_writeCells s writes
    · exact .refl s

/-- Whatever the environment does, a step changes memory by writes of bytes only and keeps the parameters. -/
theorem step_memoryWritten {s t : State} (h : step s = .next t) : MemoryWritten s t := by
  obtain ⟨u, hmove, rfl⟩ := step_next h
  have hbegin : MemoryWritten s s.beginStep := .of_mem_eq ⟨rfl, rfl⟩ rfl
  have hend : MemoryWritten u u.endStep := .of_mem_eq ⟨rfl, rfl⟩ rfl
  exact (hbegin.trans (move_memoryWritten hmove)).trans hend

/-- Settles O56: every write of a byte keeps the canonical form. -/
theorem stepKeepsInvariant : Obligations.StepKeepsInvariant := fun _ _ hinv h => (step_memoryWritten h).wf hinv

/-- Settles O10: no write of a byte changes one at an address that is not RAM. -/
theorem onlyRamEverChanges : Obligations.OnlyRamEverChanges :=
  fun _ _ h => ⟨(step_memoryWritten h).1, fun _ ha => (step_memoryWritten h).read_of_not_ram ha⟩

end Sys2Proof.Machine
end

section
/-! PROOFS. Which dwords are instructions, and which of their bits count (30_encoding.md R80 to R99): a dword is
recognised where its opcode byte is in its format's map and its M bit or its reserved bits admit it; with M = 0 only four
bits of the Rn field count; the marker makes the next dword the operand. -/

namespace Sys2Proof.Machine

/-! ### Words of the spec -/

/-- Settles O2: ten evaluations of the decoder. -/
theorem exampleWordsDecode : Obligations.ExampleWordsDecode := by
  unfold Obligations.ExampleWordsDecode
  decide

/-! ### Bits that do not count with M = 0 -/

/-- A mask of ones over a slice leaves the slice. -/
theorem extractLsb'_and_of_ones {ins mask : Dword} {start len : Nat}
    (h : mask.extractLsb' start len = BitVec.allOnes len) :
    (ins &&& mask).extractLsb' start len = ins.extractLsb' start len := by
  rw [BitVec.extractLsb'_and, h, BitVec.and_allOnes]

theorem formatOf_and {ins mask : Dword} (h : mask.extractLsb' 24 8 = BitVec.allOnes 8) :
    formatOf (ins &&& mask) = formatOf ins := by
  rw [formatOf_opcode, formatOf_opcode, opcodeOf, opcodeOf, extractLsb'_and_of_ones h]

theorem mBit_and {ins : Dword} (h : ins.getLsbD 23 = false) (mask : Dword) : mBit (ins &&& mask) = false := by
  rw [mBit, BitVec.getLsbD_and, h, Bool.false_and]

theorem operandOf_register {w : Nat} (field : BitVec w) (literal : Dword) :
    operandOf false field literal = .reg (.ofBits (field.setWidth 4)) := rfl

theorem setWidth_fieldP3 (ins : Dword) : (fieldP3 ins).setWidth 4 = ins.extractLsb' 8 4 :=
  BitVec.setWidth_extractLsb'_of_le (by decide)

/-- Settles O3: each mask keeps the opcode byte and every register number, and M stays 0. -/
theorem registerFormIgnoresUpperBits : Obligations.RegisterFormIgnoresUpperBits := by
  intro ins literal hM
  have hm : mBit ins = false := hM
  refine ⟨fun hformat => ?p3, fun hformat => ?p2, fun hformat => ?p1⟩
  case p3 =>
    rw [decodeDwords_p3 hformat, decodeDwords_p3 ((formatOf_and (by decide)).trans hformat), hm, mBit_and hM,
      operandOf_register, operandOf_register, setWidth_fieldP3, setWidth_fieldP3, opcodeOf, rdOf, rsOf, opcodeOf, rdOf,
      rsOf, extractLsb'_and_of_ones (by decide), extractLsb'_and_of_ones (by decide), extractLsb'_and_of_ones (by decide),
      extractLsb'_and_of_ones (by decide)]
  case p2 =>
    rw [decodeDwords_p2 hformat, decodeDwords_p2 ((formatOf_and (by decide)).trans hformat), hm, mBit_and hM,
      operandOf_register, operandOf_register, setWidth_fieldP2, setWidth_fieldP2, opcodeOf, rdOf, opcodeOf, rdOf,
      extractLsb'_and_of_ones (by decide), extractLsb'_and_of_ones (by decide), extractLsb'_and_of_ones (by decide)]
  case p1 =>
    rw [decodeDwords_p1 hformat, decodeDwords_p1 ((formatOf_and (by decide)).trans hformat), hm, mBit_and hM,
      operandOf_register, operandOf_register, setWidth_fieldP1, setWidth_fieldP1, opcodeOf, opcodeOf,
      extractLsb'_and_of_ones (by decide), extractLsb'_and_of_ones (by decide)]

/-! ### The literal dword -/

theorem operandOf_marker {w : Nat} {field : BitVec w} (h : field = marker w) (literal : Dword) :
    operandOf true field literal = .lit literal := by
  simp [operandOf, h]

theorem fetchedLiteral_of_hasLiteral {s : State} (h : hasLiteral s.fetchedWord = true) :
    s.fetchedLiteral = s.readDword .literal (s.pc + 4) := if_pos h

/-- A fetched word with M = 1 and the marker in its format's field takes the next dword as its operand (R89, R91). -/
theorem literal_of_marker {s : State} (hm : mBit s.fetchedWord = true) (hlit : hasLiteral s.fetchedWord = true) {w : Nat}
    {field : BitVec w} (hfield : field = marker w) : s.fetchedLiteral = s.readDword .literal (s.pc + 4) ∧
      operandOf (mBit s.fetchedWord) field s.fetchedLiteral = .lit s.fetchedLiteral ∧
      s.npc (.lit s.fetchedLiteral) = s.pc + 8 :=
  ⟨fetchedLiteral_of_hasLiteral hlit, by rw [hm, operandOf_marker hfield], rfl⟩

/-- Settles O5: the marker with M = 1 is what `hasLiteral` and `operandOf` look for, in each format's field. -/
theorem longImmediateIsNextDword : Obligations.LongImmediateIsNextDword := by
  intro s hM
  have hm : mBit s.fetchedWord = true := hM
  refine ⟨fun hformat hfield => ?_, fun hformat hfield => ?_, fun hformat hfield => ?_⟩
  · rw [← marker_p3] at hfield
    exact literal_of_marker hm (by simp [hasLiteral, hm, hformat, fieldP3, hfield]) hfield
  · rw [← marker_p2] at hfield
    exact literal_of_marker hm (by simp [hasLiteral, hm, hformat, fieldP2, hfield]) hfield
  · rw [← marker_p1] at hfield
    exact literal_of_marker hm (by simp [hasLiteral, hm, hformat, fieldP1, hfield]) hfield

/-! ### Which dwords are instructions -/

/-- Whether an answer of the decoder is an instruction. -/
def Recognised (r : Except DecodeError Instr) : Prop := ∃ i, r = .ok i

@[simp] theorem recognised_ok (i : Instr) : Recognised (.ok i) := ⟨i, rfl⟩

@[simp] theorem not_recognised_error (e : DecodeError) : ¬Recognised (.error e) := by rintro ⟨i, h⟩; cases h

/-- R97: an instruction whose operand must be a register is recognised with M = 0 only. -/
@[simp] theorem recognised_needReg {w : Nat} (m : Bool) (field : BitVec w) (literal : Dword) (f : Reg → Instr) :
    Recognised (needReg (operandOf m field literal) f) ↔ m = false := by
  rw [needReg_operandOf]
  cases m <;> simp

theorem recognised_decodeP3 (op : BitVec 8) (rd rs : Reg) (rn : Operand) :
    Recognised (decodeP3 op rd rs rn) ↔ 0x80 ≤ op.toNat ∧ op.toNat ≤ 0x98 := by
  unfold decodeP3
  split
  case h_26 => simp only [imp_false, not_recognised_error, false_iff] at *; omega
  all_goals simp [*]

theorem recognised_decodeP2 (op : BitVec 8) (rd : Reg) {w : Nat} (m : Bool) (field : BitVec w) (literal : Dword) :
    Recognised (decodeP2 op rd (operandOf m field literal)) ↔
      0x40 ≤ op.toNat ∧ op.toNat ≤ 0x54 ∧ (op.toNat = 0x41 → m = false) := by
  unfold decodeP2
  split
  case h_22 => simp only [imp_false, not_recognised_error, false_iff] at *; omega
  all_goals simp [*]

theorem recognised_decodeP1 (op : BitVec 8) {w : Nat} (m : Bool) (field : BitVec w) (literal : Dword) :
    Recognised (decodeP1 op (operandOf m field literal)) ↔
      0x20 ≤ op.toNat ∧ op.toNat ≤ 0x29 ∧ (op.toNat ≤ 0x24 → m = false) := by
  unfold decodeP1
  split
  case h_11 => simp only [imp_false, not_recognised_error, false_iff] at *; omega
  all_goals simp [*]

theorem recognised_decodeNP (op : BitVec 8) (reserved : BitVec 24) :
    Recognised (decodeNP op reserved) ↔ op.toNat ≤ 0x02 ∧ reserved = 0 := by
  unfold decodeNP
  split
  case h_4 => simp only [imp_false, not_recognised_error, false_iff] at *; omega
  all_goals by_cases hr : reserved = 0#24 <;> simp [*]

/-- R81: the format goes by the quarter of the opcode byte's range. -/
theorem formatOf_eq (ins : Dword) : formatOf ins =
    if 0x80 ≤ (opcodeOf ins).toNat then .p3 else if 0x40 ≤ (opcodeOf ins).toNat then .p2
    else if 0x20 ≤ (opcodeOf ins).toNat then .p1 else .np := by
  have hlt := (opcodeOf ins).isLt
  simp only [formatOf_opcode, BitVec.getLsbD, Nat.testBit_eq_decide_div_mod_eq, decide_eq_true_eq]
  generalize (opcodeOf ins).toNat = op at hlt
  by_cases h3 : 0x80 ≤ op
  · have h7 : op / 2 ^ 7 % 2 = 1 := by omega
    rw [if_pos h7, if_pos h3]
  · have h7 : ¬op / 2 ^ 7 % 2 = 1 := by omega
    have h6 : op / 2 ^ 6 % 2 = 1 ↔ 0x40 ≤ op := by omega
    rw [if_neg h7, if_neg h3]
    by_cases h2 : 0x40 ≤ op
    · rw [if_pos (h6.mpr h2), if_pos h2]
    · have h5 : op / 2 ^ 5 % 2 = 1 ↔ 0x20 ≤ op := by omega
      simp only [h6, h5]

/-- Settles O6: in each format, the opcode bytes of its map and the M bits and reserved bits it admits. -/
theorem recognisedExactlyAsListed : Obligations.RecognisedExactlyAsListed := by
  intro ins literal
  change Recognised (decodeDwords ins literal) ↔ _
  have hformat := formatOf_eq ins
  have hlt := (opcodeOf ins).isLt
  have hmem (n : Nat) : n ∈ [0x41, 0x20, 0x21, 0x22, 0x23, 0x24] ↔ n = 0x41 ∨ 0x20 ≤ n ∧ n ≤ 0x24 := by
    simp only [List.mem_cons, List.not_mem_nil, or_false]; omega
  rw [NotRecognised, hmem, ← opcodeOf, ← mBit]
  by_cases h3 : 0x80 ≤ (opcodeOf ins).toNat
  · rw [if_pos h3] at hformat
    rw [decodeDwords_p3 hformat, recognised_decodeP3]
    omega
  · rw [if_neg h3] at hformat
    by_cases h2 : 0x40 ≤ (opcodeOf ins).toNat
    · rw [if_pos h2] at hformat
      rw [decodeDwords_p2 hformat, recognised_decodeP2]
      cases mBit ins <;> simp <;> omega
    · rw [if_neg h2] at hformat
      by_cases h1 : 0x20 ≤ (opcodeOf ins).toNat
      · rw [if_pos h1] at hformat
        rw [decodeDwords_p1 hformat, recognised_decodeP1]
        cases mBit ins <;> simp <;> omega
      · rw [if_neg h1] at hformat
        have hnp : decodeDwords ins literal = decodeNP (opcodeOf ins) (ins.extractLsb' 0 24) := by
          simp only [decodeDwords, hformat]
        rw [hnp, recognised_decodeNP]
        by_cases hr : ins.extractLsb' 0 24 = 0#24 <;> simp [hr] <;> omega

end Sys2Proof.Machine
end

section
/-! PROOFS. Reads of 20_memory.md (R51, R53): the byte at the lowest address is the least significant. -/

namespace Sys2Proof.Machine

/-- Settles O8: each concatenation of bytes as a sum. -/
theorem readsAreLittleEndian : Obligations.ReadsAreLittleEndian := by
  intro s why a
  refine ⟨?word, ?dword⟩
  case word => rw [State.readWord, toNat_append_eq_add]; omega
  case dword =>
    rw [State.readDword, dwordOfBytes, toNat_append_eq_add, toNat_append_eq_add, toNat_append_eq_add]
    omega

/-- Settles O9: the store leaves every register and its address alone, so the load reads back the four bytes it wrote, and
so does a fetch. -/
theorem storedDwordIsLoadedAndFetched : Obligations.StoredDwordIsLoadedAndFetched := by
  intro s rd rs qd rn hram
  obtain ⟨hregs, hholds, -, -, -, ⟨hmap, -⟩, -⟩ := stored_advance (storeDword_spec s (s.indexed rs rn) (s.reg rd)) rn
  generalize ht : (s.storeDword (s.indexed rs rn) (s.reg rd)).advance rn = t at hregs hholds hmap
  have hramAfter : RamAt t (s.indexed rs rn) 4 := fun b hb => (kindAt_congr hmap b).trans (hram b hb)
  have hread (why : Access) : t.readDword why (s.indexed rs rn) = s.reg rd := readDword_of_holds hholds hramAfter why
  have haddr : t.indexed rs rn = s.indexed rs rn := by
    cases rn <;> simp [State.indexed, State.opn, hregs _ List.not_mem_nil]
  obtain ⟨hload, hothers, -⟩ := load_spec t qd (t.indexed rs rn) rn
  refine ⟨t, _, congrArg _ ht, rfl, ?_, fun r hr => (hothers r hr).trans (hregs r List.not_mem_nil), hread .fetch⟩
  rw [hload, haddr, hread]

end Sys2Proof.Machine
end

section
/-! PROOFS. Narrow loads and sign extensions (40_ram.md R123, 41_register.md R132, R133): one register write each, of a
value whose upper bits are zeros or copies of the sign. -/

namespace Sys2Proof.Machine

/-! ### Narrow loads -/

theorem loadw_spec (s : State) (rd : Reg) (ea : Dword) (rn : Operand) :
    Loaded rd ((s.readWord .data ea).setWidth 32) ea 2 (s.npc rn) s (s.loadw rd ea rn) :=
  loaded_of_writesOnly_log (retire_spec (s.log (.read .data ea 2)) rd _ rn)

theorem loadb_spec (s : State) (rd : Reg) (ea : Dword) (rn : Operand) :
    Loaded rd ((s.readByte .data ea).setWidth 32) ea 1 (s.npc rn) s (s.loadb rd ea rn) :=
  loaded_of_writesOnly_log (retire_spec (s.log (.read .data ea 1)) rd _ rn)

theorem toNat_setWidth_word (v : Word) : (v.setWidth 32).toNat = v.toNat := BitVec.toNat_setWidth_of_le (by decide)

theorem toNat_setWidth_byte (v : Byte) : (v.setWidth 32).toNat = v.toNat := BitVec.toNat_setWidth_of_le (by decide)

/-- Settles O12: the four forms are `State.loadw` and `State.loadb` at `Rs + Rn` and at `Rn`; widening keeps the number. -/
theorem narrowLoadsZeroExtend : Obligations.NarrowLoadsZeroExtend := by
  refine ⟨⟨?_, ?_, ?_, ?_⟩, fun s rd rs rn => ⟨?loadwP3, ?loadwP2, ?loadbP3, ?loadbP2⟩⟩
  case loadwP3 => exact ⟨_, _, rfl, toNat_setWidth_word _, loadw_spec s rd (s.indexed rs rn) rn⟩
  case loadwP2 => exact ⟨_, _, rfl, toNat_setWidth_word _, loadw_spec s rd (s.direct rn) rn⟩
  case loadbP3 => exact ⟨_, _, rfl, toNat_setWidth_byte _, loadb_spec s rd (s.indexed rs rn) rn⟩
  case loadbP2 => exact ⟨_, _, rfl, toNat_setWidth_byte _, loadb_spec s rd (s.direct rn) rn⟩
  · exact opcodeP3_of_decodeP3 (by decide) fun _ _ _ => rfl
  · exact opcodeP2_of_decodeP2 (by decide) (by decide) fun _ _ => rfl
  · exact opcodeP3_of_decodeP3 (by decide) fun _ _ _ => rfl
  · exact opcodeP2_of_decodeP2 (by decide) (by decide) fun _ _ => rfl

/-! ### Sign extensions -/

/-- A bit of the low `n + 1` bits of `v` with their sign bit copied above them. -/
theorem getLsbD_signExtend_low (v : Dword) (n : Nat) {k : Nat} (hk : k < 32) :
    ((v.extractLsb' 0 (n + 1)).signExtend 32).getLsbD k = if k ≤ n then v.getLsbD k else v.getLsbD n := by
  rw [BitVec.getLsbD_signExtend, BitVec.getLsbD_extractLsb', BitVec.msb_eq_getLsbD_last, BitVec.getLsbD_extractLsb']
  by_cases hlow : k ≤ n <;> simp [hk, hlow]

/-- The P-code of the source: with the sign bit set the bits above it are or-ed in, with it clear they are masked away. -/
theorem signExtend_low (v : Dword) {n : Nat} {upper lower : Dword} (hupper : ∀ k < 32, upper.getLsbD k = decide (n < k))
    (hlower : ∀ k < 32, lower.getLsbD k = decide (k ≤ n)) :
    (v.extractLsb' 0 (n + 1)).signExtend 32 = if v.getLsbD n then v ||| upper else v &&& lower := by
  apply BitVec.eq_of_getLsbD_eq
  intro k hk
  rw [getLsbD_signExtend_low v n hk]
  by_cases hlow : k ≤ n
  · rw [if_pos hlow]
    split
    · simp [hupper k hk, hlow]
    · simp [hlower k hk, hlow]
  · rw [if_neg hlow]
    split
    next hset => simp [hupper k hk, hset, Nat.lt_of_not_le hlow]
    next hclear => simp [hlower k hk, hclear, hlow]

/-- Settles O17: both are `State.retire` of a sign extension, of 8 and of 16 bits. -/
theorem signExtensionsWriteRd : Obligations.SignExtensionsWriteRd := by
  refine ⟨⟨?_, fun s rd rn => ⟨_, rfl, ?byte⟩⟩, ?_, fun s rd rn => ⟨_, rfl, ?word⟩⟩
  case byte =>
    rw [← signExtend_low (s.opn rn) (by decide) (by decide)]
    exact retire_spec s rd _ rn
  case word =>
    rw [← signExtend_low (s.opn rn) (by decide) (by decide)]
    exact retire_spec s rd _ rn
  all_goals exact opcodeP2_of_decodeP2 (by decide) (by decide) fun _ _ => rfl

end Sys2Proof.Machine
end

section
/-! PROOFS. Additions and subtractions (42_alu.md R150 to R159). `retire_setCarryOverflow_spec` says what a result with two
flags leaves behind; the rest is arithmetic of integers: the result modulo 2^32, the carry or borrow as its quotient, OF
as leaving the signed range. -/

namespace Sys2Proof.Machine

/-! ### A result written after the flags -/

/-- CF and OF, then `x[rd]`, then `pc`: the flags stand unless `rd` is `%flags` (R38, D17). -/
theorem retire_setCarryOverflow_spec (s : State) (c o : Bool) (rd : Reg) (v : Dword) (rn : Operand) :
    ((s.setCarryOverflow c o).retire rd v rn).reg rd = v ∧
      (rd ≠ .flags → ((s.setCarryOverflow c o).retire rd v rn).flag .carry = c ∧
        ((s.setCarryOverflow c o).retire rd v rn).flag .overflow = o ∧
        FlagBitsExcept [.carry, .overflow] s ((s.setCarryOverflow c o).retire rd v rn)) ∧
      RegsExcept [rd, .flags] s ((s.setCarryOverflow c o).retire rd v rn) ∧
      NoAccess (s.npc rn) s ((s.setCarryOverflow c o).retire rd v rn) := by
  obtain ⟨hrd, hregs, hframe⟩ := retire_spec (s.setCarryOverflow c o) rd v rn
  refine ⟨hrd, fun hne => ?flags, fun r hr => ?others, hframe⟩
  case flags =>
    have hflags : ((s.setCarryOverflow c o).retire rd v rn).reg .flags = (s.setCarryOverflow c o).reg .flags :=
      hregs .flags (by simpa using hne.symm)
    have hfield (f : Flag) : ((s.setCarryOverflow c o).retire rd v rn).flag f = (s.setCarryOverflow c o).flag f :=
      congrArg (·.getLsbD f.bit) hflags
    refine ⟨?_, ?_, fun k hk => ?_⟩
    · rw [hfield, State.setCarryOverflow, flag_setFlag, if_neg (by decide), flag_setFlag, if_pos rfl]
    · rw [hfield, State.setCarryOverflow, flag_setFlag, if_pos rfl]
    · rw [hflags, State.setCarryOverflow, flagBit_setFlag, if_neg (hk .overflow (by simp)), flagBit_setFlag,
        if_neg (hk .carry (by simp))]
  case others =>
    obtain ⟨hrd, hflags⟩ : r ≠ rd ∧ r ≠ .flags := by simpa using hr
    rw [hregs r (by simpa using hrd), State.setCarryOverflow, reg_setFlag_of_ne _ _ _ _ hflags,
      reg_setFlag_of_ne _ _ _ _ hflags]

/-! ### Sums -/

theorem carryIn_eq (c : Bool) : carryIn c = c.toNat := by cases c <;> rfl

theorem toNat_addResult (a b : Dword) (cin : Bool) :
    (addResult a b cin).toNat = (a.toNat + b.toNat + cin.toNat) % 2 ^ 32 := by
  rw [addResult, BitVec.toNat_ofNat, carryIn_eq]

theorem addCarry_iff (a b : Dword) (cin : Bool) : addCarry a b cin = true ↔
    2 ^ 32 ≤ a.toNat + b.toNat + cin.toNat := by
  rw [addCarry, decide_eq_true_iff, carryIn_eq]

theorem signBit_eq_msb (v : Dword) : signBit v = v.msb := rfl

theorem addOverflow_iff (a b r : Dword) : addOverflow a b r = true ↔ a.msb = b.msb ∧ r.msb ≠ a.msb := by
  simp [addOverflow, signBit_eq_msb]

theorem retireAdd_spec (s : State) (rd : Reg) (a b : Dword) (cin : Bool) (rn : Operand) :
    SumWritten rd a b cin (s.npc rn) s (s.retireAdd rd a b cin rn) := by
  obtain ⟨hrd, hflags, hregs, hframe⟩ := retire_setCarryOverflow_spec s (addCarry a b cin)
    (addOverflow a b (addResult a b cin)) rd (addResult a b cin) rn
  refine ⟨(congrArg BitVec.toNat hrd).trans (toNat_addResult a b cin), fun hne => ?_, hregs, hframe⟩
  obtain ⟨hc, ho, hbits⟩ := hflags hne
  refine ⟨?_, ?_, hbits⟩
  · rw [State.retireAdd, hc, addCarry_iff]
  · rw [State.retireAdd, ho, hrd, addOverflow_iff]

/-- Settles O20: both are `State.retireAdd`, without a carry and with the old CF. -/
theorem additionsWriteSumAndFlags : Obligations.AdditionsWriteSumAndFlags := by
  refine ⟨⟨?_, ?_⟩, fun s rd rs rn => ⟨⟨_, rfl, ?add⟩, ⟨_, rfl, ?addc⟩⟩⟩
  case add => exact retireAdd_spec s rd (s.reg rs) (s.opn rn) false rn
  case addc => exact retireAdd_spec s rd (s.reg rs) (s.opn rn) (s.flag .carry) rn
  all_goals exact opcodeP3_of_decodeP3 (by decide) fun _ _ _ => rfl

/-! ### Differences -/

theorem toNat_subResult (m q : Dword) (bin : Bool) :
    ((subResult m q bin).toNat : Int) = ((m.toNat : Int) - q.toNat - bin.toNat) % 2 ^ 32 := by
  rw [subResult, BitVec.toNat_ofInt, carryIn_eq]
  omega

theorem subBorrow_iff (m q : Dword) (bin : Bool) : subBorrow m q bin = true ↔ m.toNat < q.toNat + bin.toNat := by
  rw [subBorrow, decide_eq_true_iff, carryIn_eq]

theorem subOverflow_iff (m q r : Dword) : subOverflow m q r = true ↔ m.msb ≠ q.msb ∧ r.msb ≠ m.msb := by
  simp [subOverflow, signBit_eq_msb]

theorem retireSub_spec (s : State) (rd : Reg) (m q : Dword) (bin : Bool) (rn : Operand) :
    DifferenceWritten rd m q bin (s.npc rn) s (s.retireSub rd m q bin rn) := by
  obtain ⟨hrd, hflags, hregs, hframe⟩ := retire_setCarryOverflow_spec s (subBorrow m q bin)
    (subOverflow m q (subResult m q bin)) rd (subResult m q bin) rn
  refine ⟨(congrArg (fun r : Dword => (r.toNat : Int)) hrd).trans (toNat_subResult m q bin), fun hne => ?_, hregs,
    hframe⟩
  obtain ⟨hc, ho, hbits⟩ := hflags hne
  refine ⟨?_, ?_, hbits⟩
  · rw [State.retireSub, hc, subBorrow_iff]
  · rw [State.retireSub, ho, hrd, subOverflow_iff]

/-- Settles O21: the four are `State.retireSub`, with either operand as minuend, without a borrow and with the old CF. -/
theorem subtractionsWriteDifferenceAndFlags : Obligations.SubtractionsWriteDifferenceAndFlags := by
  refine ⟨⟨?_, ?_, ?_, ?_⟩, fun s rd rs rn => ⟨⟨_, rfl, ?sub⟩, ⟨_, rfl, ?subb⟩, ⟨_, rfl, ?rsb⟩, ⟨_, rfl, ?rsbb⟩⟩⟩
  case sub => exact retireSub_spec s rd (s.reg rs) (s.opn rn) false rn
  case subb => exact retireSub_spec s rd (s.reg rs) (s.opn rn) (s.flag .carry) rn
  case rsb => exact retireSub_spec s rd (s.opn rn) (s.reg rs) false rn
  case rsbb => exact retireSub_spec s rd (s.opn rn) (s.reg rs) (s.flag .carry) rn
  all_goals exact opcodeP3_of_decodeP3 (by decide) fun _ _ _ => rfl

/-! ### OF is signed overflow -/

theorem toInt_eq (v : Dword) : v.toInt = if 2 ^ 31 ≤ v.toNat then (v.toNat : Int) - 2 ^ 32 else (v.toNat : Int) := by
  have hlt := v.isLt
  rw [BitVec.toInt_eq_toNat_cond]
  split <;> split <;> omega

theorem msb_eq_msb_iff (v w : Dword) : v.msb = w.msb ↔ (2 ^ 31 ≤ v.toNat ↔ 2 ^ 31 ≤ w.toNat) := by
  rw [BitVec.msb_eq_decide, BitVec.msb_eq_decide, decide_eq_decide]

/-- The table of R158 says that the exact signed sum leaves the range. -/
theorem overflow_of_sum {rd : Reg} {a b pc : Dword} {cin : Bool} {s t : State} (h : SumWritten rd a b cin pc s t)
    (hne : rd ≠ .flags) : t.flag .overflow = true ↔
      a.toInt + b.toInt + cin.toNat < -2 ^ 31 ∨ 2 ^ 31 ≤ a.toInt + b.toInt + cin.toNat := by
  obtain ⟨hsum, hflags, -⟩ := h
  obtain ⟨-, htable, -⟩ := hflags hne
  have hlta := a.isLt
  have hltb := b.isLt
  have hcin := cin.toNat_le
  rw [htable, Ne, msb_eq_msb_iff, msb_eq_msb_iff, hsum, toInt_eq a, toInt_eq b]
  split <;> split <;> omega

/-- The table of R159 says that the exact signed difference leaves the range. -/
theorem overflow_of_difference {rd : Reg} {m q pc : Dword} {bin : Bool} {s t : State}
    (h : DifferenceWritten rd m q bin pc s t) (hne : rd ≠ .flags) : t.flag .overflow = true ↔
      m.toInt - q.toInt - bin.toNat < -2 ^ 31 ∨ 2 ^ 31 ≤ m.toInt - q.toInt - bin.toNat := by
  obtain ⟨hdiff, hflags, -⟩ := h
  obtain ⟨-, htable, -⟩ := hflags hne
  have hltm := m.isLt
  have hltq := q.isLt
  have hbin := bin.toNat_le
  rw [htable, Ne, Ne, msb_eq_msb_iff, msb_eq_msb_iff, toInt_eq m, toInt_eq q]
  split <;> split <;> omega

/-- Settles O22: the overflow table of each instruction, read as integers. -/
theorem overflowIsSignedOverflow : Obligations.OverflowIsSignedOverflow := by
  intro s rd rs rn hne
  refine ⟨⟨_, rfl, ?add⟩, ⟨_, rfl, ?addc⟩, ⟨_, rfl, ?sub⟩, ⟨_, rfl, ?subb⟩, ⟨_, rfl, ?rsb⟩, ⟨_, rfl, ?rsbb⟩⟩
  case add => simpa using overflow_of_sum (retireAdd_spec s rd (s.reg rs) (s.opn rn) false rn) hne
  case addc => exact overflow_of_sum (retireAdd_spec s rd (s.reg rs) (s.opn rn) (s.flag .carry) rn) hne
  case sub => simpa using overflow_of_difference (retireSub_spec s rd (s.reg rs) (s.opn rn) false rn) hne
  case subb => exact overflow_of_difference (retireSub_spec s rd (s.reg rs) (s.opn rn) (s.flag .carry) rn) hne
  case rsb => simpa using overflow_of_difference (retireSub_spec s rd (s.opn rn) (s.reg rs) false rn) hne
  case rsbb => exact overflow_of_difference (retireSub_spec s rd (s.opn rn) (s.reg rs) (s.flag .carry) rn) hne

/-! ### Chains of two instructions -/

theorem append_eq_add_of_carry {alo ahi blo bhi rlo rhi : Dword} {c : Bool}
    (hlo : rlo.toNat = (alo.toNat + blo.toNat) % 2 ^ 32) (hc : c = true ↔ 2 ^ 32 ≤ alo.toNat + blo.toNat)
    (hhi : rhi.toNat = (ahi.toNat + bhi.toNat + c.toNat) % 2 ^ 32) :
    (rhi ++ rlo : BitVec 64) = (ahi ++ alo : BitVec 64) + (bhi ++ blo : BitVec 64) := by
  have hlta := alo.isLt
  have hltb := blo.isLt
  apply BitVec.eq_of_toNat_eq
  rw [BitVec.toNat_add, toNat_append_eq_add, toNat_append_eq_add, toNat_append_eq_add, hlo, hhi]
  cases c <;> simp at hc ⊢ <;> omega

theorem append_eq_sub_of_borrow {alo ahi blo bhi rlo rhi : Dword} {c : Bool}
    (hlo : (rlo.toNat : Int) = ((alo.toNat : Int) - blo.toNat) % 2 ^ 32) (hc : c = true ↔ alo.toNat < blo.toNat)
    (hhi : (rhi.toNat : Int) = ((ahi.toNat : Int) - bhi.toNat - c.toNat) % 2 ^ 32) :
    (rhi ++ rlo : BitVec 64) = (ahi ++ alo : BitVec 64) - (bhi ++ blo : BitVec 64) := by
  have hlta := alo.isLt
  have hltb := blo.isLt
  apply BitVec.eq_of_toNat_eq
  rw [BitVec.toNat_sub, toNat_append_eq_add, toNat_append_eq_add, toNat_append_eq_add]
  cases c <;> simp at hc hhi <;> omega

/-- Settles O23: the first instruction leaves the high operands and its CF to the second, which leaves the low result. -/
theorem carryChainsTo64Bits : Obligations.CarryChainsTo64Bits := by
  intro s rlo rhi alo ahi blo bhi hflags hdistinct ha hb haf hbf
  have hlow : rlo ∉ [rhi, .flags] := by simp [hdistinct, hflags]
  have hahi : ahi ∉ [rlo, .flags] := by simp [ha, haf]
  have hbhi : bhi ∉ [rlo, .flags] := by simp [hb, hbf]
  refine ⟨⟨_, _, rfl, rfl, ?add⟩, ⟨_, _, rfl, rfl, ?sub⟩⟩
  case add =>
    generalize ht : s.retireAdd rlo (s.reg alo) (s.opn (.reg blo)) false (.reg blo) = t
    obtain ⟨hlo, hcarry, hregs, -⟩ := ht ▸ retireAdd_spec s rlo (s.reg alo) (s.reg blo) false (.reg blo)
    obtain ⟨hhi, -, hregs', -⟩ := retireAdd_spec t rhi (t.reg ahi) (t.reg bhi) (t.flag .carry) (.reg bhi)
    exact append_eq_add_of_carry ((congrArg BitVec.toNat (hregs' rlo hlow)).trans hlo) (hcarry hflags).1
      (hhi.trans (by rw [hregs ahi hahi, hregs bhi hbhi]))
  case sub =>
    generalize ht : s.retireSub rlo (s.reg alo) (s.opn (.reg blo)) false (.reg blo) = t
    obtain ⟨hlo, hborrow, hregs, -⟩ := ht ▸ retireSub_spec s rlo (s.reg alo) (s.reg blo) false (.reg blo)
    obtain ⟨hhi, -, hregs', -⟩ := retireSub_spec t rhi (t.reg ahi) (t.reg bhi) (t.flag .carry) (.reg bhi)
    rw [Bool.toNat_false, Int.natCast_zero, Int.sub_zero] at hlo
    exact append_eq_sub_of_borrow ((congrArg (fun v : Dword => (v.toNat : Int)) (hregs' rlo hlow)).trans hlo)
      (hborrow hflags).1 (hhi.trans (by rw [hregs ahi hahi, hregs bhi hbhi]))

end Sys2Proof.Machine
end

section
/-! PROOFS. Shifts and rotates (42_alu.md R145 to R149). The shifts write CF and then the result; as numbers the result is
a product or a floor quotient by the power of two of the whole amount, also from 32 on, where nothing of the operand is
left. -/

namespace Sys2Proof.Machine

/-- Writes of `rd` and of `others` after one field of `%flags` was written: the field stands unless `rd` is `%flags`
(D17). -/
theorem flagWritten_of_setFlag {s t : State} {f : Flag} {b : Bool} {rd : Reg} {others : List Reg} {pc : Dword}
    (hothers : .flags ∉ others) (hregs : RegsExcept (rd :: others) (s.setFlag f b) t)
    (hframe : NoAccess pc (s.setFlag f b) t) : FlagWritten f b rd others pc s t := by
  obtain ⟨hflag, hbits, hrest, -⟩ := setFlag_spec s f b
  refine ⟨fun hne => ?_, fun r hr => ?_, hframe⟩
  · have hflags : t.reg .flags = (s.setFlag f b).reg .flags := hregs .flags (by simp [hne.symm, hothers])
    exact ⟨(congrArg (·.getLsbD f.bit) hflags).trans hflag,
      fun k hk => (congrArg (·.getLsbD k) hflags).trans (hbits k hk)⟩
  · obtain ⟨hrd, hflags, hr⟩ : r ≠ rd ∧ r ≠ .flags ∧ r ∉ others := by simpa using hr
    exact (hregs r (by simp [hrd, hr])).trans (hrest r (by simpa using hflags))

theorem retireShift_spec (s : State) (rd : Reg) (v : Dword) (c : Bool) (rn : Operand) :
    (s.retireShift rd v c rn).reg rd = v ∧ FlagWritten .carry c rd [] (s.npc rn) s (s.retireShift rd v c rn) := by
  obtain ⟨hrd, hregs, hframe⟩ := retire_spec (s.setFlag .carry c) rd v rn
  exact ⟨hrd, flagWritten_of_setFlag List.not_mem_nil hregs hframe⟩

/-! ### The shifts as arithmetic -/

theorem toNat_llsResult (a : Dword) (n : Nat) : (llsResult a n).toNat = a.toNat * 2 ^ n % 2 ^ 32 := by
  unfold llsResult
  split
  next => rw [BitVec.toNat_shiftLeft, Nat.shiftLeft_eq]
  next hbig =>
    have hdvd : 2 ^ 32 ∣ a.toNat * 2 ^ n := (Nat.pow_dvd_pow 2 (by omega)).mul_left _
    exact (Nat.mod_eq_zero_of_dvd hdvd).symm

theorem llsCarry_eq (a : Dword) (n : Nat) : llsCarry a n = (a.toNat * 2 ^ n).testBit 32 := by
  rw [Nat.testBit_mul_two_pow, llsCarry, ← BitVec.getLsbD]
  by_cases hn : n ≤ 32
  · by_cases h0 : n = 0
    · simp [h0]
    · simp [hn, Nat.one_le_iff_ne_zero.mpr h0]
  · simp [hn]

theorem toNat_lrsResult (a : Dword) (n : Nat) : (lrsResult a n).toNat = a.toNat / 2 ^ n := by
  unfold lrsResult
  split
  next => rw [BitVec.toNat_ushiftRight, Nat.shiftRight_eq_div_pow]
  next hbig => exact (Nat.div_eq_of_lt (a.isLt.trans_le (Nat.pow_le_pow_right (by decide) (by omega)))).symm

theorem lrsCarry_eq (a : Dword) (n : Nat) : lrsCarry a n = (decide (1 ≤ n) && a.getLsbD (n - 1)) := by
  unfold lrsCarry
  by_cases h1 : 1 ≤ n
  · by_cases hn : n ≤ 32
    · simp [h1, hn]
    · simp [hn, BitVec.getLsbD_of_ge a (n - 1) (by omega)]
  · simp [h1]

/-- From 32 places on, a floor quotient of a signed 32-bit number is 0 or -1, by its sign. -/
theorem toInt_div_two_pow_of_ge (a : Dword) {n : Nat} (hn : 31 < n) :
    a.toInt / 2 ^ n = if a.msb then -1 else 0 := by
  have hlow := BitVec.le_toInt a
  have hhigh := BitVec.toInt_lt (x := a)
  have hpow : (2 : Int) ^ 32 ≤ 2 ^ n := pow_le_pow_right₀ (by decide) hn
  rw [BitVec.msb_eq_toInt]
  by_cases hneg : a.toInt < 0
  · rw [if_pos (by simpa using hneg)]
    exact (Int.ediv_eq_iff_of_pos (by positivity)).mpr ⟨by omega, by omega⟩
  · rw [if_neg (by simpa using hneg)]
    exact Int.ediv_eq_zero_of_lt (by omega) (by omega)

theorem toInt_arsResult (a : Dword) (n : Nat) : (arsResult a n).toInt = a.toInt / 2 ^ n := by
  unfold arsResult
  by_cases hn : n ≤ 31
  · rw [if_pos hn, BitVec.toInt_sshiftRight, Int.shiftRight_eq_div_pow]
    norm_cast
  · rw [if_neg hn, toInt_div_two_pow_of_ge a (by omega), signBit_eq_msb]
    cases a.msb <;> decide

/-- Settles O24: each is `State.retireShift` of the result and the carry as arithmetic. -/
theorem shiftsAreIntegerShifts : Obligations.ShiftsAreIntegerShifts := by
  refine ⟨⟨?_, ?_, ?_⟩, fun s rd rs rn => ?shifts⟩
  case shifts =>
    have hshift := retireShift_spec s rd
    refine ⟨⟨_, rfl, ?lls, ?llsFlag⟩, ⟨_, rfl, ?lrs, ?lrsFlag⟩, ⟨_, rfl, ?ars, ?arsFlag⟩⟩
    case lls => exact (congrArg BitVec.toNat (hshift _ _ rn).1).trans (toNat_llsResult _ _)
    case llsFlag => rw [← llsCarry_eq]; exact (hshift _ _ rn).2
    case lrs => exact (congrArg BitVec.toNat (hshift _ _ rn).1).trans (toNat_lrsResult _ _)
    case lrsFlag => rw [← lrsCarry_eq]; exact (hshift _ _ rn).2
    case ars => exact (congrArg BitVec.toInt (hshift _ _ rn).1).trans (toInt_arsResult _ _)
    case arsFlag => exact (hshift _ _ rn).2
  all_goals exact opcodeP3_of_decodeP3 (by decide) fun _ _ _ => rfl

/-! ### Rotates -/

theorem getLsbD_rotateLeft_mod (a : Dword) (n i : Nat) (hi : i < 32) :
    (a.rotateLeft (n % 32)).getLsbD ((i + n) % 32) = a.getLsbD i := by
  rw [BitVec.getLsbD_rotateLeft]
  by_cases hwrap : (i + n) % 32 < n % 32
  · simp only [Nat.mod_mod, hwrap, decide_true, cond_true]
    congr 1; omega
  · simp only [Nat.mod_mod, hwrap, decide_false, cond_false, Nat.mod_lt, Nat.ofNat_pos, decide_true, Bool.true_and]
    congr 1; omega

theorem getLsbD_rotateRight_mod (a : Dword) (n i : Nat) (hi : i < 32) :
    (a.rotateRight (n % 32)).getLsbD i = a.getLsbD ((i + n) % 32) := by
  rw [BitVec.getLsbD_rotateRight]
  by_cases hwrap : i < 32 - n % 32
  · simp only [Nat.mod_mod, hwrap, decide_true, cond_true]
    congr 1; omega
  · simp only [Nat.mod_mod, hwrap, hi, decide_false, cond_false, decide_true, Bool.true_and]
    congr 1; omega

/-- Settles O25: both are `State.retire` of a rotate by the amount modulo 32. -/
theorem rotatesMoveEveryBit : Obligations.RotatesMoveEveryBit := by
  refine ⟨⟨?_, ?_⟩, fun s rd rs rn =>
    ⟨⟨_, _, rfl, retire_spec s rd _ rn, ?left⟩, ⟨_, _, rfl, retire_spec s rd _ rn, ?right⟩⟩⟩
  case left => exact getLsbD_rotateLeft_mod (s.reg rs) (s.opn rn).toNat
  case right => exact getLsbD_rotateRight_mod (s.reg rs) (s.opn rn).toNat
  all_goals exact opcodeP3_of_decodeP3 (by decide) fun _ _ _ => rfl

end Sys2Proof.Machine
end

section
/-! PROOFS. Products and divisions (42_alu.md R160 to R166): the two halves of a 64-bit product, and quotient and
remainder, go into Rd and then into `%y`, so that with Rd = `%y` the second of them stands (R165). -/

namespace Sys2Proof.Machine

/-! ### Products -/

theorem retireProduct_spec (s : State) (rd : Reg) (p : BitVec 64) (rn : Operand) :
    ((s.retireProduct rd p rn).reg rd = if rd = .y then p.extractLsb' 32 32 else p.extractLsb' 0 32) ∧
      (s.retireProduct rd p rn).reg .y = p.extractLsb' 32 32 ∧ RegsExcept [rd, .y] s (s.retireProduct rd p rn) ∧
      NoAccess (s.npc rn) s (s.retireProduct rd p rn) :=
  setReg_retire_spec s rd .y (p.extractLsb' 0 32) (p.extractLsb' 32 32) rn

theorem toNat_halves (p : BitVec 64) :
    (p.extractLsb' 32 32).toNat * 2 ^ 32 + (p.extractLsb' 0 32).toNat = p.toNat := by
  have hlt := p.isLt
  rw [BitVec.extractLsb'_toNat, BitVec.extractLsb'_toNat, Nat.shiftRight_eq_div_pow, Nat.shiftRight_zero]
  omega

theorem toInt_halves (p : BitVec 64) :
    (p.extractLsb' 32 32).toInt * 2 ^ 32 + (p.extractLsb' 0 32).toNat = p.toInt := by
  have hsum := toNat_halves p
  have hlow := (p.extractLsb' 0 32).isLt
  rw [BitVec.toInt_eq_toNat_cond p, toInt_eq]
  split <;> split <;> omega

theorem toNat_unsignedProduct (a b : Dword) : (unsignedProduct a b).toNat = a.toNat * b.toNat := by
  have hlt : a.toNat * b.toNat < 2 ^ 32 * 2 ^ 32 := Nat.mul_lt_mul'' a.isLt b.isLt
  rw [unsignedProduct, BitVec.toNat_ofNat]
  exact Nat.mod_eq_of_lt hlt

theorem toInt_signedProduct (a b : Dword) : (signedProduct a b).toInt = a.toInt * b.toInt := by
  have hlow := BitVec.le_toInt_mul_toInt (x := a) (y := b)
  have hhigh := BitVec.toInt_mul_toInt_le (x := a) (y := b)
  exact BitVec.toInt_ofInt_eq_self (by decide) (by omega) (by omega)

/-- Settles O26: both are `State.retireProduct` of the exact product, whose high half is its floor quotient by 2^32. -/
theorem productsAreExact : Obligations.ProductsAreExact := by
  refine ⟨⟨?_, ?_⟩, fun s rd rs rn => ⟨?mul, ?smul⟩⟩
  case mul =>
    have hhalves := toNat_halves (unsignedProduct (s.reg rs) (s.opn rn))
    obtain ⟨hrd, hy, hregs, hframe⟩ := retireProduct_spec s rd (unsignedProduct (s.reg rs) (s.opn rn)) rn
    rw [toNat_unsignedProduct] at hhalves
    refine ⟨_, rfl, hregs, hframe, fun hne => ?_, fun _ => ?_⟩
    · rw [hy, hrd, if_neg hne, hhalves]
    · rw [hy, ← hhalves]; omega
  case smul =>
    have hhalves := toInt_halves (signedProduct (s.reg rs) (s.opn rn))
    obtain ⟨hrd, hy, hregs, hframe⟩ := retireProduct_spec s rd (signedProduct (s.reg rs) (s.opn rn)) rn
    rw [toInt_signedProduct] at hhalves
    refine ⟨_, rfl, hregs, hframe, fun hne => ?_, fun _ => ?_⟩
    · rw [hy, hrd, if_neg hne, hhalves]
    · rw [hy, ← hhalves]; omega
  all_goals exact opcodeP3_of_decodeP3 (by decide) fun _ _ _ => rfl

/-! ### Divisions -/

theorem retireDivision_zero_spec (s : State) (rd : Reg) (q rem : Dword) (rn : Operand) :
    (s.retireDivision rd 0 q rem rn).flag .divError = true ∧
      FlagBitsExcept [.divError] s (s.retireDivision rd 0 q rem rn) ∧
      RegsExcept [.flags] s (s.retireDivision rd 0 q rem rn) ∧
      NoAccess (s.npc rn) s (s.retireDivision rd 0 q rem rn) := by
  have hzero : s.retireDivision rd 0 q rem rn = (s.setFlag .divError true).advance rn := if_pos rfl
  obtain ⟨hflag, hbits, hregs, hframe⟩ := setFlag_spec s .divError true
  obtain ⟨hmem, hbus, hsleep, hplatform, -⟩ := hframe
  rw [hzero]
  exact ⟨hflag, hbits, hregs, hmem, hbus, hsleep, hplatform, rfl⟩

theorem retireDivision_spec (s : State) (rd : Reg) {b : Dword} (hb : b ≠ 0) (q rem : Dword) (rn : Operand) :
    ((s.retireDivision rd b q rem rn).reg rd = if rd = .y then rem else q) ∧
      (s.retireDivision rd b q rem rn).reg .y = rem ∧
      FlagWritten .divError false rd [.y] (s.npc rn) s (s.retireDivision rd b q rem rn) := by
  have hdefined : s.retireDivision rd b q rem rn = ((s.setFlag .divError false).setReg rd q).retire .y rem rn := if_neg hb
  obtain ⟨hrd, hy, hregs, hframe⟩ := setReg_retire_spec (s.setFlag .divError false) rd .y q rem rn
  rw [hdefined]
  exact ⟨hrd, hy, flagWritten_of_setFlag (by decide) hregs hframe⟩

theorem toNat_unsignedQuotient (a b : Dword) : (unsignedQuotient a b).toNat = a.toNat / b.toNat := by
  rw [unsignedQuotient, BitVec.toNat_ofNat]
  exact Nat.mod_eq_of_lt ((Nat.div_le_self _ _).trans_lt a.isLt)

theorem toNat_unsignedRemainder (a b : Dword) : (unsignedRemainder a b).toNat = a.toNat % b.toNat := by
  rw [unsignedRemainder, BitVec.toNat_ofNat]
  exact Nat.mod_eq_of_lt ((Nat.mod_le _ _).trans_lt a.isLt)

/-- Settles O27: `State.retireDivision` of the quotient and the remainder of natural numbers. -/
theorem unsignedDivision : Obligations.UnsignedDivision := by
  refine ⟨opcodeP3_of_decodeP3 (by decide) fun _ _ _ => rfl,
    fun s rd rs rn => ⟨fun hzero => ?zero, fun hne => ?defined⟩⟩
  case zero =>
    refine ⟨_, rfl, ?_⟩
    rw [hzero]
    exact retireDivision_zero_spec s rd _ _ rn
  case defined =>
    obtain ⟨hrd, hy, hflag⟩ := retireDivision_spec s rd hne (unsignedQuotient (s.reg rs) (s.opn rn))
      (unsignedRemainder (s.reg rs) (s.opn rn)) rn
    refine ⟨_, rfl, fun hrdy => ?_, ?_, hflag⟩
    · rw [hrd, if_neg hrdy, hy, toNat_unsignedQuotient, toNat_unsignedRemainder, Nat.mul_comm, Nat.div_add_mod]
    · rw [hy, toNat_unsignedRemainder]

/-! ### Signed quotients and remainders -/

/-- The quotient rounded toward zero leaves the signed range in one case only (D13). -/
theorem tdiv_lt_of_not_wraps (a b : Dword) (hwrap : ¬(a.toInt = -2 ^ 31 ∧ b.toInt = -1)) :
    -2 ^ 31 ≤ a.toInt.tdiv b.toInt ∧ a.toInt.tdiv b.toInt < 2 ^ 31 := by
  have hlow := BitVec.le_toInt a
  have hhigh := BitVec.toInt_lt (x := a)
  have hle := Int.natAbs_tdiv_le_natAbs a.toInt b.toInt
  by_cases hunit : b.toInt.natAbs ≤ 1
  · obtain h0 | h1 | hm1 : b.toInt = 0 ∨ b.toInt = 1 ∨ b.toInt = -1 := by omega
    · rw [h0, Int.tdiv_zero]; omega
    · rw [h1, Int.tdiv_one]; omega
    · rw [hm1, Int.tdiv_neg, Int.tdiv_one]
      omega
  · have hhalf : (a.toInt.tdiv b.toInt).natAbs ≤ a.toInt.natAbs / 2 := by
      rw [Int.natAbs_tdiv]
      exact Nat.div_le_div_left (by omega) (by decide)
    omega

theorem toInt_signedQuotient {a b : Dword} (hwrap : ¬(a.toInt = -2 ^ 31 ∧ b.toInt = -1)) :
    (signedQuotient a b).toInt = a.toInt.tdiv b.toInt := by
  obtain ⟨hlow, hhigh⟩ := tdiv_lt_of_not_wraps a b hwrap
  exact BitVec.toInt_ofInt_eq_self (by decide) hlow hhigh

theorem natAbs_tmod_lt {b : Dword} (hb : b ≠ 0) (a : Dword) : (a.toInt.tmod b.toInt).natAbs < b.toInt.natAbs := by
  have hne : b.toInt ≠ 0 := fun h => hb (BitVec.eq_of_toInt_eq h)
  rw [Int.natAbs_tmod]
  exact Nat.mod_lt _ (by omega)

theorem toInt_signedRemainder {b : Dword} (hb : b ≠ 0) (a : Dword) :
    (signedRemainder a b).toInt = a.toInt.tmod b.toInt := by
  have hlt := natAbs_tmod_lt hb a
  have hlow := BitVec.le_toInt b
  have hhigh := BitVec.toInt_lt (x := b)
  rw [signedRemainder, Int.mul_comm, ← Int.tmod_def]
  exact BitVec.toInt_ofInt_eq_self (by decide) (by omega) (by omega)

theorem tmod_nonpos_of_nonpos {a : Int} (ha : a ≤ 0) (b : Int) : a.tmod b ≤ 0 := by
  have hneg := Int.tmod_nonneg b (Int.neg_nonneg_of_nonpos ha)
  rw [Int.neg_tmod] at hneg
  omega

/-- Settles O28: `State.retireDivision` of the truncated quotient and its remainder. -/
theorem signedDivision : Obligations.SignedDivision := by
  refine ⟨opcodeP3_of_decodeP3 (by decide) fun _ _ _ => rfl,
    fun s rd rs rn => ⟨fun hzero => ?zero, fun hne => ?defined⟩⟩
  case zero =>
    refine ⟨_, rfl, ?_⟩
    rw [hzero]
    exact retireDivision_zero_spec s rd _ _ rn
  case defined =>
    obtain ⟨hrd, hy, hflag⟩ := retireDivision_spec s rd hne (signedQuotient (s.reg rs) (s.opn rn))
      (signedRemainder (s.reg rs) (s.opn rn)) rn
    refine ⟨_, rfl, fun hrdy hwrap => ?_, fun hrdy ha hb => ?_, ?_, fun ha => ?_, fun ha => ?_, fun _ => ?_, hflag⟩
    · rw [hrd, if_neg hrdy, hy, toInt_signedQuotient hwrap, toInt_signedRemainder hne, Int.tdiv_mul_add_tmod]
    · rw [hrd, if_neg hrdy, hy, toInt_signedRemainder hne, signedQuotient, ha, hb]
      decide
    · rw [hy, toInt_signedRemainder hne]
      exact natAbs_tmod_lt hne _
    · rw [hy, toInt_signedRemainder hne]
      exact Int.tmod_nonneg _ ha
    · rw [hy, toInt_signedRemainder hne]
      exact tmod_nonpos_of_nonpos ha _
    · rw [hy, toInt_signedRemainder hne, Int.tmod_def, Int.mul_comm]

end Sys2Proof.Machine
end

section
/-! PROOFS. Relative jumps, calls, RET, PUSH and POP (44_jump_call.md, 45_stack.md): each is one push or one pop and a write
of `pc`. `Pushed` and `pop_spec` say what the stack operations do, so that RET after a call is reading back what was
pushed. -/

namespace Sys2Proof.Machine

/-- Settles O32: GETPC is one register write, RJMP one write of `pc`. -/
theorem getpcAndRjmpUseNextAddress : Obligations.GetpcAndRjmpUseNextAddress := by
  refine ⟨⟨?getpc, fun s rn => ⟨_, rfl, setReg_advance4_spec s rn (s.pc + 4)⟩⟩,
    ?rjmp, fun s rn => ⟨_, rfl, setPc_spec s (alignTarget (s.npc rn + s.opn rn))⟩⟩
  case getpc => exact opcodeP1Reg_of_decodeP1 (by decide) (by decide) (by decide) fun _ => rfl
  case rjmp => exact opcodeP1_of_decodeP1 (by decide) (by decide) (by decide) fun _ => rfl

/-- R192 as arithmetic: clearing the two low bits rounds down to a multiple of 4. -/
theorem toNat_alignTarget (t : Dword) : (alignTarget t).toNat = t.toNat / 4 * 4 := by
  have hmask : (0xFFFFFFFC : Dword) = BitVec.allOnes 32 <<< 2 := by decide
  rw [alignTarget, hmask, ← BitVec.shiftLeft_ushiftRight, BitVec.toNat_shiftLeft, BitVec.toNat_ushiftRight,
    Nat.shiftRight_eq_div_pow, Nat.shiftLeft_eq]
  have hlt := t.isLt
  omega

/-- Settles O33: five write `alignTarget` of their target into `pc`, RET what it pops. -/
theorem jumpTargetsAreAligned : Obligations.JumpTargetsAreAligned := by
  intro s rd rn
  exact ⟨⟨_, rfl, toNat_alignTarget _⟩, ⟨_, rfl, toNat_alignTarget _⟩, ⟨_, rfl, toNat_alignTarget _⟩,
    ⟨_, rfl, toNat_alignTarget _⟩, ⟨_, rfl, toNat_alignTarget _⟩, ⟨_, rfl, toNat_alignTarget _⟩, ⟨_, rfl, rfl⟩⟩

/-! ### Calls and PUSH -/

/-- A write of `pc` after a push. -/
theorem pushed_setPc {s t : State} {v pc : Dword} (h : Pushed v pc s t) (target : Dword) :
    Pushed v target s (t.setPc target) := by
  obtain ⟨hsp, hregs, hholds, houtside, hbus, hsleep, hplatform, -⟩ := h
  exact ⟨hsp, hregs, hholds, houtside, hbus, hsleep, hplatform, rfl⟩

theorem call_spec (s : State) (target : Dword) (rn : Operand) : Pushed (s.npc rn) target s (s.call target rn) :=
  pushed_setPc (push_spec s (s.npc rn)) target

/-- Settles O34: the three are `State.call` with the target of their form. -/
theorem callsPushReturnAddress : Obligations.CallsPushReturnAddress := by
  refine ⟨⟨?callP2, ?callP1, ?rcall⟩, fun s rd rn =>
    ⟨⟨_, rfl, call_spec s _ rn⟩, ⟨_, rfl, call_spec s _ rn⟩, ⟨_, rfl, call_spec s _ rn⟩⟩⟩
  case callP2 => exact opcodeP2_of_decodeP2 (by decide) (by decide) fun _ _ => rfl
  case callP1 | rcall => exact opcodeP1_of_decodeP1 (by decide) (by decide) (by decide) fun _ => rfl

/-- Settles O37: a push of the register's value, then `pc <- pc + 4`. -/
theorem pushStoresRegister : Obligations.PushStoresRegister := by
  refine ⟨opcodeP1Reg_of_decodeP1 (by decide) (by decide) (by decide) fun _ => rfl, fun s rn => ⟨_, rfl, ?_⟩⟩
  have hpc : (s.push (s.reg rn)).pc + 4 = s.pc + 4 := by rw [push_pc]
  exact hpc ▸ pushed_setPc (push_spec s (s.reg rn)) _

/-! ### RET and POP -/

/-- Settles O35: `pop_spec`, with the popped dword in `pc`. -/
theorem retPopsPc : Obligations.RetPopsPc := by
  intro s
  obtain ⟨hsp, hregs, hmem, hbus, hsleep, hplatform, -⟩ := pop_spec s
  exact ⟨_, rfl, rfl, hsp, hregs, hmem, hbus, hsleep, hplatform⟩

/-- Settles O38: `pop_spec`, then the write of the register, which wins where it is `%sp`. -/
theorem popLoadsRegister : Obligations.PopLoadsRegister := by
  refine ⟨opcodeP1Reg_of_decodeP1 (by decide) (by decide) (by decide) fun _ => rfl, fun s rn => ?_⟩
  obtain ⟨hsp, hregs, hmem, hbus, hsleep, hplatform, hpc⟩ := pop_spec s
  refine ⟨_, rfl, ?value, fun hne => ?pointer, fun r hr => ?others, hmem, hbus, hsleep, hplatform, ?next⟩
  case value => rw [State.advance4, reg_setPc, reg_setReg, if_pos rfl, State.popped]
  case pointer => rw [State.advance4, reg_setPc, reg_setReg, if_neg hne.symm, hsp]
  case others =>
    obtain ⟨hrn, hrsp⟩ : r ≠ rn ∧ r ≠ .sp := by simpa using hr
    rw [State.advance4, reg_setPc, reg_setReg, if_neg hrn, hregs r (by simpa using hrsp)]
  case next => rw [State.advance4, setPc_pc, setReg_pc, hpc]

/-! ### RET after a call -/

/-- A pop right after a push into RAM gives the pushed value and every register back. -/
theorem popped_of_pushed {s t : State} {v pc : Dword} (hram : RamAt s (s.reg .sp - 4) 4) (h : Pushed v pc s t) :
    t.popped = v ∧ RegsExcept [] s t.pop := by
  obtain ⟨hsp, hregs, hholds, -, -, -, ⟨hmap, -⟩, -⟩ := h
  obtain ⟨hspPop, hregsPop, -⟩ := pop_spec t
  refine ⟨?value, fun r _ => ?registers⟩
  case value =>
    rw [State.popped, hsp]
    exact readDword_of_holds hholds (fun b hb => (kindAt_congr hmap b).trans (hram b hb)) .stack
  case registers =>
    by_cases hr : r = .sp
    · rw [hr, hspPop, hsp, BitVec.sub_add_cancel]
    · rw [hregsPop r (by simpa using hr), hregs r (by simpa using hr)]

/-- Settles O36: what the call pushed is what RET pops. -/
theorem retAfterCallResumes : Obligations.RetAfterCallResumes := by
  intro s rd rn hram
  have resume (target : Dword) := popped_of_pushed hram (call_spec s target rn)
  exact ⟨⟨_, _, rfl, rfl, resume _⟩, ⟨_, _, rfl, rfl, resume _⟩, ⟨_, _, rfl, rfl, resume _⟩⟩

end Sys2Proof.Machine
end

section
/-! PROOFS. SLEEP, INT, RFI and the interrupt entry (46_special_interrupt.md, 60_exceptions.md R221 to R235). The one entry
sequence is read off `enterHandler_spec` for every source; RFI reads back the two dwords the entry pushed. -/

namespace Sys2Proof.Machine

/-- Settles O39: a write of `pc`, and `sleeping` beside it. -/
theorem sleepSetsSleeping : Obligations.SleepSetsSleeping := by
  intro s
  obtain ⟨hregs, hmem, hbus, -, hplatform, hpc⟩ := setPc_spec s (s.pc + 4)
  exact ⟨_, rfl, rfl, hpc, hregs, hmem, hbus, hplatform⟩

/-! ### The entry -/

theorem entered_bus (s : State) (source : Source) (msg vec : Dword) :
    ((s.readVector source msg).enterHandler msg vec).bus =
      s.bus ++ (if source = .hardware then [.message msg] else []) ++ entryAccesses source msg s.pc s := by
  rw [enterHandler_bus]
  cases source <;> simp [State.readVector, entryAccesses, State.vectorAddress]

theorem PlatformSame.trans {s t u : State} (hst : PlatformSame s t) (htu : PlatformSame t u) : PlatformSame s u := by
  obtain ⟨hmap, hmasters, henv, htick⟩ := hst
  obtain ⟨hmap', hmasters', henv', htick'⟩ := htu
  exact ⟨hmap'.trans hmap, hmasters'.trans hmasters, henv'.trans henv, htick'.trans htick⟩

/-- An interrupt that is accepted and has a handler: everything the entry does. -/
theorem takeInterrupt_entered_spec {s : State} {source : Source} {msg : Dword} (h : s.Accepts)
    (hv : s.handler source msg ≠ 0) :
    HandlerEntered msg (s.handler source msg) s.pc s (s.takeInterrupt source msg) ∧
      PlatformSame s (s.takeInterrupt source msg) ∧
      (s.takeInterrupt source msg).bus =
        s.bus ++ (if source = .hardware then [.message msg] else []) ++ entryAccesses source msg s.pc s := by
  rw [takeInterrupt_entered s source msg h hv]
  have hentered := enterHandler_spec (s.readVector source msg) msg (s.handler source msg)
  rw [readVector_pc] at hentered
  exact ⟨HandlerEntered_of_readVector hentered,
    (readVector_platform s source msg).trans (enterHandler_platform _ msg _), entered_bus s source msg _⟩

/-- An interrupt that is accepted and has no handler: the bus record is all that changes (R228). -/
theorem takeInterrupt_aborted_spec {s : State} {source : Source} {msg : Dword} (h : s.Accepts)
    (hv : s.handler source msg = 0) : ∃ bus, s.takeInterrupt source msg = { s with bus := bus } ∧
      bus = s.bus ++ (if source = .hardware then [.message msg] else []) ++
        [.read (.vector source) (s.vectorAddress msg) 4] ++ (if source = .hardware then [.handshakeAborted] else []) := by
  refine ⟨_, ?_, abortedEntry_bus s source msg⟩
  rw [takeInterrupt_aborted s source msg h hv]
  cases source <;> rfl

/-- Settles O43: the entered, the aborted and the unaccepted interrupt. -/
theorem takeInterruptEntersHandler : Obligations.TakeInterruptEntersHandler := by
  intro s source msg
  refine ⟨fun haccepts hvec => ?entered, fun haccepts hzero => ?aborted, takeInterrupt_unaccepted s source msg⟩
  case entered =>
    obtain ⟨hentered, hplatform, hbus⟩ := takeInterrupt_entered_spec haccepts hvec
    have ⟨_, _, _, hinterrupt, _⟩ := hentered
    exact ⟨hentered, hinterrupt, hplatform, hbus⟩
  case aborted =>
    obtain ⟨bus, haborted, hbus⟩ := takeInterrupt_aborted_spec haccepts hzero
    rw [haborted]
    exact ⟨fun _ _ => rfl, memorySame_of_eq rfl rfl rfl, rfl, rfl, ⟨rfl, rfl, rfl, rfl⟩, hbus⟩

/-- An entry after a write of `pc` is an entry from the state before it, but for the return address. -/
theorem HandlerEntered_of_setPc {s t : State} {pc msg vec ret : Dword} (h : HandlerEntered msg vec ret (s.setPc pc) t) :
    HandlerEntered msg vec ret s t := h

/-- Settles O40: `takeInterrupt_entered_spec` after `pc <- npc`, which the pushed return address is. -/
theorem intEntersHandler : Obligations.IntEntersHandler := by
  refine ⟨opcodeP1_of_decodeP1 (by decide) (by decide) (by decide) fun _ => rfl, fun s rn haccepts hvec => ?_⟩
  obtain ⟨hentered, hplatform, hbus⟩ := takeInterrupt_entered_spec (s := s.advance rn) (source := .software)
    ((accepts_advance s rn).mpr haccepts) (by rw [handler_advance]; exact hvec)
  rw [handler_advance] at hentered
  rw [if_neg (by decide), List.append_nil] at hbus
  exact ⟨_, rfl, HandlerEntered_of_setPc hentered, hplatform, hbus⟩

/-! ### The return -/

/-- Settles O42: `returnFromInterrupt_spec`, and the two pops on the bus. -/
theorem rfiPopsPcAndR0 : Obligations.RfiPopsPcAndR0 := by
  intro s
  obtain ⟨hpc, hr0, hsp, hinterrupt, hbits, hregs, hmem⟩ := returnFromInterrupt_spec s
  refine ⟨_, rfl, hpc, hr0, ?_, hinterrupt, hinterrupt, hbits, hregs, memorySame_of_eq hmem rfl rfl, ?_, rfl,
    ⟨rfl, rfl, rfl, rfl⟩⟩
  · rw [hsp]; bv_omega
  · simp [State.returnFromInterrupt, State.pop]

theorem reg_flags_of_bits {s t : State} {f : Flag} (hbits : FlagBitsExcept [f] s t) (hflag : t.flag f = s.flag f) :
    t.reg .flags = s.reg .flags := by
  apply BitVec.eq_of_getLsbD_eq
  intro k _
  by_cases hk : k = f.bit
  · exact hk ▸ hflag
  · exact hbits k (by simpa using hk)

/-- Settles O44: the two pops read what the entry pushed, and the bit of `%flags` that the entry set is cleared. -/
theorem rfiUndoesInterruptEntry : Obligations.RfiUndoesInterruptEntry := by
  intro s source msg haccepts hvec hram
  obtain ⟨hentered, hplatform, -⟩ := takeInterrupt_entered_spec haccepts hvec
  generalize s.takeInterrupt source msg = t at hentered hplatform
  obtain ⟨hsp, -, -, -, hsleep, hbits, hregs, hholdsR0, hholdsPc, houtside⟩ := hentered
  obtain ⟨hpc, hr0, hspRfi, hinterrupt, hbitsRfi, hregsRfi, hmem⟩ := returnFromInterrupt_spec t
  have hkind (b : Dword) : t.kindAt b = s.kindAt b := kindAt_congr hplatform.1 b
  have hreadPc : t.readDword .stack (s.reg .sp - 8) = s.pc :=
    readDword_of_holds hholdsPc (fun b hb => (hkind b).trans (hram b (by omega))) .stack
  have hreadR0 : t.readDword .stack (s.reg .sp - 4) = s.reg .r0 :=
    readDword_of_holds hholdsR0 (fun b hb => (hkind b).trans (hram b (by bv_omega))) .stack
  have hflags : t.returnFromInterrupt.reg .flags = s.reg .flags :=
    reg_flags_of_bits (fun k hk => (hbitsRfi k hk).trans (hbits k hk)) (hinterrupt.trans haccepts.2.symm)
  refine ⟨_, rfl, fun r _ => ?registers, ?pc, hsleep, fun why b hb => ?memory, hplatform⟩
  case registers =>
    by_cases h0 : r = .r0
    · rw [h0, hr0, hsp, show s.reg .sp - 8 + 4 = s.reg .sp - 4 by bv_omega, hreadR0]
    by_cases hs : r = .sp
    · rw [hs, hspRfi, hsp]; bv_omega
    by_cases hf : r = .flags
    · rw [hf, hflags]
    · rw [hregsRfi r (by simp [h0, hs, hf]), hregs r (by simp [h0, hs, hf])]
  case pc => rw [hpc, hsp, hreadPc]
  case memory => exact (readByte_congr hmem rfl rfl why b).trans (houtside why b hb)

end Sys2Proof.Machine
end

section
/-! PROOFS. The tests and the skip (43_skip.md R170 to R179). A skip that ends visits no address twice, and its addresses agree
in their two low bits, so it visits at most 2^30: the bound of the model never cuts one short. -/

namespace Sys2Proof.Machine

/-! ### What a test answers -/

/-- `State.executeIf` decides any condition that its Boolean stands for. -/
theorem testDecides_executeIf (s : State) (rn : Operand) {holds : Bool} {condition : Prop}
    (h : holds = true ↔ condition) : TestDecides condition rn (s.executeIf holds rn) s := by
  rcases executeIf_cases s holds rn with ⟨hb, hnext⟩ | ⟨hb, visited, target, hends, hnext⟩ | ⟨hb, hnever, hfault⟩
  · have hcondition : condition := h.mp hb
    exact ⟨fun _ => ⟨_, hnext, setPc_spec s (s.npc rn)⟩, fun hn => absurd hcondition hn,
      fun hn => absurd hcondition hn⟩
  · have hcondition : ¬condition := fun hc => Bool.false_ne_true (hb.symm.trans (h.mpr hc))
    refine ⟨fun hc => absurd hc hcondition, fun _ visited' target' hends' => ?_,
      fun _ hnever => absurd hends (hnever _ _)⟩
    cases hends.symm.trans hends'
    exact ⟨_, hnext, fun _ _ => rfl, memorySame_of_eq rfl rfl rfl, rfl, rfl, ⟨rfl, rfl, rfl, rfl⟩, rfl⟩
  · have hcondition : ¬condition := fun hc => Bool.false_ne_true (hb.symm.trans (h.mpr hc))
    exact ⟨fun hc => absurd hc hcondition, fun _ visited target hends => absurd hends (hnever _ _), fun _ _ => hfault⟩

theorem and_eq_zero_iff (a b : Dword) : a &&& b = 0 ↔ ∀ k, ¬(a.getLsbD k = true ∧ b.getLsbD k = true) := by
  refine ⟨fun h k hk => ?_, fun h => BitVec.eq_of_getLsbD_eq fun k _ => ?_⟩
  · have hbit := congrArg (·.getLsbD k) h
    simp [hk.1, hk.2] at hbit
  · simpa using h k

/-- Settles O29: each test is `State.executeIf` of the comparison its rule gives. -/
theorem testsDecideTheSkip : Obligations.TestsDecideTheSkip := by
  refine ⟨⟨?_, ?_, ?_, ?_, ?_, ?_, ?_, ?_⟩,
    fun s rd rn => ⟨?ifeq, ?ifneq, ?ifl, ?ifsl, ?ifle, ?ifsle, ?ifbits, ?ifclear⟩⟩
  case ifeq => exact testDecides_executeIf s rn beq_iff_eq
  case ifneq => exact testDecides_executeIf s rn bne_iff_ne
  case ifl | ifsl | ifle | ifsle => exact testDecides_executeIf s rn decide_eq_true_iff
  case ifbits =>
    refine testDecides_executeIf s rn (bne_iff_ne.trans ?_)
    rw [Ne, and_eq_zero_iff]
    simp
  case ifclear => exact testDecides_executeIf s rn (beq_iff_eq.trans (and_eq_zero_iff _ _))
  all_goals exact opcodeP2_of_decodeP2 (by decide) (by decide) fun _ _ => rfl

/-- A test completes, or it fails and its skip never ends. -/
theorem executeIf_completes {i : Instr} {s : State} {rn : Operand} {holds : Bool}
    (hexec : exec i s = s.executeIf holds rn) (hfails : holds = false → FailedTest i rn s) : (∃ t, exec i s = .next t) ∨
      ∃ rn, FailedTest i rn s ∧ SkipNeverEnds s (s.npc rn) ∧ exec i s = .fault (.skipNeverEnds s.pc) := by
  rcases executeIf_cases s holds rn with ⟨-, hnext⟩ | ⟨-, _, _, -, hnext⟩ | ⟨hb, hnever, hfault⟩
  · exact .inl ⟨_, hexec.trans hnext⟩
  · exact .inl ⟨_, hexec.trans hnext⟩
  · exact .inr ⟨rn, hfails hb, hnever, hexec.trans hfault⟩

/-- Settles O59: `exec` of an instruction that is no test is a next state by its definition. -/
theorem everyInstructionCompletes : Obligations.EveryInstructionCompletes := by
  intro i s
  cases i
  case ifeq | ifneq | ifl | ifsl | ifle | ifsle | ifbits | ifclear =>
    exact executeIf_completes rfl fun h => by simpa [FailedTest] using h
  all_goals exact .inl ⟨_, rfl⟩

/-! ### The chain of a skip -/

theorem skipFrom_conditional {s : State} {a : Dword} (h : isConditional (s.skippedWord a) = true) (fuel : Nat) :
    s.skipFrom (fuel + 1) a = (s.skipFrom fuel (s.skipOne a)).map fun p => (a :: p.1, p.2) := by
  rw [skipFrom_succ, if_pos h]

theorem skipFrom_plain {s : State} {a : Dword} (h : isConditional (s.skippedWord a) = false) (fuel : Nat) :
    s.skipFrom (fuel + 1) a = some ([a], s.skipOne a) := by
  rw [skipFrom_succ, h, if_neg Bool.false_ne_true]

/-- Two skips from one address that both end do the same, whatever their bounds. -/
theorem skipFrom_unique {s : State} {m n : Nat} {a : Dword} {p q : List Dword × Dword} (hp : s.skipFrom m a = some p)
    (hq : s.skipFrom n a = some q) : p = q := by
  have hp' := skipFrom_more s m n a p hp
  rw [Nat.add_comm] at hp'
  exact Option.some.inj (hp'.symm.trans (skipFrom_more s n m a q hq))

/-- What a skip that ends looks at: the dword at its address, and after a conditional one what the skip from the next
instruction looks at. -/
theorem skipFrom_succ_eq_some {s : State} {fuel : Nat} {a target : Dword} {visited : List Dword}
    (h : s.skipFrom (fuel + 1) a = some (visited, target)) :
    (isConditional (s.skippedWord a) = false ∧ visited = [a] ∧ target = s.skipOne a) ∨
      (isConditional (s.skippedWord a) = true ∧ ∃ rest, visited = a :: rest ∧
        s.skipFrom fuel (s.skipOne a) = some (rest, target)) := by
  cases hc : isConditional (s.skippedWord a) with
  | false =>
    rw [skipFrom_plain hc] at h
    cases h
    exact .inl ⟨rfl, rfl, rfl⟩
  | true =>
    rw [skipFrom_conditional hc, Option.map_eq_some_iff] at h
    obtain ⟨⟨rest, last⟩, hrest, hpair⟩ := h
    cases hpair
    exact .inr ⟨rfl, rest, rfl, hrest⟩

/-- From every address it visits, a skip that ends goes on to an end, over no more addresses than it has itself. -/
theorem skipFrom_of_mem_visited {s : State} (fuel : Nat) : ∀ {a target x : Dword} {visited : List Dword},
    s.skipFrom fuel a = some (visited, target) → x ∈ visited →
      ∃ fuel' rest, s.skipFrom fuel' x = some (rest, target) ∧ rest.length ≤ visited.length := by
  induction fuel with
  | zero => intro a target x visited h; cases h
  | succ fuel ih =>
    intro a target x visited h hx
    obtain ⟨-, rfl, -⟩ | ⟨-, rest, rfl, hrest⟩ := skipFrom_succ_eq_some h
    · cases List.mem_singleton.mp hx
      exact ⟨_, _, h, le_rfl⟩
    · rcases List.mem_cons.mp hx with rfl | hx
      · exact ⟨_, _, h, le_rfl⟩
      · obtain ⟨fuel'', rest', hskip, hlength⟩ := ih hrest hx
        exact ⟨fuel'', rest', hskip, hlength.trans (Nat.le_succ _)⟩

/-- A skip that ends visits no address twice: from the second visit it would have to end sooner than from the first. -/
theorem nodup_visited {s : State} (fuel : Nat) : ∀ {a target : Dword} {visited : List Dword},
    s.skipFrom fuel a = some (visited, target) → visited.Nodup := by
  induction fuel with
  | zero => intro a target visited h; cases h
  | succ fuel ih =>
    intro a target visited h
    obtain ⟨-, rfl, -⟩ | ⟨-, rest, rfl, hrest⟩ := skipFrom_succ_eq_some h
    · exact List.nodup_singleton a
    · refine List.nodup_cons.mpr ⟨fun hmem => ?_, ih hrest⟩
      obtain ⟨fuel'', rest', hskip, hlength⟩ := skipFrom_of_mem_visited fuel hrest hmem
      cases skipFrom_unique hskip h
      exact absurd hlength (Nat.not_succ_le_self _)

theorem toNat_skipOne_mod (s : State) (a : Dword) : (s.skipOne a).toNat % 4 = a.toNat % 4 := by
  unfold State.skipOne
  split <;> bv_omega

theorem visited_mod {s : State} (fuel : Nat) : ∀ {a target : Dword} {visited : List Dword},
    s.skipFrom fuel a = some (visited, target) → ∀ x ∈ visited, x.toNat % 4 = a.toNat % 4 := by
  induction fuel with
  | zero => intro a target visited h; cases h
  | succ fuel ih =>
    intro a target visited h x hx
    obtain ⟨-, rfl, -⟩ | ⟨-, rest, rfl, hrest⟩ := skipFrom_succ_eq_some h
    · rw [List.mem_singleton.mp hx]
    · rcases List.mem_cons.mp hx with rfl | hx
      · rfl
      · exact (ih hrest x hx).trans (toNat_skipOne_mod s a)

/-- Of the addresses with the same two low bits there are 2^30. -/
theorem length_le_of_nodup_mod {l : List Dword} {r : Nat} (hnodup : l.Nodup) (hmod : ∀ x ∈ l, x.toNat % 4 = r) :
    l.length ≤ 2 ^ 30 := by
  have hquotients : (l.map fun x => x.toNat / 4).Nodup := by
    refine hnodup.map_on fun x hx y hy hxy => BitVec.eq_of_toNat_eq ?_
    have hx' := hmod x hx
    have hy' := hmod y hy
    omega
  have hrange : (l.map fun x => x.toNat / 4) ⊆ List.range (2 ^ 30) := by
    intro k hk
    obtain ⟨x, -, rfl⟩ := List.mem_map.mp hk
    have hlt := x.isLt
    exact List.mem_range.mpr (by omega)
  have hle := (List.subperm_of_subset hquotients hrange).length_le
  rwa [List.length_map, List.length_range] at hle

/-- A skip that ends within some bound ends within as many rounds as it visits addresses. -/
theorem skipFrom_length {s : State} (fuel : Nat) : ∀ {a target : Dword} {visited : List Dword},
    s.skipFrom fuel a = some (visited, target) → s.skipFrom visited.length a = some (visited, target) := by
  induction fuel with
  | zero => intro a target visited h; cases h
  | succ fuel ih =>
    intro a target visited h
    obtain ⟨hc, rfl, rfl⟩ | ⟨hc, rest, rfl, hrest⟩ := skipFrom_succ_eq_some h
    · exact skipFrom_plain hc 0
    · rw [List.length_cons, skipFrom_conditional hc, ih hrest]
      rfl

/-- The bound of the model is no bound: a skip that ends at all ends within it. -/
theorem skipEnds_of_skipFrom {s : State} {fuel : Nat} {a target : Dword} {visited : List Dword}
    (h : s.skipFrom fuel a = some (visited, target)) : SkipEnds s a visited target := by
  have hlength : visited.length ≤ skipFuel := length_le_of_nodup_mod (nodup_visited fuel h) (visited_mod fuel h)
  have hmore := skipFrom_more s visited.length (skipFuel - visited.length) a _ (skipFrom_length fuel h)
  rwa [Nat.add_sub_cancel' hlength] at hmore

theorem isConditional_iff (w : Dword) : isConditional w = true ↔
    0x4B ≤ (w.extractLsb' 24 8).toNat ∧ (w.extractLsb' 24 8).toNat ≤ 0x52 :=
  Bool.and_eq_true_iff.trans (and_congr decide_eq_true_iff decide_eq_true_iff)

/-- Settles O30: one round of the loop more or less, and `skipEnds_of_skipFrom` for the bound. -/
theorem skipIsTheUnboundedLoop : Obligations.SkipIsTheUnboundedLoop := by
  intro s a
  have hfuel : skipFuel = (skipFuel - 1) + 1 := rfl
  refine ⟨fun hplain => ?plain,
    fun hconditional => ⟨fun visited target hends => ?further, fun visited target hends => ?back⟩⟩
  case plain =>
    have hc : isConditional (s.skippedWord a) = false := Bool.eq_false_iff.mpr (mt (isConditional_iff _).mp hplain)
    exact skipEnds_of_skipFrom (skipFrom_plain hc 0)
  case further =>
    have hc : isConditional (s.skippedWord a) = true := (isConditional_iff _).mpr hconditional
    refine skipEnds_of_skipFrom (fuel := skipFuel + 1) ?_
    rw [skipFrom_conditional hc]
    exact congrArg (Option.map fun p : List Dword × Dword => (a :: p.1, p.2)) hends
  case back =>
    rw [SkipEnds, hfuel] at hends
    obtain ⟨hc, -⟩ | ⟨-, rest, hvisited, hrest⟩ := skipFrom_succ_eq_some hends
    · exact absurd ((isConditional_iff _).mpr hconditional) (Bool.eq_false_iff.mp hc)
    · exact ⟨rest, hvisited, skipEnds_of_skipFrom hrest⟩

end Sys2Proof.Machine
end

section
/-! PROOFS. The step (60_exceptions.md R245): one equation for each thing a quiet boundary can do, and what an offered
interrupt, the single-step trap and the three stops make of it. -/

namespace Sys2Proof.Machine

/-! ### The start and the end of a step leave what the instruction sees -/

theorem trapArmed_beginStep (s : State) : s.beginStep.trapArmed = (s.flag .singleStep && !s.flag .interrupt) := rfl

theorem accepts_beginStep (s : State) : s.beginStep.Accepts ↔ s.Accepts := Iff.rfl

theorem finishStep_next (t : State) : finishStep (.next t) = .next t.endStep := rfl

theorem finishStep_fault (r : Fault) : finishStep (.fault r) = .fault r := rfl

/-! ### A boundary -/

theorem executeNext_asleep {s : State} (h : s.sleeping = true) : s.executeNext = .next s := if_pos h

theorem executeNext_misaligned {s : State} (hs : s.sleeping = false) (ha : s.pc.extractLsb' 0 2 ≠ 0) :
    s.executeNext = .fault (.misalignedFetch s.pc) := by
  rw [State.executeNext, hs, if_neg Bool.false_ne_true, if_pos ha]

theorem executeNext_unrecognised {s : State} (hs : s.sleeping = false) (ha : s.pc.extractLsb' 0 2 = 0) {e : DecodeError}
    (hd : decodeDwords s.fetchedWord s.fetchedLiteral = .error e) :
    s.executeNext = .fault (.unrecognisedInstruction s.pc s.fetchedWord) := by
  rw [State.executeNext, hs, if_neg Bool.false_ne_true, if_neg (not_not.mpr ha), hd]

section
variable {s : State} {i : Instr} (hs : s.sleeping = false) (ha : s.pc.extractLsb' 0 2 = 0)
  (hd : decodeDwords s.fetchedWord s.fetchedLiteral = .ok i)
include hs ha hd

theorem executeNext_completed {t : State} (he : exec i s.logFetch = .next t) :
    s.executeNext = .next (t.afterInstruction s.trapArmed) := by
  rw [State.executeNext, hs, if_neg Bool.false_ne_true, if_neg (not_not.mpr ha), hd]
  simp only [he]

theorem executeNext_stopped {r : Fault} (he : exec i s.logFetch = .fault r) : s.executeNext = .fault r := by
  rw [State.executeNext, hs, if_neg Bool.false_ne_true, if_neg (not_not.mpr ha), hd]
  simp only [he]

end

theorem boundary_accepted {s : State} (h : s.Accepts) (msg : Dword) :
    s.boundary (some msg) = .next (s.takeInterrupt .hardware msg) := if_pos ((acceptsInterrupt_iff s).mpr h)

theorem boundary_unaccepted {s : State} (h : ¬s.Accepts) (msg : Dword) : s.boundary (some msg) = s.executeNext :=
  if_neg (mt (acceptsInterrupt_iff s).mp h)

theorem step_of_move {s : State} {o : Result} (h : s.beginStep.move (s.env.headD (.boundary none)) = o) :
    step s = finishStep o := by
  rw [step, h]

theorem step_quiet {s : State} (h : s.Quiet) : step s = finishStep s.beginStep.executeNext := step_boundary s none h

theorem step_accepted {s : State} {msg : Dword} (ho : s.Offers msg) (ha : s.Accepts) :
    step s = .next (s.beginStep.takeInterrupt .hardware msg).endStep := by
  rw [step_boundary s (some msg) ho, boundary_accepted ((accepts_beginStep s).mpr ha), finishStep_next]

/-! ### One instruction -/

section
variable {s : State} {i : Instr} (hready : s.Ready) (hdecoded : decodeDwords s.fetchedWord s.fetchedLiteral = .ok i)
include hready hdecoded

/-- A ready machine whose instruction completes: the instruction, then the trap where it was armed. -/
theorem step_completed {t : State} (hexec : exec i s.beginStep.logFetch = .next t) :
    step s = .next (t.afterInstruction (s.flag .singleStep && !s.flag .interrupt)).endStep := by
  obtain ⟨hquiet, hawake, haligned⟩ := hready
  rw [step_quiet hquiet, executeNext_completed (s := s.beginStep) hawake haligned hdecoded hexec, trapArmed_beginStep,
    finishStep_next]

theorem step_stopped {r : Fault} (hexec : exec i s.beginStep.logFetch = .fault r) : step s = .fault r := by
  obtain ⟨hquiet, hawake, haligned⟩ := hready
  rw [step_quiet hquiet, executeNext_stopped (s := s.beginStep) hawake haligned hdecoded hexec, finishStep_fault]

end

/-- Settles O45: the instruction completes or stops. -/
theorem stepRunsDecodedInstruction : Obligations.StepRunsDecodedInstruction :=
  fun _ _ hready _ hdecoded => ⟨fun _ => step_completed hready hdecoded, fun _ => step_stopped hready hdecoded⟩

theorem afterInstruction_unarmed (t : State) : t.afterInstruction false = t := rfl

/-- Settles O46: the word is `MOV %r0, %r0`, which writes `%r0` with its own value. -/
theorem nopStepOnlyAdvances : Obligations.NopStepOnlyAdvances := by
  intro s hready hword hoff
  have hdecoded : decodeDwords s.fetchedWord s.fetchedLiteral = .ok .nop := by rw [hword]; rfl
  refine ⟨_, step_completed hready hdecoded rfl, ?_⟩
  rw [hoff, Bool.false_and, afterInstruction_unarmed]
  obtain ⟨-, hawake, -⟩ := hready
  obtain ⟨hr0, hregs, -, -, hsleep, ⟨hmap, hmasters, -⟩, hpc⟩ :=
    retire_spec s.beginStep.logFetch .r0 (s.beginStep.logFetch.reg .r0) (.reg .r0)
  refine ⟨fun r _ => ?_, ?_, ⟨?_, ?_⟩, ?_, ?_⟩
  · by_cases hr : r = .r0
    · subst hr; exact hr0.trans (reg_logFetch s.beginStep .r0)
    · exact (hregs r (by simpa using hr)).trans (reg_logFetch s.beginStep r)
  · exact logFetch_mem s.beginStep
  · exact hmap.trans (logFetch_memMap s.beginStep)
  · exact hmasters.trans (logFetch_otherMasters s.beginStep)
  · exact hsleep.trans ((logFetch_sleeping s.beginStep).trans hawake)
  · exact hpc.trans (congrArg (· + 4) (logFetch_pc s.beginStep))

/-! ### Hardware interrupts -/

/-- Settles O47: the entry from the state at the start of the step. -/
theorem hardwareInterruptIsTaken : Obligations.HardwareInterruptIsTaken := by
  intro s msg vec hoffers haccepts hvec
  obtain ⟨hentered, ⟨hmap, hmasters, henv, htick⟩, hbus⟩ :=
    takeInterrupt_entered_spec (s := s.beginStep) (source := .hardware) (msg := msg) haccepts hvec
  exact ⟨_, step_accepted hoffers haccepts, hentered, ⟨hmap, hmasters⟩, htick, henv, hbus⟩

/-- Settles O48: of the state at the start of the step only the bus record changes. -/
theorem zeroVectorAbortsHardwareInterrupt : Obligations.ZeroVectorAbortsHardwareInterrupt := by
  intro s msg hoffers haccepts hzero
  obtain ⟨bus, haborted, hbus⟩ :=
    takeInterrupt_aborted_spec (s := s.beginStep) (source := .hardware) (msg := msg) haccepts hzero
  refine ⟨_, step_accepted hoffers haccepts, ?_⟩
  rw [haborted]
  exact ⟨fun _ _ => rfl, rfl, rfl, rfl, ⟨rfl, rfl⟩, rfl, hbus⟩

/-- Settles O49: both steps are the quiet boundary of the same state. -/
theorem unacceptedOfferIsIgnored : Obligations.UnacceptedOfferIsIgnored := by
  intro s msg hoffers hrefuses
  have hquiet : step { s with env := .boundary none :: s.env.tail } = finishStep s.beginStep.executeNext := step_quiet rfl
  rw [step_boundary s (some msg) hoffers, boundary_unaccepted (mt (accepts_beginStep s).mp hrefuses), hquiet]

/-! ### The single-step trap -/

theorem vectorAddress_zero (s : State) : s.vectorAddress 0 = s.reg .ia := by simp [State.vectorAddress]

theorem handler_zero (s : State) (source : Source) : s.handler source 0 = s.readDword (.vector source) (s.reg .ia) := by
  rw [State.handler, vectorAddress_zero]

/-- Settles O50: an armed trap is `State.takeInterrupt` of message 0 in the state the instruction left. -/
theorem singleStepTrapFollowsInstruction : Obligations.SingleStepTrapFollowsInstruction := by
  intro s t i hready hdecoded hexec vec
  have hstep := step_completed hready hdecoded hexec
  refine ⟨fun hess hif => ?armed, fun hoff => ?unarmed⟩
  case armed =>
    have htrap : step s = .next (t.takeInterrupt .singleStep 0).endStep := by rw [hstep, hess, hif]; rfl
    refine ⟨fun haccepts hvec => ?entered, fun haccepts hzero => ?aborted, fun hrefuses => ?dropped⟩
    case entered =>
      obtain ⟨hentered, hplatform, hbus⟩ :=
        takeInterrupt_entered_spec (source := .singleStep) (msg := 0) haccepts (by rwa [handler_zero])
      rw [handler_zero] at hentered
      exact ⟨_, htrap, hentered, hplatform, by simpa using hbus⟩
    case aborted =>
      obtain ⟨bus, haborted, hbus⟩ :=
        takeInterrupt_aborted_spec (source := .singleStep) (msg := 0) haccepts (by rwa [handler_zero])
      refine ⟨_, htrap, ?_⟩
      rw [haborted]
      rw [vectorAddress_zero] at hbus
      exact ⟨fun _ _ => rfl, memorySame_of_eq rfl rfl rfl, rfl, rfl, ⟨rfl, rfl, rfl, rfl⟩, by simpa using hbus⟩
    case dropped => rw [htrap, takeInterrupt_unaccepted t .singleStep 0 hrefuses]
  case unarmed =>
    have hunarmed : (s.flag .singleStep && !s.flag .interrupt) = false := by
      rcases hoff with h | h
      · rw [h, Bool.false_and]
      · rw [h, Bool.not_true, Bool.and_false]
    rw [hstep, hunarmed, afterInstruction_unarmed]

/-! ### The stops -/

theorem aligned_iff (a : Dword) : a.extractLsb' 0 2 = 0 ↔ 4 ∣ a.toNat := by
  rw [← BitVec.toNat_inj, BitVec.extractLsb'_toNat, Nat.shiftRight_zero, Nat.dvd_iff_mod_eq_zero]
  rfl

/-- Settles O51: the fetch from such a `pc` is the first thing the boundary looks at. -/
theorem misalignedFetchFaults : Obligations.MisalignedFetchFaults := by
  intro s hquiet hawake haligned
  rw [step_quiet hquiet, executeNext_misaligned (s := s.beginStep) hawake (mt (aligned_iff s.pc).mp haligned)]
  rfl

theorem exists_error_of_notRecognised {ins : Dword} (h : NotRecognised ins) (literal : Dword) :
    ∃ e, decodeDwords ins literal = .error e := by
  cases hd : decodeDwords ins literal with
  | error e => exact ⟨e, rfl⟩
  | ok i => exact absurd h ((recognisedExactlyAsListed ins literal).mp ⟨i, hd⟩)

/-- Settles O7: the decoder answers no instruction for such a dword. -/
theorem notRecognisedFaults : Obligations.NotRecognisedFaults := by
  intro s ⟨hquiet, hawake, haligned⟩ hword
  obtain ⟨e, herror⟩ := exists_error_of_notRecognised hword s.fetchedLiteral
  rw [step_quiet hquiet, executeNext_unrecognised (s := s.beginStep) hawake haligned herror]
  rfl

/-- The three stops of a step, each with the condition that raises it. -/
def StopsAs (s : State) (r : Fault) : Prop :=
  (r = .misalignedFetch s.pc ∧ ¬4 ∣ s.pc.toNat) ∨
    (r = .unrecognisedInstruction s.pc s.fetchedWord ∧ NotRecognised s.fetchedWord) ∨
    (r = .skipNeverEnds s.pc ∧ ∃ i rn, decodeDwords s.fetchedWord s.fetchedLiteral = .ok i ∧ FailedTest i rn s ∧
      SkipNeverEnds s (s.npc rn))

theorem opn_logFetch (s : State) (rn : Operand) : s.logFetch.opn rn = s.opn rn := by
  cases rn <;> simp [State.opn]

theorem failedTest_logFetch {s : State} {i : Instr} {rn : Operand} (h : FailedTest i rn s.logFetch) :
    FailedTest i rn s := by
  simpa only [FailedTest, reg_logFetch, opn_logFetch] using h

theorem npc_beginStep (s : State) (rn : Operand) : s.beginStep.npc rn = s.npc rn := rfl

theorem skipNeverEnds_congr {s t : State} (hmem : t.mem = s.mem) (hmap : t.memMap = s.memMap) (htick : t.tick = s.tick)
    {a : Dword} (h : SkipNeverEnds t a) : SkipNeverEnds s a :=
  fun visited target hends => h visited target ((skipFrom_congr hmem hmap htick skipFuel a).trans hends)

theorem skipNeverEnds_logFetch {s : State} {rn : Operand} (h : SkipNeverEnds s.logFetch (s.logFetch.npc rn)) :
    SkipNeverEnds s (s.npc rn) := by
  rw [State.npc, logFetch_pc] at h
  exact skipNeverEnds_congr (logFetch_mem s) (logFetch_memMap s) (logFetch_tick s) h

theorem stopsAs_beginStep {s : State} {r : Fault} (h : StopsAs s.beginStep r) : StopsAs s r := by
  rcases h with hfetch | hword | ⟨hr, i, rn, hdecoded, hfails, hnever⟩
  · exact .inl hfetch
  · exact .inr (.inl hword)
  · rw [npc_beginStep] at hnever
    have hloop : SkipNeverEnds s (s.npc rn) :=
      skipNeverEnds_congr (beginStep_mem s) (beginStep_memMap s) (beginStep_tick s) hnever
    exact .inr (.inr ⟨hr, i, rn, hdecoded, hfails, hloop⟩)

theorem executeNext_completes_or_stops (s : State) :
    (∃ t, s.executeNext = .next t) ∨ ∃ r, s.executeNext = .fault r ∧ StopsAs s r := by
  by_cases hs : s.sleeping = true
  · exact .inl ⟨s, executeNext_asleep hs⟩
  have hawake : s.sleeping = false := by simpa using hs
  by_cases ha : s.pc.extractLsb' 0 2 = 0
  · cases hd : decodeDwords s.fetchedWord s.fetchedLiteral with
    | error e =>
      have hnone : ¬∃ i, decodeDwords s.fetchedWord s.fetchedLiteral = .ok i := by
        rintro ⟨i, hi⟩; cases hd.symm.trans hi
      have hword : NotRecognised s.fetchedWord := not_not.mp (mt (recognisedExactlyAsListed _ _).mpr hnone)
      exact .inr ⟨_, executeNext_unrecognised hawake ha hd, .inr (.inl ⟨rfl, hword⟩)⟩
    | ok i =>
      rcases everyInstructionCompletes i s.logFetch with ⟨t, hexec⟩ | ⟨rn, hfails, hnever, hexec⟩
      · exact .inl ⟨_, executeNext_completed hawake ha hd hexec⟩
      · rw [logFetch_pc] at hexec
        exact .inr ⟨_, executeNext_stopped hawake ha hd hexec,
          .inr (.inr ⟨rfl, i, rn, hd, failedTest_logFetch hfails, skipNeverEnds_logFetch hnever⟩)⟩
  · exact .inr ⟨_, executeNext_misaligned hawake ha, .inl ⟨rfl, mt (aligned_iff s.pc).mpr ha⟩⟩

theorem move_completes_or_stops (s : State) (m : EnvMove) :
    (∃ t, s.move m = .next t) ∨ ∃ r, s.move m = .fault r ∧ StopsAs s r := by
  cases m with
  | boundary hw =>
    rcases boundary_cases s hw with ⟨msg, -, -, htaken⟩ | ⟨-, hnext⟩
    · exact .inl ⟨_, htaken⟩
    · rw [State.move, hnext]
      exact executeNext_completes_or_stops s
  | reset hw landed => exact .inl ⟨_, rfl⟩
  | wait => exact .inl ⟨_, rfl⟩
  | masters writes => exact .inl ⟨_, rfl⟩

theorem step_completes_or_stops (s : State) : (∃ t, step s = .next t) ∨ ∃ r, step s = .fault r ∧ StopsAs s r := by
  rcases move_completes_or_stops s.beginStep (s.env.headD (.boundary none)) with ⟨t, hmove⟩ | ⟨r, hmove, hstops⟩
  · exact .inl ⟨_, step_of_move hmove⟩
  · exact .inr ⟨r, step_of_move hmove, stopsAs_beginStep hstops⟩

/-- Settles O60: a step that completes neither stops nor is refused, and one that does not stops as named. -/
theorem stepStopsOnlyAsNamed : Obligations.StepStopsOnlyAsNamed := by
  intro s
  rcases step_completes_or_stops s with ⟨t, hstep⟩ | ⟨r, hstep, hstops⟩
  · rw [hstep]
    exact ⟨fun _ h => (nomatch h), fun _ h => nomatch h⟩
  · rw [hstep]
    refine ⟨fun _ h => (nomatch h), fun r' h => ?_⟩
    cases h
    exact hstops

end Sys2Proof.Machine
end

section
/-! PROOFS. Moves of the environment that run no instruction (60_exceptions.md R246, 70_reset_and_hazards.md R260): the
reset edge, a hold by `_Wait`, other masters' writes, and the boundaries of a sleeping CPU. -/

namespace Sys2Proof.Machine

theorem step_of_head {s u : State} {m : EnvMove} (h : s.env.head? = some m) (hmove : s.beginStep.move m = .next u) :
    step s = .next u.endStep := by
  have hnext : s.env.headD (.boundary none) = m := by rw [List.headD_eq_head?_getD, h, Option.getD_some]
  exact step_of_move (hnext ▸ hmove)

/-! ### Reset -/

/-- Settles O55: the memory of `State.reset` lists nothing. -/
theorem resetSatisfiesInvariant : Obligations.ResetSatisfiesInvariant := reset_mem_wf

theorem reg_reset (r : Reg) : State.reset.reg r = 0 := by cases r <;> rfl

theorem flag_of_reg_zero {s : State} (h : s.reg .flags = 0) (f : Flag) : s.flag f = false := by
  rw [State.flag, h]
  exact BitVec.getLsbD_zero

/-- Settles O54: with `%flags` 0 both EI and IF are 0. -/
theorem resetStateIsAllZero : Obligations.ResetStateIsAllZero := by
  refine ⟨reg_reset, rfl, rfl, flag_of_reg_zero (reg_reset .flags) .interrupt, fun haccepts => ?_, rfl,
    fun s hw landed => ⟨rfl, rfl, rfl⟩⟩
  exact Bool.false_ne_true ((flag_of_reg_zero (reg_reset .flags) .enable).symm.trans haccepts.1)

theorem resetEdge_mem (s : State) (hw : Option Dword) (landed : List ByteWrite) : (s.resetEdge hw landed).mem =
    (s.writeCells (landed.filter fun c => (s.stepWrites hw).contains c.1)).mem := rfl

/-- A byte of RAM that the cut step was going to write holds the last value the edge names for it (U46). -/
theorem read_resetEdge_last (s : State) (hw : Option Dword) {earlier later : List ByteWrite} {a : Dword} {b : Byte}
    (hlast : a ∉ later.map Prod.fst) (hwritten : a ∈ s.stepWrites hw) (hram : s.kindAt a = .ram) :
    (s.resetEdge hw (earlier ++ (a, b) :: later)).mem.read a.toNat = b := by
  have hkept : (s.stepWrites hw).contains a = true := by simpa using hwritten
  rw [resetEdge_mem, List.filter_append, List.filter_cons, if_pos hkept]
  refine read_writeCells_last s _ _ a b (writable_of_ram hram) fun c hc => ?_
  rintro rfl
  exact hlast (List.mem_map_of_mem (List.mem_of_mem_filter hc))

theorem stepWrites_of_next {s u : State} {hw : Option Dword} (h : s.boundary hw = .next u) :
    s.stepWrites hw = u.bus.flatMap BusEvent.written := by
  rw [State.stepWrites, h]

theorem stepWrites_of_stop {s : State} {hw : Option Dword} (h : ∀ u, s.boundary hw ≠ .next u) :
    s.stepWrites hw = [] := by
  unfold State.stepWrites
  split
  next t ht => exact absurd ht (h t)
  all_goals rfl

/-- Settles O53: `resetEdge_spec`, with the bytes the cut step was going to write read off its bus record. -/
theorem resetEdgeClearsCpu : Obligations.ResetEdgeClearsCpu := by
  intro s hw landed hhead
  obtain ⟨hregs, hpc, hsleep, ⟨hmap, hmasters, henv, -⟩, hbytes⟩ := resetEdge_spec s.beginStep hw landed
  refine ⟨_, step_of_head hhead rfl, hregs, hpc, hsleep, flag_of_reg_zero (hregs .flags) .interrupt, ⟨hmap, hmasters⟩,
    henv, fun a ha => hbytes a (.inl ha), fun hstops a => hbytes a (.inr ?stopped),
    fun u hu => ⟨fun a ha => hbytes a (.inr ?other), ?landed⟩⟩
  case stopped => rw [stepWrites_of_stop hstops]; exact List.not_mem_nil
  case other => rwa [stepWrites_of_next hu]
  case landed =>
    rintro earlier later a b rfl hlast hwritten hram
    exact read_resetEdge_last s.beginStep hw hlast (by rwa [stepWrites_of_next hu]) hram

/-! ### A CPU that sleeps or is held -/

/-- A move after which the CPU, awake or asleep, is as before; memory too, where there are no other masters. -/
structure CpuKept (s t : State) : Prop where
  regs : t.regs = s.regs
  pc : t.pc = s.pc
  sleeping : t.sleeping = s.sleeping
  parameters : ParametersSame s t
  mem : s.otherMasters = false → t.mem = s.mem

theorem CpuKept.refl (s : State) : CpuKept s s := ⟨rfl, rfl, rfl, ⟨rfl, rfl⟩, fun _ => rfl⟩

theorem CpuKept.trans {s t u : State} (hst : CpuKept s t) (htu : CpuKept t u) : CpuKept s u :=
  ⟨htu.regs.trans hst.regs, htu.pc.trans hst.pc, htu.sleeping.trans hst.sleeping,
    ⟨htu.parameters.1.trans hst.parameters.1, htu.parameters.2.trans hst.parameters.2⟩,
    fun h => (htu.mem (hst.parameters.2.trans h)).trans (hst.mem h)⟩

theorem CpuKept.regsExcept {s t : State} (h : CpuKept s t) : RegsExcept [] s t :=
  fun r _ => congrArg (RegFile.get · r) h.regs

theorem CpuKept.accepts_iff {s t : State} (h : CpuKept s t) : t.Accepts ↔ s.Accepts := by
  simp only [State.Accepts, State.flag, State.reg, h.regs]

theorem mastersWrite_kept (s : State) (writes : List ByteWrite) : CpuKept s (s.mastersWrite writes) := by
  obtain ⟨hregs, hpc, hsleep, ⟨hmap, hmasters, -⟩, hmem⟩ := mastersWrite_spec s writes
  exact ⟨hregs, hpc, hsleep, ⟨hmap, hmasters⟩, fun h => by rw [hmem, h, if_neg Bool.false_ne_true]⟩

/-- Asleep for good: no reset edge is to come, and no interrupt that could be accepted. -/
def SleepsOn (s : State) : Prop :=
  s.sleeping = true ∧ (∀ m ∈ s.env, ∀ hw landed, m ≠ .reset hw landed) ∧ (¬s.Accepts ∨ s.Ended)

theorem move_sleepsOn {s : State} (h : SleepsOn s) {m : EnvMove} (hm : m = .boundary none ∨ m ∈ s.env) :
    ∃ t, s.beginStep.move m = .next t ∧ CpuKept s t ∧ t.env = s.env.tail := by
  obtain ⟨hsleep, hreset, hrefuses⟩ := h
  have hquiet : s.beginStep.executeNext = .next s.beginStep := executeNext_asleep hsleep
  have hkept : CpuKept s s.beginStep := ⟨rfl, rfl, rfl, ⟨rfl, rfl⟩, fun _ => rfl⟩
  cases m with
  | boundary hw =>
    refine ⟨_, ?_, hkept, rfl⟩
    rcases boundary_cases s.beginStep hw with ⟨msg, rfl, haccepts, -⟩ | ⟨-, hnext⟩
    · rcases hrefuses with hno | ⟨-, hnone⟩
      · exact absurd haccepts hno
      · exact absurd (hm.resolve_left (by simp)) (hnone msg)
    · exact hnext.trans hquiet
  | reset hw landed => exact absurd rfl (hreset _ (hm.resolve_left (by simp)) hw landed)
  | wait => exact ⟨_, rfl, hkept, rfl⟩
  | masters writes =>
    obtain ⟨-, -, -, ⟨-, -, henv, -⟩, -⟩ := mastersWrite_spec s.beginStep writes
    exact ⟨_, rfl, hkept.trans (mastersWrite_kept s.beginStep writes), henv⟩

theorem step_sleepsOn {s : State} (h : SleepsOn s) : ∃ t, step s = .next t ∧ CpuKept s t ∧ SleepsOn t := by
  have hhead : s.env.headD (.boundary none) = .boundary none ∨ s.env.headD (.boundary none) ∈ s.env := by
    cases s.env with
    | nil => exact .inl rfl
    | cons m ms => exact .inr List.mem_cons_self
  obtain ⟨u, hmove, hkept, henv⟩ := move_sleepsOn h hhead
  have hkeptEnd : CpuKept s u.endStep := hkept.trans ⟨rfl, rfl, rfl, ⟨rfl, rfl⟩, fun _ => rfl⟩
  have hlater (m : EnvMove) (hm : m ∈ u.endStep.env) : m ∈ s.env := List.mem_of_mem_tail (henv ▸ hm)
  obtain ⟨hsleep, hreset, hrefuses⟩ := h
  refine ⟨_, step_of_move hmove, hkeptEnd, hkeptEnd.sleeping.trans hsleep, fun m hm => hreset m (hlater m hm), ?_⟩
  rcases hrefuses with hno | ⟨-, hnone⟩
  · exact .inl (mt hkeptEnd.accepts_iff.mp hno)
  · exact .inr ⟨hkeptEnd.sleeping.trans hsleep, fun msg hm => hnone msg (hlater _ hm)⟩

theorem core_run_succ {s t : State} (h : step s = .next t) (n : Nat) :
    Sys2Proof.core.run (n + 1) s = Sys2Proof.core.run n t := by
  have hcore : Sys2Proof.core.step s = .next t := h
  simp only [Host.Core.run, hcore]

theorem run_sleepsOn (n : Nat) : ∀ {s : State}, SleepsOn s →
    ∃ t, Sys2Proof.core.run n s = .next t ∧ CpuKept s t ∧ t.sleeping = true := by
  induction n with
  | zero => intro s h; exact ⟨s, rfl, .refl s, h.1⟩
  | succ n ih =>
    intro s h
    obtain ⟨t, hstep, hkept, hnext⟩ := step_sleepsOn h
    obtain ⟨u, hrun, hkept', hsleep⟩ := ih hnext
    exact ⟨u, (core_run_succ hstep n).trans hrun, hkept.trans hkept', hsleep⟩

/-- Settles O52: any number of steps asleep; the hold; the writes of other masters, of which the last to a byte stands. -/
theorem sleepingOrHeldCpuKeepsItsState : Obligations.SleepingOrHeldCpuKeepsItsState := by
  refine ⟨fun n s hsleep hreset hrefuses => ?asleep, fun s hhead => ?held, fun s writes hhead => ?masters⟩
  case asleep =>
    obtain ⟨t, hrun, hkept, hsleeping⟩ := run_sleepsOn n ⟨hsleep, hreset, hrefuses⟩
    exact ⟨t, hrun, hsleeping, hkept.regsExcept, hkept.pc, hkept.parameters, hkept.mem⟩
  case held => exact ⟨_, step_of_head hhead rfl, fun _ _ => rfl, rfl, rfl, rfl, ⟨rfl, rfl⟩, rfl, rfl⟩
  case masters =>
    have hkept := mastersWrite_kept s.beginStep writes
    obtain ⟨-, -, -, ⟨-, -, henv, -⟩, hmem⟩ := mastersWrite_spec s.beginStep writes
    have hbus : (s.beginStep.mastersWrite writes).bus = [] := by unfold State.mastersWrite; split <;> simp
    refine ⟨_, step_of_head hhead rfl, hkept.regsExcept, hkept.pc, hkept.sleeping, hkept.parameters, henv, hbus,
      hkept.mem, fun a ha => ?other, fun hon earlier later a b hsplit hlast hram => ?last⟩
    case other =>
      rw [endStep_mem, hmem]
      split
      · exact read_writeCells_other writes s.beginStep a fun c hc e => ha (e ▸ List.mem_map_of_mem hc)
      · rfl
    case last =>
      rw [endStep_mem, hmem, beginStep_otherMasters, hon, if_pos rfl, hsplit]
      exact read_writeCells_last s.beginStep earlier later a b (writable_of_ram hram)
        fun c hc e => hlast (e ▸ List.mem_map_of_mem hc)

end Sys2Proof.Machine
end
